-- ==== Sys2Proof/Word.lean ====
section
/-! DEFINITION. The word types of the hart (R5, R6 of 00_scope.md: XLEN = 32; R71 of 30_encoding.md: 5-bit register numbers). -/

namespace Sys2Proof

/-- A 32-bit value: a register, an address, an instruction word (R6, XLEN = 32). -/
abbrev Word := BitVec 32

/-- The smallest addressable unit of memory (R28). -/
abbrev Byte := BitVec 8

/-- A 5-bit register number as it stands in an instruction (R20, R71). -/
abbrev RegNum := BitVec 5

end Sys2Proof
end

