-- ==== Sys2Proof/Config.lean ====
section
/-! DEFINITION. The implementation parameters of R5 (00_scope.md). A machine has one Config; no step changes it. -/

namespace Sys2Proof

/-- NREGS (R3, R5): RV32I has 32 integer registers, the optional RV32E has 16. -/
inductive RegCount where
  | rv32i
  | rv32e
deriving DecidableEq, Repr

/-- How many integer registers exist (R5, R20, R21). -/
def RegCount.count : RegCount → Nat
  | .rv32i => 32
  | .rv32e => 16

/-- DECODE_MODE (R81, R82): `strict` accepts the canonical encodings only, `cuPartial` is the control unit's partial decode. -/
inductive DecodeMode where
  | strict
  | cuPartial
deriving DecidableEq, Repr

/-- FETCH_MISALIGNED (R48, D7): what a jump or taken branch to an address that is not a multiple of 4 does. -/
inductive FetchMisaligned where
  | trap
  | split
deriving DecidableEq, Repr

/-- What answers at an address (R51): memory, or a device whose behaviour is outside the spec (R59, D15). -/
inductive RegionKind where
  | memory
  | device
deriving DecidableEq, Repr

/-- A run of byte addresses `base .. base + size - 1` that answers. -/
structure Region where
  base : Nat
  size : Nat
  kind : RegionKind
deriving DecidableEq, Repr

/-- MemMap (R51, D10): the byte addresses that answer. An address no region holds answers nothing. -/
abbrev MemMap := List Region

/-- What answers at the byte address `a`: the first region that holds it, if any. -/
def MemMap.kindAt : MemMap → Nat → Option RegionKind
  | [], _ => none
  | r :: rest, a => if r.base ≤ a ∧ a < r.base + r.size then some r.kind else MemMap.kindAt rest a

/-- The parameters a model takes (R5). -/
structure Config where
  /-- NREGS. -/
  regCount : RegCount
  /-- DECODE_MODE. -/
  decodeMode : DecodeMode
  /-- FETCH_MISALIGNED. -/
  fetchMisaligned : FetchMisaligned
  /-- RESET_PC, a multiple of 4 (D8). -/
  resetPc : Word
  /-- MemMap. -/
  memMap : MemMap
deriving DecidableEq, Repr

/-- RESET_PC is a multiple of 4 (R5, D8). -/
abbrev Config.WF (c : Config) : Prop := c.resetPc.extractLsb' 0 2 = 0#2

/-- The whole address space answers as memory. -/
def MemMap.allMemory : MemMap := [⟨0, 2 ^ 32, .memory⟩]

/-! ### Free values of the cycle level (logs 19 and 20) -/

/-- The operations of selop in all four alternatives of R178, `eq`, `lt` and `ltu` being the comparisons of Alternatives 3 and 4. Which alternative the ALU has is open
(R178, U17); the model chooses none, and R179's table is Alternative 2's as the source says (log 19). -/
inductive SelOp where
  | add | sll | srl | sra | and | or | xor | op1 | op2 | subSigned | subUnsigned | eq | lt | ltu
deriving DecidableEq, Repr, Inhabited

/-- The operation each selop code other than 0000 selects: not in the source (R173, U17), so a free value. -/
opaque Config.selOpElse : BitVec 4 → SelOp

/-- What PSTRB carries during a read, from the strobes of R206: not settled (R200, C9, U15), so a free value. -/
opaque Config.readStrobes : BitVec 4 → BitVec 4

/-- The port address, under NREGS = 16, that a register field of 16 to 31 gives a 4-bit register-file port: not in the source (R3, R21), so a free value
(log 20). -/
opaque Config.highField : RegNum → BitVec 4

/-- The FSM's output op2 in state op2A: "not stated (0 or 1)" (R221), so a free value. -/
opaque Config.op2InOp2A : Bool

/-! ### Defaults -/

/-- The defaults of R5 (RV32I, strict, trap); the two OPEN parameters take values of the model's own:
RESET_PC = 0 (DESIGN CHOICE, log 1) and every address memory (DESIGN CHOICE, log 4). Both unsafe. -/
def Config.default : Config where
  regCount := .rv32i
  decodeMode := .strict
  fetchMisaligned := .trap
  resetPc := 0x00000000#32
  memMap := MemMap.allMemory

end Sys2Proof
end

