-- ==== Sys2Proof/Syntax.lean ====
section
/-! DEFINITION. The 40 instructions of R79 and R80 (30_encoding.md), one constructor per row of spec/opcode_table.json, in the table's order. -/

namespace Sys2Proof

/-- An instruction with its operands. Immediates stand as the encoded field does, before sign extension; a branch or jump offset
stands as the whole offset, low zero bit included (R75, R77), and must be even (`Instr.wellFormed`). -/
inductive Instr where
  /-- `lui rd, imm20` (R121): `imm20` is `inst[31:12]` (R76). -/
  | lui (rd : RegNum) (imm20 : BitVec 20)
  /-- `auipc rd, imm20` (R122). -/
  | auipc (rd : RegNum) (imm20 : BitVec 20)
  /-- `jal rd, offset` (R142): the 21-bit J-immediate before sign extension (R77). -/
  | jal (rd : RegNum) (offset : BitVec 21)
  /-- `jalr rd, imm(rs1)` (R141). -/
  | jalr (rd rs1 : RegNum) (imm : BitVec 12)
  /-- `beq rs1, rs2, offset` (R146): the 13-bit B-immediate before sign extension (R75). -/
  | beq (rs1 rs2 : RegNum) (offset : BitVec 13)
  /-- `bne rs1, rs2, offset` (R147). -/
  | bne (rs1 rs2 : RegNum) (offset : BitVec 13)
  /-- `blt rs1, rs2, offset` (R148). -/
  | blt (rs1 rs2 : RegNum) (offset : BitVec 13)
  /-- `bge rs1, rs2, offset` (R149). -/
  | bge (rs1 rs2 : RegNum) (offset : BitVec 13)
  /-- `bltu rs1, rs2, offset` (R150). -/
  | bltu (rs1 rs2 : RegNum) (offset : BitVec 13)
  /-- `bgeu rs1, rs2, offset` (R151). -/
  | bgeu (rs1 rs2 : RegNum) (offset : BitVec 13)
  /-- `lb rd, imm(rs1)` (R111). -/
  | lb (rd rs1 : RegNum) (imm : BitVec 12)
  /-- `lh rd, imm(rs1)` (R112). -/
  | lh (rd rs1 : RegNum) (imm : BitVec 12)
  /-- `lw rd, imm(rs1)` (R113). -/
  | lw (rd rs1 : RegNum) (imm : BitVec 12)
  /-- `lbu rd, imm(rs1)` (R114). -/
  | lbu (rd rs1 : RegNum) (imm : BitVec 12)
  /-- `lhu rd, imm(rs1)` (R115). -/
  | lhu (rd rs1 : RegNum) (imm : BitVec 12)
  /-- `sb rs2, imm(rs1)` (R156). -/
  | sb (rs2 rs1 : RegNum) (imm : BitVec 12)
  /-- `sh rs2, imm(rs1)` (R157). -/
  | sh (rs2 rs1 : RegNum) (imm : BitVec 12)
  /-- `sw rs2, imm(rs1)` (R158). -/
  | sw (rs2 rs1 : RegNum) (imm : BitVec 12)
  /-- `addi rd, rs1, imm` (R101). -/
  | addi (rd rs1 : RegNum) (imm : BitVec 12)
  /-- `slti rd, rs1, imm` (R102). -/
  | slti (rd rs1 : RegNum) (imm : BitVec 12)
  /-- `sltiu rd, rs1, imm` (R103). -/
  | sltiu (rd rs1 : RegNum) (imm : BitVec 12)
  /-- `xori rd, rs1, imm` (R106). -/
  | xori (rd rs1 : RegNum) (imm : BitVec 12)
  /-- `ori rd, rs1, imm` (R105). -/
  | ori (rd rs1 : RegNum) (imm : BitVec 12)
  /-- `andi rd, rs1, imm` (R104). -/
  | andi (rd rs1 : RegNum) (imm : BitVec 12)
  /-- `slli rd, rs1, shamt` (R107). -/
  | slli (rd rs1 : RegNum) (shamt : BitVec 5)
  /-- `srli rd, rs1, shamt` (R108). -/
  | srli (rd rs1 : RegNum) (shamt : BitVec 5)
  /-- `srai rd, rs1, shamt` (R109). -/
  | srai (rd rs1 : RegNum) (shamt : BitVec 5)
  /-- `add rd, rs1, rs2` (R126). -/
  | add (rd rs1 rs2 : RegNum)
  /-- `sub rd, rs1, rs2` (R135). -/
  | sub (rd rs1 rs2 : RegNum)
  /-- `sll rd, rs1, rs2` (R132). -/
  | sll (rd rs1 rs2 : RegNum)
  /-- `slt rd, rs1, rs2` (R127). -/
  | slt (rd rs1 rs2 : RegNum)
  /-- `sltu rd, rs1, rs2` (R128). -/
  | sltu (rd rs1 rs2 : RegNum)
  /-- `xor rd, rs1, rs2` (R131). -/
  | xor (rd rs1 rs2 : RegNum)
  /-- `srl rd, rs1, rs2` (R133). -/
  | srl (rd rs1 rs2 : RegNum)
  /-- `sra rd, rs1, rs2` (R134). -/
  | sra (rd rs1 rs2 : RegNum)
  /-- `or rd, rs1, rs2` (R130). -/
  | or (rd rs1 rs2 : RegNum)
  /-- `and rd, rs1, rs2` (R129). -/
  | and (rd rs1 rs2 : RegNum)
  /-- `fence pred, succ` (R160): `fm`, `pred`, `succ` are the parts of the 12-bit field; they and `rs1`, `rd` are kept so that
  no bit of the word is lost, and the hardware ignores all five (R91). -/
  | fence (fm pred succ : BitVec 4) (rs1 rd : RegNum)
  /-- `ecall` (R161). -/
  | ecall
  /-- `ebreak` (R162). -/
  | ebreak
deriving DecidableEq, Repr

/-- The mnemonic of spec/opcode_table.json (R79). -/
def Instr.mnemonic : Instr → String
  | .lui .. => "LUI" | .auipc .. => "AUIPC" | .jal .. => "JAL" | .jalr .. => "JALR"
  | .beq .. => "BEQ" | .bne .. => "BNE" | .blt .. => "BLT"
  | .bge .. => "BGE" | .bltu .. => "BLTU" | .bgeu .. => "BGEU"
  | .lb .. => "LB" | .lh .. => "LH" | .lw .. => "LW" | .lbu .. => "LBU" | .lhu .. => "LHU"
  | .sb .. => "SB" | .sh .. => "SH" | .sw .. => "SW"
  | .addi .. => "ADDI" | .slti .. => "SLTI" | .sltiu .. => "SLTIU"
  | .xori .. => "XORI" | .ori .. => "ORI" | .andi .. => "ANDI"
  | .slli .. => "SLLI" | .srli .. => "SRLI" | .srai .. => "SRAI"
  | .add .. => "ADD" | .sub .. => "SUB" | .sll .. => "SLL" | .slt .. => "SLT" | .sltu .. => "SLTU"
  | .xor .. => "XOR" | .srl .. => "SRL" | .sra .. => "SRA" | .or .. => "OR" | .and .. => "AND"
  | .fence .. => "FENCE" | .ecall => "ECALL" | .ebreak => "EBREAK"

/-- The register numbers an instruction's format has and the hardware uses (R90: FENCE's are ignored, so it has none; in a U or J
format there is only rd, in an I format no rs2). -/
def Instr.regs : Instr → List RegNum
  | .lui rd _ | .auipc rd _ | .jal rd _ => [rd]
  | .jalr rd rs1 _ => [rd, rs1]
  | .beq rs1 rs2 _ | .bne rs1 rs2 _ | .blt rs1 rs2 _ => [rs1, rs2]
  | .bge rs1 rs2 _ | .bltu rs1 rs2 _ | .bgeu rs1 rs2 _ => [rs1, rs2]
  | .lb rd rs1 _ | .lh rd rs1 _ | .lw rd rs1 _ | .lbu rd rs1 _ | .lhu rd rs1 _ => [rd, rs1]
  | .sb rs2 rs1 _ | .sh rs2 rs1 _ | .sw rs2 rs1 _ => [rs1, rs2]
  | .addi rd rs1 _ | .slti rd rs1 _ | .sltiu rd rs1 _ => [rd, rs1]
  | .xori rd rs1 _ | .ori rd rs1 _ | .andi rd rs1 _ => [rd, rs1]
  | .slli rd rs1 _ | .srli rd rs1 _ | .srai rd rs1 _ => [rd, rs1]
  | .add rd rs1 rs2 | .sub rd rs1 rs2 | .sll rd rs1 rs2 | .slt rd rs1 rs2 | .sltu rd rs1 rs2 => [rd, rs1, rs2]
  | .xor rd rs1 rs2 | .srl rd rs1 rs2 | .sra rd rs1 rs2 | .or rd rs1 rs2 | .and rd rs1 rs2 => [rd, rs1, rs2]
  | .fence .. | .ecall | .ebreak => []

/-- The register an instruction writes, if its format has an `rd` that the hardware uses (R31). -/
def Instr.dest : Instr → Option RegNum
  | .lui rd _ | .auipc rd _ | .jal rd _ | .jalr rd _ _ => some rd
  | .lb rd _ _ | .lh rd _ _ | .lw rd _ _ | .lbu rd _ _ | .lhu rd _ _ => some rd
  | .addi rd _ _ | .slti rd _ _ | .sltiu rd _ _ | .xori rd _ _ | .ori rd _ _ | .andi rd _ _ => some rd
  | .slli rd _ _ | .srli rd _ _ | .srai rd _ _ => some rd
  | .add rd _ _ | .sub rd _ _ | .sll rd _ _ | .slt rd _ _ | .sltu rd _ _ => some rd
  | .xor rd _ _ | .srl rd _ _ | .sra rd _ _ | .or rd _ _ | .and rd _ _ => some rd
  | .beq .. | .bne .. | .blt .. | .bge .. | .bltu .. | .bgeu .. => none
  | .sb .. | .sh .. | .sw .. | .fence .. | .ecall | .ebreak => none

end Sys2Proof
end

