-- ==== Sys2Proof/WellFormed.lean ====
section
/-! DEFINITION. Which instruction terms stand for a word of the encoding (R21, R75, R77, R90). -/

namespace Sys2Proof

/-- Register number `r` names a register of a machine with `n` registers (R20, R21). -/
def regExists (n : RegCount) (r : RegNum) : Bool := decide (r.toNat < n.count)

/-- Every register field the format has names an existing register (R90). -/
def Instr.regsExist (n : RegCount) (i : Instr) : Bool := i.regs.all (regExists n)

/-- The B- and J-immediates are even: their bit 0 is implied zero (R75, R77). -/
def Instr.offsetEven : Instr → Bool
  | .jal _ off => !off.getLsbD 0
  | .beq _ _ off | .bne _ _ off | .blt _ _ off | .bge _ _ off | .bltu _ _ off | .bgeu _ _ off => !off.getLsbD 0
  | .lui .. | .auipc .. | .jalr .. | .lb .. | .lh .. | .lw .. | .lbu .. | .lhu .. => true
  | .sb .. | .sh .. | .sw .. | .addi .. | .slti .. | .sltiu .. | .xori .. | .ori .. | .andi .. => true
  | .slli .. | .srli .. | .srai .. | .add .. | .sub .. | .sll .. | .slt .. | .sltu .. => true
  | .xor .. | .srl .. | .sra .. | .or .. | .and .. | .fence .. | .ecall | .ebreak => true

/-- An instruction term that some word encodes on a machine with `n` registers. -/
def Instr.wellFormed (n : RegCount) (i : Instr) : Bool := i.regsExist n && i.offsetEven

end Sys2Proof
end

