-- ==== Sys2Proof/Decode.lean ====
section
/-! DEFINITION. Words to instructions and back (30_encoding.md, R70 to R91). `decode` is total on all 2^32 words; it answers an
instruction or a rejection by name. The field places and the immediates' layouts are R71 to R77, whose bit positions the spec itself marks
as general knowledge (log 13). -/

namespace Sys2Proof

/-! ### Byte order (R41 to R44) -/

/-- The value whose bytes, lowest address first, are `bs`: the first byte is the least significant (R41, R43). -/
def leWord : List Byte → Word
  | [] => 0#32
  | b :: bs => (leWord bs <<< 8) ||| b.setWidth 32

/-- The low `n` bytes of `v`, lowest address first: byte `i` is `v[8i+7:8i]` (R41, R44). -/
def leBytes (n : Nat) (v : Word) : List Byte := (List.range n).map fun i => v.extractLsb' (8 * i) 8

/-! ### Fields of the instruction word (R71) -/

/-- `rd`, `inst[11:7]`. -/
def rdOf (w : Word) : RegNum := w.extractLsb' 7 5
/-- `funct3`, `inst[14:12]`. -/
def funct3Of (w : Word) : BitVec 3 := w.extractLsb' 12 3
/-- `rs1`, `inst[19:15]`. -/
def rs1Of (w : Word) : RegNum := w.extractLsb' 15 5
/-- `rs2`, and `shamt` of the immediate shifts, `inst[24:20]` (R78). -/
def rs2Of (w : Word) : RegNum := w.extractLsb' 20 5
/-- `funct7`, `inst[31:25]`. -/
def funct7Of (w : Word) : BitVec 7 := w.extractLsb' 25 7
/-- `opcode[6:2]`, `inst[6:2]`. -/
def opcode62Of (w : Word) : BitVec 5 := w.extractLsb' 2 5

/-- The 12-bit field of the I-immediate, `inst[31:20]` (R73). -/
def immIOf (w : Word) : BitVec 12 := w.extractLsb' 20 12
/-- The 12-bit field of the S-immediate (R74). -/
def immSOf (w : Word) : BitVec 12 := w.extractLsb' 25 7 ++ w.extractLsb' 7 5
/-- The 13-bit B-immediate, low zero bit included (R75). -/
def immBOf (w : Word) : BitVec 13 :=
  w.extractLsb' 31 1 ++ w.extractLsb' 7 1 ++ w.extractLsb' 25 6 ++ w.extractLsb' 8 4 ++ 0#1
/-- The 20-bit field of the U-immediate, `inst[31:12]` (R76). -/
def immUOf (w : Word) : BitVec 20 := w.extractLsb' 12 20
/-- The 21-bit J-immediate, low zero bit included (R77). -/
def immJOf (w : Word) : BitVec 21 :=
  w.extractLsb' 31 1 ++ w.extractLsb' 12 8 ++ w.extractLsb' 20 1 ++ w.extractLsb' 21 10 ++ 0#1

/-! ### Major opcodes (R79) -/

/-- The 15 major opcodes the source's table has an entry for (R79). -/
inductive Major where
  | load | custom0 | miscMem | opImm | auipc | store | custom1 | op | lui | custom2 | branch | jalr | jal | system | custom3
deriving DecidableEq, Repr

/-- The major opcode whose `opcode[6:2]` is `b` (R79); the other 17 values have none. -/
def majorOf (b : BitVec 5) : Option Major :=
  match b with
  | 0b00000#5 => some .load
  | 0b00010#5 => some .custom0
  | 0b00011#5 => some .miscMem
  | 0b00100#5 => some .opImm
  | 0b00101#5 => some .auipc
  | 0b01000#5 => some .store
  | 0b01010#5 => some .custom1
  | 0b01100#5 => some .op
  | 0b01101#5 => some .lui
  | 0b10110#5 => some .custom2
  | 0b11000#5 => some .branch
  | 0b11001#5 => some .jalr
  | 0b11011#5 => some .jal
  | 0b11100#5 => some .system
  | 0b11110#5 => some .custom3
  | _ => none

/-! ### Decoding: one table per major opcode, shared by the two modes where they agree -/

/-- BRANCH by funct3 (R80). -/
def decodeBranch (w : Word) : Option Instr :=
  match funct3Of w with
  | 0b000#3 => some (.beq (rs1Of w) (rs2Of w) (immBOf w))
  | 0b001#3 => some (.bne (rs1Of w) (rs2Of w) (immBOf w))
  | 0b100#3 => some (.blt (rs1Of w) (rs2Of w) (immBOf w))
  | 0b101#3 => some (.bge (rs1Of w) (rs2Of w) (immBOf w))
  | 0b110#3 => some (.bltu (rs1Of w) (rs2Of w) (immBOf w))
  | 0b111#3 => some (.bgeu (rs1Of w) (rs2Of w) (immBOf w))
  | _ => none

/-- LOAD by funct3 (R80). -/
def decodeLoad (w : Word) : Option Instr :=
  match funct3Of w with
  | 0b000#3 => some (.lb (rdOf w) (rs1Of w) (immIOf w))
  | 0b001#3 => some (.lh (rdOf w) (rs1Of w) (immIOf w))
  | 0b010#3 => some (.lw (rdOf w) (rs1Of w) (immIOf w))
  | 0b100#3 => some (.lbu (rdOf w) (rs1Of w) (immIOf w))
  | 0b101#3 => some (.lhu (rdOf w) (rs1Of w) (immIOf w))
  | _ => none

/-- STORE by funct3 (R80). -/
def decodeStore (w : Word) : Option Instr :=
  match funct3Of w with
  | 0b000#3 => some (.sb (rs2Of w) (rs1Of w) (immSOf w))
  | 0b001#3 => some (.sh (rs2Of w) (rs1Of w) (immSOf w))
  | 0b010#3 => some (.sw (rs2Of w) (rs1Of w) (immSOf w))
  | _ => none

/-- The six OP-IMM instructions that are no shift, by funct3 (R80). -/
def decodeOpImmPlain (w : Word) : Option Instr :=
  match funct3Of w with
  | 0b000#3 => some (.addi (rdOf w) (rs1Of w) (immIOf w))
  | 0b010#3 => some (.slti (rdOf w) (rs1Of w) (immIOf w))
  | 0b011#3 => some (.sltiu (rdOf w) (rs1Of w) (immIOf w))
  | 0b100#3 => some (.xori (rdOf w) (rs1Of w) (immIOf w))
  | 0b110#3 => some (.ori (rdOf w) (rs1Of w) (immIOf w))
  | 0b111#3 => some (.andi (rdOf w) (rs1Of w) (immIOf w))
  | _ => none

/-- The OP-IMM shifts, by funct3 and the whole of `inst[31:25]` (R80, strict). -/
def decodeShiftStrict (w : Word) : Option Instr :=
  match funct3Of w, funct7Of w with
  | 0b001#3, 0b0000000#7 => some (.slli (rdOf w) (rs1Of w) (rs2Of w))
  | 0b101#3, 0b0000000#7 => some (.srli (rdOf w) (rs1Of w) (rs2Of w))
  | 0b101#3, 0b0100000#7 => some (.srai (rdOf w) (rs1Of w) (rs2Of w))
  | _, _ => none

/-- OP by funct3 and the whole of `inst[31:25]` (R80, strict). -/
def decodeOpStrict (w : Word) : Option Instr :=
  match funct7Of w, funct3Of w with
  | 0b0000000#7, 0b000#3 => some (.add (rdOf w) (rs1Of w) (rs2Of w))
  | 0b0100000#7, 0b000#3 => some (.sub (rdOf w) (rs1Of w) (rs2Of w))
  | 0b0000000#7, 0b001#3 => some (.sll (rdOf w) (rs1Of w) (rs2Of w))
  | 0b0000000#7, 0b010#3 => some (.slt (rdOf w) (rs1Of w) (rs2Of w))
  | 0b0000000#7, 0b011#3 => some (.sltu (rdOf w) (rs1Of w) (rs2Of w))
  | 0b0000000#7, 0b100#3 => some (.xor (rdOf w) (rs1Of w) (rs2Of w))
  | 0b0000000#7, 0b101#3 => some (.srl (rdOf w) (rs1Of w) (rs2Of w))
  | 0b0100000#7, 0b101#3 => some (.sra (rdOf w) (rs1Of w) (rs2Of w))
  | 0b0000000#7, 0b110#3 => some (.or (rdOf w) (rs1Of w) (rs2Of w))
  | 0b0000000#7, 0b111#3 => some (.and (rdOf w) (rs1Of w) (rs2Of w))
  | _, _ => none

/-- MISC-MEM: FENCE when funct3 = 000, every other field accepted (R80, R91). -/
def decodeMiscMem (w : Word) : Option Instr :=
  if funct3Of w = 0b000#3 then
    some (.fence (w.extractLsb' 28 4) (w.extractLsb' 24 4) (w.extractLsb' 20 4) (rs1Of w) (rdOf w))
  else none

/-- DECODE_MODE = strict, below the low two bits: R89's case on `inst[6:2]`. -/
def decodeStrictUnder (m : Major) (w : Word) : Option Instr :=
  match m with
  | .lui => some (.lui (rdOf w) (immUOf w))
  | .auipc => some (.auipc (rdOf w) (immUOf w))
  | .jal => some (.jal (rdOf w) (immJOf w))
  | .jalr => if funct3Of w = 0b000#3 then some (.jalr (rdOf w) (rs1Of w) (immIOf w)) else none
  | .branch => decodeBranch w
  | .load => decodeLoad w
  | .store => decodeStore w
  | .opImm => if funct3Of w = 0b001#3 ∨ funct3Of w = 0b101#3 then decodeShiftStrict w else decodeOpImmPlain w
  | .op => decodeOpStrict w
  | .miscMem => decodeMiscMem w
  | .system => if w = 0x00000073#32 then some .ecall else if w = 0x00100073#32 then some .ebreak else none
  | .custom0 | .custom1 | .custom2 | .custom3 => none

/-- DECODE_MODE = strict without the register-number check (R89): `none` is a reserved word. -/
def decodeStrict (w : Word) : Option Instr :=
  if w.extractLsb' 0 2 = 0b11#2 then (majorOf (opcode62Of w)).bind fun m => decodeStrictUnder m w else none

/-- The OP-IMM shifts as the control unit tells them apart: SLLI by funct3 alone, SRLI and SRAI by `inst[30]` (R80, R82). -/
def decodeShiftCu (w : Word) : Option Instr :=
  if funct3Of w = 0b001#3 then some (.slli (rdOf w) (rs1Of w) (rs2Of w))
  else if w.getLsbD 30 then some (.srai (rdOf w) (rs1Of w) (rs2Of w))
  else some (.srli (rdOf w) (rs1Of w) (rs2Of w))

/-- OP as the control unit tells its instructions apart: funct3, and `inst[30]` for ADD or SUB and SRL or SRA (R80, R82). -/
def decodeOpCu (w : Word) : Option Instr :=
  match funct3Of w with
  | 0b000#3 => if w.getLsbD 30 then some (.sub (rdOf w) (rs1Of w) (rs2Of w)) else some (.add (rdOf w) (rs1Of w) (rs2Of w))
  | 0b001#3 => some (.sll (rdOf w) (rs1Of w) (rs2Of w))
  | 0b010#3 => some (.slt (rdOf w) (rs1Of w) (rs2Of w))
  | 0b011#3 => some (.sltu (rdOf w) (rs1Of w) (rs2Of w))
  | 0b100#3 => some (.xor (rdOf w) (rs1Of w) (rs2Of w))
  | 0b101#3 => if w.getLsbD 30 then some (.sra (rdOf w) (rs1Of w) (rs2Of w)) else some (.srl (rdOf w) (rs1Of w) (rs2Of w))
  | 0b110#3 => some (.or (rdOf w) (rs1Of w) (rs2Of w))
  | _ => some (.and (rdOf w) (rs1Of w) (rs2Of w))

/-- What decoding a word answers. -/
inductive Decoded where
  /-- The word is this instruction. -/
  | instr (i : Instr)
  /-- A reserved, illegal or custom encoding: it raises `IllegalInstruction` (R83, R85, R90). -/
  | illegal
  /-- Under `cuPartial`, a word the source gives no instruction number: the model refuses it (R82, R246, C13). -/
  | noInstructionNumber
deriving DecidableEq, Repr

/-- A selector with no row has no instruction number (R82, last item). -/
def decodedOr (o : Option Instr) : Decoded :=
  match o with
  | some i => .instr i
  | none => .noInstructionNumber

/-- DECODE_MODE = cu_partial, under a major opcode (R82): the control unit looks at funct3, `inst[30]` and `inst[20]` only where R80 has
a 0 or 1. A LOAD or STORE of size code 10 or 11 is a word access; a STORE does not use the unsigned bit. -/
def decodeCuUnder (m : Major) (w : Word) : Decoded :=
  match m with
  | .lui => .instr (.lui (rdOf w) (immUOf w))
  | .auipc => .instr (.auipc (rdOf w) (immUOf w))
  | .jal => .instr (.jal (rdOf w) (immJOf w))
  | .jalr => .instr (.jalr (rdOf w) (rs1Of w) (immIOf w))
  | .branch => decodedOr (decodeBranch w)
  | .load => if w.getLsbD 13 then .instr (.lw (rdOf w) (rs1Of w) (immIOf w)) else decodedOr (decodeLoad w)
  | .store =>
    if w.getLsbD 13 then .instr (.sw (rs2Of w) (rs1Of w) (immSOf w))
    else if w.getLsbD 12 then .instr (.sh (rs2Of w) (rs1Of w) (immSOf w))
    else .instr (.sb (rs2Of w) (rs1Of w) (immSOf w))
  | .opImm => decodedOr (if funct3Of w = 0b001#3 ∨ funct3Of w = 0b101#3 then decodeShiftCu w else decodeOpImmPlain w)
  | .op => decodedOr (decodeOpCu w)
  | .miscMem => decodedOr (decodeMiscMem w)
  | .system =>
    if funct3Of w = 0b000#3 then (if w.getLsbD 20 then .instr .ebreak else .instr .ecall) else .noInstructionNumber
  | .custom0 | .custom1 | .custom2 | .custom3 => .illegal

/-- DECODE_MODE = cu_partial without the register-number check (R82): the low two bits are not looked at. -/
def decodeCu (w : Word) : Decoded :=
  match majorOf (opcode62Of w) with
  | some m => decodeCuUnder m w
  | none => .noInstructionNumber

/-- The register-number check of RV32E (R21, R90, the last step of R89); it changes nothing when NREGS = 32. -/
def checkRegs (n : RegCount) : Decoded → Decoded
  | .instr i => if i.regsExist n then .instr i else .illegal
  | .illegal => .illegal
  | .noInstructionNumber => .noInstructionNumber

/-- Decoding in the mode the configuration names (R81, R82), with the register-number check of its NREGS in both modes (log 10). -/
def decode (n : RegCount) (mode : DecodeMode) (w : Word) : Decoded :=
  checkRegs n (match mode with
    | .strict => (match decodeStrict w with
      | some i => .instr i
      | none => .illegal)
    | .cuPartial => decodeCu w)

/-- Decoding from the bytes in memory, lowest address first (R42, R70). Fewer than four bytes are no instruction. -/
def decodeBytes (n : RegCount) (mode : DecodeMode) (bs : List Byte) : Decoded × List Byte :=
  if bs.length < 4 then (.illegal, bs) else (decode n mode (leWord (bs.take 4)), bs.drop 4)

/-- The instruction the decoder reads, with the defaults of R5, from the opcode-table bits `w`: the word is laid out as memory holds it,
bits at and above `nbits` zero, and given to the decoder. -/
def decodeTableWord (nbits w : Nat) : Option Instr :=
  match (decodeBytes Config.default.regCount Config.default.decodeMode (leBytes 4 (BitVec.ofNat 32 (w % 2 ^ nbits)))).1 with
  | .instr i => some i
  | _ => none

/-! ### Encoding: the formats of R72 -/

/-- R format. -/
def encR (funct7 : BitVec 7) (rs2 rs1 : RegNum) (funct3 : BitVec 3) (rd : RegNum) (opcode : BitVec 7) : Word :=
  funct7 ++ rs2 ++ rs1 ++ funct3 ++ rd ++ opcode
/-- I format. -/
def encI (imm : BitVec 12) (rs1 : RegNum) (funct3 : BitVec 3) (rd : RegNum) (opcode : BitVec 7) : Word :=
  imm ++ rs1 ++ funct3 ++ rd ++ opcode
/-- S format: imm[11:5] in `inst[31:25]`, imm[4:0] in `inst[11:7]` (R74). -/
def encS (imm : BitVec 12) (rs2 rs1 : RegNum) (funct3 : BitVec 3) (opcode : BitVec 7) : Word :=
  imm.extractLsb' 5 7 ++ rs2 ++ rs1 ++ funct3 ++ imm.extractLsb' 0 5 ++ opcode
/-- B format (R75); bit 0 of the offset has no place in the word. -/
def encB (off : BitVec 13) (rs2 rs1 : RegNum) (funct3 : BitVec 3) (opcode : BitVec 7) : Word :=
  off.extractLsb' 12 1 ++ off.extractLsb' 5 6 ++ rs2 ++ rs1 ++ funct3 ++ off.extractLsb' 1 4 ++ off.extractLsb' 11 1 ++ opcode
/-- U format (R76). -/
def encU (imm20 : BitVec 20) (rd : RegNum) (opcode : BitVec 7) : Word := imm20 ++ rd ++ opcode
/-- J format (R77); bit 0 of the offset has no place in the word. -/
def encJ (off : BitVec 21) (rd : RegNum) (opcode : BitVec 7) : Word :=
  off.extractLsb' 20 1 ++ off.extractLsb' 1 10 ++ off.extractLsb' 11 1 ++ off.extractLsb' 12 8 ++ rd ++ opcode

/-- The canonical word of an instruction (R72, R80 with the strict column). -/
def encode : Instr → Word
  | .lui rd imm => encU imm rd 0x37#7
  | .auipc rd imm => encU imm rd 0x17#7
  | .jal rd off => encJ off rd 0x6F#7
  | .jalr rd rs1 imm => encI imm rs1 0b000#3 rd 0x67#7
  | .beq rs1 rs2 off => encB off rs2 rs1 0b000#3 0x63#7
  | .bne rs1 rs2 off => encB off rs2 rs1 0b001#3 0x63#7
  | .blt rs1 rs2 off => encB off rs2 rs1 0b100#3 0x63#7
  | .bge rs1 rs2 off => encB off rs2 rs1 0b101#3 0x63#7
  | .bltu rs1 rs2 off => encB off rs2 rs1 0b110#3 0x63#7
  | .bgeu rs1 rs2 off => encB off rs2 rs1 0b111#3 0x63#7
  | .lb rd rs1 imm => encI imm rs1 0b000#3 rd 0x03#7
  | .lh rd rs1 imm => encI imm rs1 0b001#3 rd 0x03#7
  | .lw rd rs1 imm => encI imm rs1 0b010#3 rd 0x03#7
  | .lbu rd rs1 imm => encI imm rs1 0b100#3 rd 0x03#7
  | .lhu rd rs1 imm => encI imm rs1 0b101#3 rd 0x03#7
  | .sb rs2 rs1 imm => encS imm rs2 rs1 0b000#3 0x23#7
  | .sh rs2 rs1 imm => encS imm rs2 rs1 0b001#3 0x23#7
  | .sw rs2 rs1 imm => encS imm rs2 rs1 0b010#3 0x23#7
  | .addi rd rs1 imm => encI imm rs1 0b000#3 rd 0x13#7
  | .slti rd rs1 imm => encI imm rs1 0b010#3 rd 0x13#7
  | .sltiu rd rs1 imm => encI imm rs1 0b011#3 rd 0x13#7
  | .xori rd rs1 imm => encI imm rs1 0b100#3 rd 0x13#7
  | .ori rd rs1 imm => encI imm rs1 0b110#3 rd 0x13#7
  | .andi rd rs1 imm => encI imm rs1 0b111#3 rd 0x13#7
  | .slli rd rs1 sh => encR 0b0000000#7 sh rs1 0b001#3 rd 0x13#7
  | .srli rd rs1 sh => encR 0b0000000#7 sh rs1 0b101#3 rd 0x13#7
  | .srai rd rs1 sh => encR 0b0100000#7 sh rs1 0b101#3 rd 0x13#7
  | .add rd rs1 rs2 => encR 0b0000000#7 rs2 rs1 0b000#3 rd 0x33#7
  | .sub rd rs1 rs2 => encR 0b0100000#7 rs2 rs1 0b000#3 rd 0x33#7
  | .sll rd rs1 rs2 => encR 0b0000000#7 rs2 rs1 0b001#3 rd 0x33#7
  | .slt rd rs1 rs2 => encR 0b0000000#7 rs2 rs1 0b010#3 rd 0x33#7
  | .sltu rd rs1 rs2 => encR 0b0000000#7 rs2 rs1 0b011#3 rd 0x33#7
  | .xor rd rs1 rs2 => encR 0b0000000#7 rs2 rs1 0b100#3 rd 0x33#7
  | .srl rd rs1 rs2 => encR 0b0000000#7 rs2 rs1 0b101#3 rd 0x33#7
  | .sra rd rs1 rs2 => encR 0b0100000#7 rs2 rs1 0b101#3 rd 0x33#7
  | .or rd rs1 rs2 => encR 0b0000000#7 rs2 rs1 0b110#3 rd 0x33#7
  | .and rd rs1 rs2 => encR 0b0000000#7 rs2 rs1 0b111#3 rd 0x33#7
  | .fence fm pred succ rs1 rd => encI (fm ++ pred ++ succ) rs1 0b000#3 rd 0x0F#7
  | .ecall => 0x00000073#32
  | .ebreak => 0x00100073#32

/-! ### The opcode table as data -/

/-- A row of spec/opcode_table.json: `matchBits` and `mask` are the strict decode (R81), `cuMatch` and `cuMask` the control unit's partial
decode (R82), `inum` the instruction number (R188). -/
structure OpcodeRow where
  mnemonic : String
  matchBits : Word
  mask : Word
  cuMatch : Word
  cuMask : Word
  inum : BitVec 8
deriving DecidableEq, Repr

/-- The rows of spec/opcode_table.json for the U and J formats and JALR (R121, R122, R141, R142). -/
def opcodeRowsUpper : List OpcodeRow := [
  ⟨"LUI", 0x00000037#32, 0x0000007F#32, 0x00000034#32, 0x0000007C#32, 0x14#8⟩,
  ⟨"AUIPC", 0x00000017#32, 0x0000007F#32, 0x00000014#32, 0x0000007C#32, 0x10#8⟩,
  ⟨"JAL", 0x0000006F#32, 0x0000007F#32, 0x0000006C#32, 0x0000007C#32, 0x1C#8⟩,
  ⟨"JALR", 0x00000067#32, 0x0000707F#32, 0x00000064#32, 0x0000007C#32, 0x18#8⟩]

/-- The rows of spec/opcode_table.json for BRANCH (R146 to R151). -/
def opcodeRowsBranch : List OpcodeRow := [
  ⟨"BEQ", 0x00000063#32, 0x0000707F#32, 0x00000060#32, 0x0000707C#32, 0x20#8⟩,
  ⟨"BNE", 0x00001063#32, 0x0000707F#32, 0x00001060#32, 0x0000707C#32, 0x24#8⟩,
  ⟨"BLT", 0x00004063#32, 0x0000707F#32, 0x00004060#32, 0x0000707C#32, 0x28#8⟩,
  ⟨"BGE", 0x00005063#32, 0x0000707F#32, 0x00005060#32, 0x0000707C#32, 0x2C#8⟩,
  ⟨"BLTU", 0x00006063#32, 0x0000707F#32, 0x00006060#32, 0x0000707C#32, 0x30#8⟩,
  ⟨"BGEU", 0x00007063#32, 0x0000707F#32, 0x00007060#32, 0x0000707C#32, 0x34#8⟩]

/-- The rows of spec/opcode_table.json for LOAD and STORE (R111 to R115, R156 to R158). -/
def opcodeRowsMemory : List OpcodeRow := [
  ⟨"LB", 0x00000003#32, 0x0000707F#32, 0x00000000#32, 0x0000707C#32, 0x08#8⟩,
  ⟨"LH", 0x00001003#32, 0x0000707F#32, 0x00001000#32, 0x0000707C#32, 0x08#8⟩,
  ⟨"LW", 0x00002003#32, 0x0000707F#32, 0x00002000#32, 0x0000207C#32, 0x08#8⟩,
  ⟨"LBU", 0x00004003#32, 0x0000707F#32, 0x00004000#32, 0x0000707C#32, 0x08#8⟩,
  ⟨"LHU", 0x00005003#32, 0x0000707F#32, 0x00005000#32, 0x0000707C#32, 0x08#8⟩,
  ⟨"SB", 0x00000023#32, 0x0000707F#32, 0x00000020#32, 0x0000307C#32, 0x0C#8⟩,
  ⟨"SH", 0x00001023#32, 0x0000707F#32, 0x00001020#32, 0x0000307C#32, 0x0C#8⟩,
  ⟨"SW", 0x00002023#32, 0x0000707F#32, 0x00002020#32, 0x0000207C#32, 0x0C#8⟩]

/-- The rows of spec/opcode_table.json for OP-IMM (R101 to R109). -/
def opcodeRowsOpImm : List OpcodeRow := [
  ⟨"ADDI", 0x00000013#32, 0x0000707F#32, 0x00000010#32, 0x0000707C#32, 0x40#8⟩,
  ⟨"SLTI", 0x00002013#32, 0x0000707F#32, 0x00002010#32, 0x0000707C#32, 0x48#8⟩,
  ⟨"SLTIU", 0x00003013#32, 0x0000707F#32, 0x00003010#32, 0x0000707C#32, 0x4C#8⟩,
  ⟨"XORI", 0x00004013#32, 0x0000707F#32, 0x00004010#32, 0x0000707C#32, 0x50#8⟩,
  ⟨"ORI", 0x00006013#32, 0x0000707F#32, 0x00006010#32, 0x0000707C#32, 0x5C#8⟩,
  ⟨"ANDI", 0x00007013#32, 0x0000707F#32, 0x00007010#32, 0x0000707C#32, 0x60#8⟩,
  ⟨"SLLI", 0x00001013#32, 0xFE00707F#32, 0x00001010#32, 0x0000707C#32, 0x44#8⟩,
  ⟨"SRLI", 0x00005013#32, 0xFE00707F#32, 0x00005010#32, 0x4000707C#32, 0x54#8⟩,
  ⟨"SRAI", 0x40005013#32, 0xFE00707F#32, 0x40005010#32, 0x4000707C#32, 0x58#8⟩]

/-- The rows of spec/opcode_table.json for OP (R126 to R135). -/
def opcodeRowsOp : List OpcodeRow := [
  ⟨"ADD", 0x00000033#32, 0xFE00707F#32, 0x00000030#32, 0x4000707C#32, 0x64#8⟩,
  ⟨"SUB", 0x40000033#32, 0xFE00707F#32, 0x40000030#32, 0x4000707C#32, 0x68#8⟩,
  ⟨"SLL", 0x00001033#32, 0xFE00707F#32, 0x00001030#32, 0x0000707C#32, 0x6C#8⟩,
  ⟨"SLT", 0x00002033#32, 0xFE00707F#32, 0x00002030#32, 0x0000707C#32, 0x70#8⟩,
  ⟨"SLTU", 0x00003033#32, 0xFE00707F#32, 0x00003030#32, 0x0000707C#32, 0x74#8⟩,
  ⟨"XOR", 0x00004033#32, 0xFE00707F#32, 0x00004030#32, 0x0000707C#32, 0x78#8⟩,
  ⟨"SRL", 0x00005033#32, 0xFE00707F#32, 0x00005030#32, 0x4000707C#32, 0x7C#8⟩,
  ⟨"SRA", 0x40005033#32, 0xFE00707F#32, 0x40005030#32, 0x4000707C#32, 0x80#8⟩,
  ⟨"OR", 0x00006033#32, 0xFE00707F#32, 0x00006030#32, 0x0000707C#32, 0x84#8⟩,
  ⟨"AND", 0x00007033#32, 0xFE00707F#32, 0x00007030#32, 0x0000707C#32, 0x88#8⟩]

/-- The rows of spec/opcode_table.json for MISC-MEM and SYSTEM (R160 to R162). -/
def opcodeRowsSystem : List OpcodeRow := [
  ⟨"FENCE", 0x0000000F#32, 0x0000707F#32, 0x0000000C#32, 0x0000707C#32, 0x04#8⟩,
  ⟨"ECALL", 0x00000073#32, 0xFFFFFFFF#32, 0x00000070#32, 0x0010707C#32, 0x38#8⟩,
  ⟨"EBREAK", 0x00100073#32, 0xFFFFFFFF#32, 0x00100070#32, 0x0010707C#32, 0x3C#8⟩]

/-- The 40 rows of spec/opcode_table.json, in its order. -/
def opcodeTable : List OpcodeRow :=
  opcodeRowsUpper ++ opcodeRowsBranch ++ opcodeRowsMemory ++ opcodeRowsOpImm ++ opcodeRowsOp ++ opcodeRowsSystem

/-- `w` is the row's instruction in strict mode: `w & mask == match` (R81). -/
abbrev OpcodeRow.selects (r : OpcodeRow) (w : Word) : Prop := w &&& r.mask = r.matchBits

/-- `w` is the row's instruction in the control unit's decode: `w & cu_mask == cu_match` (R82). -/
abbrev OpcodeRow.cuSelects (r : OpcodeRow) (w : Word) : Prop := w &&& r.cuMask = r.cuMatch

end Sys2Proof
end

