-- ==== Sys2Proof/Machine/State.lean ====
section
/-! DEFINITION. The architectural state (R20 to R31 of 10_state.md), what a step can stop with (R231, R247 of 60_exceptions.md), and the state
after reset (R30, R260 to R262). All plain data. -/

namespace Sys2Proof.Machine

/-- Memory as the list of its bytes that differ from what an unlisted address reads as, addresses strictly rising (R28, D27). -/
abbrev Memory := List Host.Cell

/-- The state of the hart: registers, pc and memory are all a program can name (R20, R23, R28; R25 to R27 say what does not exist). -/
structure State where
  /-- `x0` to `x31`. Slot 0 is never read or written (`State.reg`, `State.setReg`), nor are slots 16 to 31 when NREGS = 16 (R20, R21). -/
  x : Vector Word 32
  /-- The address of the instruction being executed (R23). -/
  pc : Word
  /-- The 2^32 bytes of the address space (R28). -/
  mem : Memory
  /-- The hart waits for ever on a request nobody answers (R52, R247). Model's own field (log 7). -/
  hung : Bool
  /-- The implementation parameters (R5). Model's own field: no step writes it (log 5). -/
  cfg : Config
deriving DecidableEq, Repr

/-- The synchronous exceptions of R231 with the information each reports. -/
inductive Exception where
  /-- Code 0: a JAL, JALR or taken branch to `target`, not a multiple of 4, under FETCH_MISALIGNED = trap. -/
  | instructionAddressMisaligned (target : Word)
  /-- Code 2: the decoder rejects the word `inst`. -/
  | illegalInstruction (inst : Word)
  /-- Code 3: EBREAK at `pc`. -/
  | breakpoint (pc : Word)
  /-- Code 11: ECALL. -/
  | environmentCall
deriving DecidableEq, Repr

/-- Why the machine stops (R247). -/
inductive Fault where
  /-- `Trap(cause, pc, info)` (R232): raised by JAL, JALR, a taken branch, ECALL, EBREAK and the decoder. The state stays as it was before the
  instruction, so the reason carries none. Safe: the spec's own terminal event (log 6). -/
  | trap (cause : Exception) (pc : Word)
  /-- `Stuck` (R52, R247): raised by a fetch, load or store that nobody answers. `left` is the state the hart hangs in: unchanged, but for the first
  bus operation of a store whose second is not answered. Safe: a step from `left` is stuck again (log 7). -/
  | stuck (left : State)
deriving DecidableEq, Repr

/-- Why the model gives no meaning. -/
inductive Refusal where
  /-- Raised by `exec` for an instruction not modelled. Safe. No arm of this model answers it. -/
  | notModelled (mnemonic : String)
  /-- Raised by a fetch, load or store that reaches a device of MemMap at `address`: a device's behaviour is outside the spec (R59, D15). Safe (log 8). -/
  | deviceAccess (address : Word)
  /-- Raised by a fetch, under DECODE_MODE = cu_partial, of a word the source gives no instruction number (R82, R246). Safe (log 11). -/
  | noInstructionNumber (inst : Word)
deriving DecidableEq, Repr

/-- The state after power-on reset of a machine with parameters `c`, whose registers power up holding `x` and whose memory holds `mem` (R30,
R260 to R262): pc is RESET_PC, nothing else is written. Slot 0 of `x` is cleared so that it reads as x0 does. -/
def State.resetWith (c : Config) (x : Vector Word 32) (mem : Memory) : State where
  x := x.set 0 0#32
  pc := c.resetPc
  mem := mem
  hung := false
  cfg := c

/-- The machine right after reset with the default parameters. The spec gives x1 to x31 no value: 0 here (DESIGN CHOICE, log 2, unsafe); pc is
RESET_PC of `Config.default` (DESIGN CHOICE, log 1, unsafe); memory lists nothing (log 3). -/
def State.reset : State where
  x := Vector.replicate 32 0#32
  pc := Config.default.resetPc
  mem := []
  hung := false
  cfg := Config.default

end Sys2Proof.Machine
end

