-- ==== Sys2Proof/Machine/Ops.lean ====
section
/-! DEFINITION. The named operations over registers, memory and the bus, taking an exception, and reset. Every meaning goes through these
(20_memory.md R40 to R58, 10_state.md R20 to R24, 60_exceptions.md R231 to R247, 70_reset_and_hazards.md R260 to R262). -/

namespace Sys2Proof.Machine

/-- What an instruction or a step answers (R247). -/
abbrev Result := Host.Outcome State Fault Refusal

/-! ### Registers and pc -/

/-- `x[r]`: x0 reads 0 (R8, R20). -/
def State.reg (s : State) (r : RegNum) : Word := if r = 0#5 then 0#32 else s.x[r.toNat]'(by have := r.isLt; omega)

/-- `x[r] <- v`: writes to x0 are ignored (R8, R20). -/
def State.setReg (s : State) (r : RegNum) (v : Word) : State :=
  if r = 0#5 then s else { s with x := s.x.set r.toNat v (by have := r.isLt; omega) }

/-- `pc <- t`. -/
def State.setPc (s : State) (t : Word) : State := { s with pc := t }

/-- `pc <- pc + 4`, modulo 2^32 (R24). -/
def State.advance (s : State) : State := s.setPc (s.pc + 4#32)

/-- `x[rd] <- v` and `pc <- pc + 4`: how every instruction that only writes a register ends. -/
def State.writeBack (s : State) (rd : RegNum) (v : Word) : Result := .next ((s.setReg rd v).advance)

/-! ### Memory as bytes (R28, R43, R44, D27) -/

/-- What an address that memory does not list reads as. The spec gives memory no contents at reset (R30): DESIGN CHOICE (log 3, unsafe). -/
def unlistedByte : Byte := 0x00#8

/-- The byte at address `a`. -/
def Memory.byteAt : Memory → Nat → Byte
  | [], _ => unlistedByte
  | (b, v) :: rest, a => if b = a then v else Memory.byteAt rest a

/-- Memory with the byte at `a` set to `v`, in canonical form: addresses strictly rising, nothing listed that reads as unlisted. -/
def Memory.setByte : Memory → Nat → Byte → Memory
  | [], a, v => if v = unlistedByte then [] else [(a, v)]
  | (b, w) :: rest, a, v =>
    if a < b then (if v = unlistedByte then (b, w) :: rest else (a, v) :: (b, w) :: rest)
    else if a = b then (if v = unlistedByte then rest else (a, v) :: rest)
    else (b, w) :: Memory.setByte rest a v

/-- The canonical form from address `lo` on. -/
def Memory.wfFrom : Nat → Memory → Bool
  | _, [] => true
  | lo, (a, v) :: rest => decide (lo ≤ a) && decide (a < 2 ^ 32) && decide (v ≠ unlistedByte) && Memory.wfFrom (a + 1) rest

/-- The canonical form: strictly rising addresses below 2^32, no byte equal to the unlisted one. -/
def Memory.wf (m : Memory) : Bool := Memory.wfFrom 0 m

/-- Memory with each listed address set to its byte, in order. -/
def Memory.setBytes (m : Memory) (cells : List (Word × Byte)) : Memory := cells.foldl (fun m c => m.setByte c.1.toNat c.2) m

/-- The byte of the machine's memory at address `a`. -/
def State.byte (s : State) (a : Word) : Byte := s.mem.byteAt a.toNat

/-! ### The bus: one request is one or two operations (R46, R47) -/

/-- What a memory request answers. -/
inductive Reply (α : Type) where
  /-- The request completed. -/
  | ok (v : α)
  /-- An operation was not answered: the hart hangs in `left` (R52). -/
  | stuck (left : State)
  /-- An operation reached the device at `address` (D15). -/
  | device (address : Word)
deriving DecidableEq, Repr

/-- First this request, then, if it completed, the next. -/
def Reply.bind {α β : Type} (r : Reply α) (k : α → Reply β) : Reply β :=
  match r with
  | .ok v => k v
  | .stuck left => .stuck left
  | .device a => .device a

/-- What a completed or failed request makes of the instruction. -/
def Reply.toResult {α : Type} (r : Reply α) (k : α → Result) : Result :=
  match r with
  | .ok v => k v
  | .stuck left => .fault (.stuck left)
  | .device a => .refused (.deviceAccess a)

/-- The byte addresses of an access of `n` bytes at `a`: `(a + i) mod 2^32` (R43, R44, R58). -/
def accessAddrs (a : Word) (n : Nat) : List Word := (List.range n).map fun i => a + BitVec.ofNat 32 i

/-- How many bytes of an access of `n` bytes at `a` lie in the aligned word of `a`: those of the first bus operation (R46). -/
def firstOpBytes (a : Word) (n : Nat) : Nat := min n (4 - (a.extractLsb' 0 2).toNat)

/-- Who answers one bus operation on the bytes at the given addresses. -/
inductive Answer where
  | memory
  | device (address : Word)
  | nobody
deriving DecidableEq, Repr

/-- An operation is answered as memory when each of its bytes is memory; one byte that nobody answers leaves it unanswered; otherwise a
device byte makes it a device access (R51, R52; log 9). -/
def busAnswer (m : MemMap) : List Word → Answer
  | [] => .memory
  | a :: rest =>
    match m.kindAt a.toNat, busAnswer m rest with
    | none, _ => .nobody
    | some _, .nobody => .nobody
    | some .device, _ => .device a
    | some .memory, r => r

/-- The hart waits for an answer that never comes (R52, R247). -/
def State.hang (s : State) : State := { s with hung := true }

/-- One read operation on the bytes at `as` (R50). -/
def State.busRead (s : State) (as : List Word) : Reply (List Byte) :=
  match busAnswer s.cfg.memMap as with
  | .memory => .ok (as.map s.byte)
  | .device a => .device a
  | .nobody => .stuck s.hang

/-- One write operation of the bytes `cells` (R44: no other byte changes). -/
def State.busWrite (s : State) (cells : List (Word × Byte)) : Reply State :=
  match busAnswer s.cfg.memMap (cells.map Prod.fst) with
  | .memory => .ok { s with mem := s.mem.setBytes cells }
  | .device a => .device a
  | .nobody => .stuck s.hang

/-- `MemRead(a, n)`, zero-extended to 32 bits: little-endian, any alignment, the lower word's operation first (R43, R46, R47, D24). -/
def State.memRead (s : State) (a : Word) (n : Nat) : Reply Word :=
  (s.busRead ((accessAddrs a n).take (firstOpBytes a n))).bind fun lo =>
    (s.busRead ((accessAddrs a n).drop (firstOpBytes a n))).bind fun hi => .ok (leWord (lo ++ hi))

/-- The bytes `MemWrite(a, n, v)` writes: byte `i` of `v` at `(a + i) mod 2^32` (R44). -/
def storeCells (a : Word) (n : Nat) (v : Word) : List (Word × Byte) := (accessAddrs a n).zip (leBytes n v)

/-- `MemWrite(a, n, v)`: little-endian, any alignment; the first operation has written its bytes when the second is not answered
(R44, R46, R47, R247). -/
def State.memWrite (s : State) (a : Word) (n : Nat) (v : Word) : Reply State :=
  (s.busWrite ((storeCells a n v).take (firstOpBytes a n))).bind fun s1 =>
    s1.busWrite ((storeCells a n v).drop (firstOpBytes a n))

/-- The fetch: `inst = MemRead(pc, 4)` (R9, R42). A pc that is not a multiple of 4 is read as any unaligned word is (R48; log 12). -/
def State.fetch (s : State) : Reply Word := s.memRead s.pc 4

/-- Every byte of an access of `n` bytes at `a` is memory: when a load, store or fetch completes. -/
abbrev State.answersMemory (s : State) (a : Word) (n : Nat) : Prop := ∀ b ∈ accessAddrs a n, s.cfg.memMap.kindAt b.toNat = some .memory

/-! ### Taking an exception, and what follows (R231 to R238) -/

/-- The code of R231 (the RISC-V cause numbers; not observable on this hart, G12). -/
def Exception.code : Exception → Nat
  | .instructionAddressMisaligned _ => 0
  | .illegalInstruction _ => 2
  | .breakpoint _ => 3
  | .environmentCall => 11

/-- `raise`: the instruction makes none of its writes and the step returns `Trap(cause, pc, info)`; there is no handler to enter and no register
to save into (R232, R237). -/
def State.raise (s : State) (e : Exception) : Result := .fault (.trap e s.pc)

/-- What stands in for a return: the host, acting from outside, lets the hart step again at `pc` (R232, R238). No instruction does this. -/
def State.resumeAt (s : State) (pc : Word) : State := s.setPc pc

/-- `pc <- target` after the writes that made `t` from `s`; a target that is not a multiple of 4 raises `InstructionAddressMisaligned` under
FETCH_MISALIGNED = trap, with none of those writes (R48, R140, R145, D7). -/
def State.transfer (s : State) (target : Word) (t : State) : Result :=
  if s.cfg.fetchMisaligned = .trap ∧ target.extractLsb' 0 2 ≠ 0#2 then s.raise (.instructionAddressMisaligned target)
  else .next (t.setPc target)

/-! ### Reset while running (R260 to R262) -/

/-- The reset input: pc goes to RESET_PC, the bus is idle again, registers keep what they held and memory is not touched (R261). -/
def State.rst (s : State) : State := { s with pc := s.cfg.resetPc, hung := false }

/-- A reset during a store of `n` bytes of `v` at `a`, of which `landed` bus operations had completed: 0, 1, or all (R262, U22). Which, the spec
leaves open, so it is an argument. MemMap is not consulted: for a store whose bytes are not all memory, what a device or nobody does with a landed operation is open
too, and here its bytes go into `mem` (DESIGN CHOICE, log 16). -/
def State.resetDuringStore (s : State) (landed : Nat) (a : Word) (n : Nat) (v : Word) : State :=
  let cells := storeCells a n v
  let done := if landed = 0 then [] else if landed = 1 then cells.take (firstOpBytes a n) else cells
  State.rst { s with mem := s.mem.setBytes done }

end Sys2Proof.Machine
end

