-- ==== Sys2Proof/Machine/Operands.lean ====
section
/-! DEFINITION. The operand forms: the five immediates (R73 to R77), the shift amount (R78), the effective address (R110, R155) and the extension
of loaded data (R8, R211). -/

namespace Sys2Proof.Machine

/-- `immI = sext_12(inst[31:20])` (R73). -/
def immI (imm : BitVec 12) : Word := imm.signExtend 32
/-- `immS = sext_12(inst[31:25] ++ inst[11:7])` (R74). -/
def immS (imm : BitVec 12) : Word := imm.signExtend 32
/-- `immB = sext_13(...)` (R75). -/
def immB (off : BitVec 13) : Word := off.signExtend 32
/-- `immU = inst[31:12] ++ 0x000` (R76). -/
def immU (imm20 : BitVec 20) : Word := imm20 ++ 0x000#12
/-- `immJ = sext_21(...)` (R77). -/
def immJ (off : BitVec 21) : Word := off.signExtend 32

/-- The shift amount of the register shifts: `x[rs2][4:0]`, bits 31:5 ignored (R78). -/
def shamtOf (v : Word) : BitVec 5 := v.extractLsb' 0 5

/-- Base register plus sign-extended displacement, modulo 2^32 (R110, R155). -/
def State.effAddr (s : State) (rs1 : RegNum) (imm : Word) : Word := s.reg rs1 + imm

/-- `sext_8(v)` (R8, R111). -/
def sext8 (v : Word) : Word := (v.extractLsb' 0 8).signExtend 32
/-- `sext_16(v)` (R8, R112). -/
def sext16 (v : Word) : Word := (v.extractLsb' 0 16).signExtend 32
/-- `zext_8(v)` (R8, R114). -/
def zext8 (v : Word) : Word := (v.extractLsb' 0 8).setWidth 32
/-- `zext_16(v)` (R8, R115). -/
def zext16 (v : Word) : Word := (v.extractLsb' 0 16).setWidth 32

end Sys2Proof.Machine
end

