-- ==== Sys2Proof/Machine/Flags.lean ====
section
/-! DEFINITION. The ALU's flags Z, N, C by role (R175, C4), the comparisons and shifts computed with them, shared by the register and the
immediate forms (R125: "the same ALU operation"). The flags are wires within one instruction, not state (R25). -/

namespace Sys2Proof.Machine

/-- The three flags of R175. -/
structure AluFlags where
  /-- EQflag. -/
  z : Bool
  /-- LTflag: signed less-than. -/
  n : Bool
  /-- LTUflag: unsigned less-than. -/
  c : Bool
deriving DecidableEq, Repr

/-- Z, N and C of two operands: exact comparisons of the readings, not signs of a difference (R175, C4). -/
def flagsOf (op1 op2 : Word) : AluFlags where
  z := decide (op1 = op2)
  n := decide (op1.toInt < op2.toInt)
  c := decide (op1.toNat < op2.toNat)

/-- A 0 or 1 result zero-extended to 32 bits (R102, R172). -/
def boolWord (b : Bool) : Word := if b then 1#32 else 0#32

/-- Set if less than, signed (R102, R127). -/
def setLess (op1 op2 : Word) : Word := boolWord (flagsOf op1 op2).n
/-- Set if less than, unsigned (R103, R128). -/
def setLessU (op1 op2 : Word) : Word := boolWord (flagsOf op1 op2).c

/-- `<<`: zeros enter at bit 0 (R7, R107, R132). -/
def shiftLeft (v : Word) (sh : BitVec 5) : Word := v <<< sh.toNat
/-- `>>`: zeros enter at bit 31 (R7, R108, R133). -/
def shiftRight (v : Word) (sh : BitVec 5) : Word := v >>> sh.toNat
/-- `>>*`: copies of bit 31 enter (R7, R109, R134). -/
def shiftRightArith (v : Word) (sh : BitVec 5) : Word := v.sshiftRight sh.toNat

end Sys2Proof.Machine
end

