-- ==== Sys2Proof/Machine/Branch.lean ====
section
/-! DEFINITION. Conditional branches (45_branch.md, R145 to R152), decided by the flags of R152. -/

namespace Sys2Proof.Machine

/-- The common course of a branch (R145): the target is formed only if the branch is taken, so one not taken never raises. -/
def State.branch (s : State) (taken : Bool) (offset : BitVec 13) : Result :=
  if taken then s.transfer (s.pc + immB offset) s else .next s.advance

/-- BEQ (R146). -/
def execBeq (rs1 rs2 : RegNum) (offset : BitVec 13) (s : State) : Result :=
  s.branch ((flagsOf (s.reg rs1) (s.reg rs2)).z) offset

/-- BNE (R147). -/
def execBne (rs1 rs2 : RegNum) (offset : BitVec 13) (s : State) : Result :=
  s.branch (!(flagsOf (s.reg rs1) (s.reg rs2)).z) offset

/-- BLT (R148). -/
def execBlt (rs1 rs2 : RegNum) (offset : BitVec 13) (s : State) : Result :=
  s.branch ((flagsOf (s.reg rs1) (s.reg rs2)).n) offset

/-- BGE (R149). -/
def execBge (rs1 rs2 : RegNum) (offset : BitVec 13) (s : State) : Result :=
  s.branch (!(flagsOf (s.reg rs1) (s.reg rs2)).n) offset

/-- BLTU (R150). -/
def execBltu (rs1 rs2 : RegNum) (offset : BitVec 13) (s : State) : Result :=
  s.branch ((flagsOf (s.reg rs1) (s.reg rs2)).c) offset

/-- BGEU (R151). -/
def execBgeu (rs1 rs2 : RegNum) (offset : BitVec 13) (s : State) : Result :=
  s.branch (!(flagsOf (s.reg rs1) (s.reg rs2)).c) offset


end Sys2Proof.Machine
end

