-- ==== Sys2Proof/Machine/Jump.lean ====
section
/-! DEFINITION. Unconditional jumps (44_jump.md, R140 to R142). The link value is pc + 4, the base of a target the jump's own address (C1). -/

namespace Sys2Proof.Machine

/-- The target of JALR: the sum modulo 2^32 with bit 0 cleared (R141). -/
def jalrTarget (base imm : Word) : Word := (base + imm) &&& 0xFFFFFFFE#32

/-- JALR (R141): the target is computed from the old `x[rs1]`. -/
def execJalr (rd rs1 : RegNum) (imm : BitVec 12) (s : State) : Result :=
  s.transfer (jalrTarget (s.reg rs1) (immI imm)) (s.setReg rd (s.pc + 4#32))

/-- JAL (R142). -/
def execJal (rd : RegNum) (offset : BitVec 21) (s : State) : Result :=
  s.transfer (s.pc + immJ offset) (s.setReg rd (s.pc + 4#32))


end Sys2Proof.Machine
end

