-- ==== Sys2Proof/Machine/Load.lean ====
section
/-! DEFINITION. Loads (41_load.md, R110 to R116). -/

namespace Sys2Proof.Machine

/-- The common course of a load (R110): address, read of `n` bytes, extension, write of rd, `pc + 4`. The read happens whatever rd is. -/
def State.load (s : State) (rd rs1 : RegNum) (imm : BitVec 12) (n : Nat) (extend : Word → Word) : Result :=
  (s.memRead (s.effAddr rs1 (immI imm)) n).toResult fun v => s.writeBack rd (extend v)

/-- LB (R111): byte, sign-extended. -/
def execLb (rd rs1 : RegNum) (imm : BitVec 12) (s : State) : Result := s.load rd rs1 imm 1 sext8

/-- LH (R112): halfword, sign-extended. -/
def execLh (rd rs1 : RegNum) (imm : BitVec 12) (s : State) : Result := s.load rd rs1 imm 2 sext16

/-- LW (R113): word, no extension. -/
def execLw (rd rs1 : RegNum) (imm : BitVec 12) (s : State) : Result := s.load rd rs1 imm 4 id

/-- LBU (R114): byte, zero-extended. -/
def execLbu (rd rs1 : RegNum) (imm : BitVec 12) (s : State) : Result := s.load rd rs1 imm 1 zext8

/-- LHU (R115): halfword, zero-extended. -/
def execLhu (rd rs1 : RegNum) (imm : BitVec 12) (s : State) : Result := s.load rd rs1 imm 2 zext16


end Sys2Proof.Machine
end

