-- ==== Sys2Proof/Machine/MiscSystem.lean ====
section
/-! DEFINITION. FENCE, ECALL and EBREAK (47_misc_system.md, R160 to R164). -/

namespace Sys2Proof.Machine

/-- FENCE (R160): a no-operation; the fields are ignored (R55, R91). -/
def execFence (_fm _pred _succ : BitVec 4) (_rs1 _rd : RegNum) (s : State) : Result := .next s.advance

/-- ECALL (R161): raises `EnvironmentCall`. -/
def execEcall (s : State) : Result := s.raise .environmentCall

/-- EBREAK (R162): raises `Breakpoint(pc)`. -/
def execEbreak (s : State) : Result := s.raise (.breakpoint s.pc)


end Sys2Proof.Machine
end

