-- ==== Sys2Proof/Machine/OpImm.lean ====
section
/-! DEFINITION. Register-immediate arithmetic (40_op_imm.md, R100 to R109). A hint is one of these with rd = x0 (R84). -/

namespace Sys2Proof.Machine

/-- ADDI (R101). -/
def execAddi (rd rs1 : RegNum) (imm : BitVec 12) (s : State) : Result := s.writeBack rd (s.reg rs1 + immI imm)

/-- SLTI (R102). -/
def execSlti (rd rs1 : RegNum) (imm : BitVec 12) (s : State) : Result := s.writeBack rd (setLess (s.reg rs1) (immI imm))

/-- SLTIU (R103): the immediate is sign-extended, then read as unsigned. -/
def execSltiu (rd rs1 : RegNum) (imm : BitVec 12) (s : State) : Result := s.writeBack rd (setLessU (s.reg rs1) (immI imm))

/-- ANDI (R104). -/
def execAndi (rd rs1 : RegNum) (imm : BitVec 12) (s : State) : Result := s.writeBack rd (s.reg rs1 &&& immI imm)

/-- ORI (R105). -/
def execOri (rd rs1 : RegNum) (imm : BitVec 12) (s : State) : Result := s.writeBack rd (s.reg rs1 ||| immI imm)

/-- XORI (R106). -/
def execXori (rd rs1 : RegNum) (imm : BitVec 12) (s : State) : Result := s.writeBack rd (s.reg rs1 ^^^ immI imm)

/-- SLLI (R107). -/
def execSlli (rd rs1 : RegNum) (shamt : BitVec 5) (s : State) : Result := s.writeBack rd (shiftLeft (s.reg rs1) shamt)

/-- SRLI (R108). -/
def execSrli (rd rs1 : RegNum) (shamt : BitVec 5) (s : State) : Result := s.writeBack rd (shiftRight (s.reg rs1) shamt)

/-- SRAI (R109). -/
def execSrai (rd rs1 : RegNum) (shamt : BitVec 5) (s : State) : Result := s.writeBack rd (shiftRightArith (s.reg rs1) shamt)


end Sys2Proof.Machine
end

