-- ==== Sys2Proof/Machine/OpReg.lean ====
section
/-! DEFINITION. Register-register arithmetic (43_op.md, R125 to R135). -/

namespace Sys2Proof.Machine

/-- ADD (R126). -/
def execAdd (rd rs1 rs2 : RegNum) (s : State) : Result := s.writeBack rd (s.reg rs1 + s.reg rs2)

/-- SLT (R127). -/
def execSlt (rd rs1 rs2 : RegNum) (s : State) : Result := s.writeBack rd (setLess (s.reg rs1) (s.reg rs2))

/-- SLTU (R128). -/
def execSltu (rd rs1 rs2 : RegNum) (s : State) : Result := s.writeBack rd (setLessU (s.reg rs1) (s.reg rs2))

/-- AND (R129). -/
def execAnd (rd rs1 rs2 : RegNum) (s : State) : Result := s.writeBack rd (s.reg rs1 &&& s.reg rs2)

/-- OR (R130). -/
def execOr (rd rs1 rs2 : RegNum) (s : State) : Result := s.writeBack rd (s.reg rs1 ||| s.reg rs2)

/-- XOR (R131). -/
def execXor (rd rs1 rs2 : RegNum) (s : State) : Result := s.writeBack rd (s.reg rs1 ^^^ s.reg rs2)

/-- SLL (R132). -/
def execSll (rd rs1 rs2 : RegNum) (s : State) : Result := s.writeBack rd (shiftLeft (s.reg rs1) (shamtOf (s.reg rs2)))

/-- SRL (R133). -/
def execSrl (rd rs1 rs2 : RegNum) (s : State) : Result := s.writeBack rd (shiftRight (s.reg rs1) (shamtOf (s.reg rs2)))

/-- SRA (R134). -/
def execSra (rd rs1 rs2 : RegNum) (s : State) : Result := s.writeBack rd (shiftRightArith (s.reg rs1) (shamtOf (s.reg rs2)))

/-- SUB (R135). -/
def execSub (rd rs1 rs2 : RegNum) (s : State) : Result := s.writeBack rd (s.reg rs1 - s.reg rs2)


end Sys2Proof.Machine
end

