-- ==== Sys2Proof/Machine/Store.lean ====
section
/-! DEFINITION. Stores (46_store.md, R155 to R159). -/

namespace Sys2Proof.Machine

/-- The common course of a store (R155): address, write of the low `n` bytes of `x[rs2]`, `pc + 4`. -/
def State.store (s : State) (rs2 rs1 : RegNum) (imm : BitVec 12) (n : Nat) : Result :=
  (s.memWrite (s.effAddr rs1 (immS imm)) n (s.reg rs2)).toResult fun t => .next t.advance

/-- SB (R156). -/
def execSb (rs2 rs1 : RegNum) (imm : BitVec 12) (s : State) : Result := s.store rs2 rs1 imm 1

/-- SH (R157). -/
def execSh (rs2 rs1 : RegNum) (imm : BitVec 12) (s : State) : Result := s.store rs2 rs1 imm 2

/-- SW (R158). -/
def execSw (rs2 rs1 : RegNum) (imm : BitVec 12) (s : State) : Result := s.store rs2 rs1 imm 4


end Sys2Proof.Machine
end

