-- ==== Sys2Proof/Machine/UpperImm.lean ====
section
/-! DEFINITION. LUI and AUIPC (42_upper_imm.md, R120 to R122). -/

namespace Sys2Proof.Machine

/-- LUI (R121). -/
def execLui (rd : RegNum) (imm20 : BitVec 20) (s : State) : Result := s.writeBack rd (immU imm20)

/-- AUIPC (R122): pc is the address of the AUIPC itself (C1). -/
def execAuipc (rd : RegNum) (imm20 : BitVec 20) (s : State) : Result := s.writeBack rd (s.pc + immU imm20)


end Sys2Proof.Machine
end

