-- ==== Sys2Proof/Machine/Execute.lean ====
section
/-! DEFINITION. Decoding and executing a fetched word (R9, R83, R89, R234). -/

namespace Sys2Proof.Machine

/-- What the hart does with the word it has fetched at pc: it runs the instruction the word encodes; an illegal word raises
`IllegalInstruction` (R83); a word without instruction number is refused, under cu_partial only (R82, R246). -/
def State.run (s : State) (w : Word) : Result :=
  match decode s.cfg.regCount s.cfg.decodeMode w with
  | .instr i => exec i s
  | .illegal => s.raise (.illegalInstruction w)
  | .noInstructionNumber => .refused (.noInstructionNumber w)

end Sys2Proof.Machine
end

