-- ==== Sys2Proof/Machine/Step.lean ====
section
/-! DEFINITION. One step of the hart: fetch, decode, execute (R9, R234, R247). -/

namespace Sys2Proof.Machine

/-- One step (R9). A hart that hangs stays stuck (R247). The fetch is `MemRead(pc, 4)` (R42); a word that is no instruction raises
`IllegalInstruction` with the word (R83); under cu_partial a word without instruction number is refused (R82). -/
def step (s : State) : Host.Outcome State Fault Refusal :=
  if s.hung then .fault (.stuck s)
  else s.fetch.toResult fun w => s.run w

/-- `s` with the instruction of table bits `w` stored in memory where the next step fetches: the four bytes at pc, and the bus idle. The host's loading of a
program from outside (D26) is what this stands for (log 14). -/
def State.withFetchWord (s : State) (nbits w : Nat) : State :=
  { s with mem := s.mem.setBytes (storeCells s.pc 4 (BitVec.ofNat 32 (w % 2 ^ nbits))), hung := false }

end Sys2Proof.Machine
end

