-- ==== Sys2Proof/Machine/ControlUnit.lean ====
section
/-! DEFINITION. The control unit of 50_datapath_control.md: the instruction number (R188), the ROM as far as the source gives it (R190 to R195), the address
counter and its bypass (R189, R196). Informative in the spec: no instruction meaning uses this file. -/

namespace Sys2Proof.Machine

/-- The instruction number (R188), from `inst[6:2]`, funct3, `inst[30]` and `inst[20]`; `none` where the source's table has no row. -/
def inumOf (w : Word) : Option (BitVec 8) :=
  (majorOf (opcode62Of w)).bind fun m =>
    match m, funct3Of w with
    | .miscMem, 0b000#3 => some 0x04#8
    | .load, _ => some 0x08#8
    | .store, _ => some 0x0C#8
    | .auipc, _ => some 0x10#8
    | .lui, _ => some 0x14#8
    | .jalr, _ => some 0x18#8
    | .jal, _ => some 0x1C#8
    | .branch, 0b000#3 => some 0x20#8
    | .branch, 0b001#3 => some 0x24#8
    | .branch, 0b100#3 => some 0x28#8
    | .branch, 0b101#3 => some 0x2C#8
    | .branch, 0b110#3 => some 0x30#8
    | .branch, 0b111#3 => some 0x34#8
    | .system, 0b000#3 => some (if w.getLsbD 20 then 0x3C#8 else 0x38#8)
    | .opImm, 0b000#3 => some 0x40#8
    | .opImm, 0b001#3 => some 0x44#8
    | .opImm, 0b010#3 => some 0x48#8
    | .opImm, 0b011#3 => some 0x4C#8
    | .opImm, 0b100#3 => some 0x50#8
    | .opImm, 0b101#3 => some (if w.getLsbD 30 then 0x58#8 else 0x54#8)
    | .opImm, 0b110#3 => some 0x5C#8
    | .opImm, _ => some 0x60#8
    | .op, 0b000#3 => some (if w.getLsbD 30 then 0x68#8 else 0x64#8)
    | .op, 0b001#3 => some 0x6C#8
    | .op, 0b010#3 => some 0x70#8
    | .op, 0b011#3 => some 0x74#8
    | .op, 0b100#3 => some 0x78#8
    | .op, 0b101#3 => some (if w.getLsbD 30 then 0x80#8 else 0x7C#8)
    | .op, 0b110#3 => some 0x84#8
    | .op, _ => some 0x88#8
    | .custom0, f => some (0x90#8 + (f.setWidth 8 <<< 2))
    | .custom1, _ => some 0xB0#8
    | .custom2, _ => some 0xC0#8
    | .custom3, _ => some 0xD0#8
    | _, _ => none

/-! ### The ROM -/

/-- A word of the ROM: 32 control bits (R192). -/
abbrev RomWord := BitVec 32

/-- EOI, End-Of-Instruction (R192, bit 31). -/
def romEOI (r : RomWord) : Bool := r.getLsbD 31
/-- EOF, End-Of-Fetch (bit 30). -/
def romEOF (r : RomWord) : Bool := r.getLsbD 30
/-- sel1PC (bit 21). -/
def romSel1PC (r : RomWord) : Bool := r.getLsbD 21
/-- sel2PC (bit 20). -/
def romSel2PC (r : RomWord) : Bool := r.getLsbD 20
/-- JB (bit 19). -/
def romJB (r : RomWord) : Bool := r.getLsbD 19
/-- XN (bit 18). -/
def romXN (r : RomWord) : Bool := r.getLsbD 18
/-- XZ (bit 17). -/
def romXZ (r : RomWord) : Bool := r.getLsbD 17
/-- XF (bit 16). -/
def romXF (r : RomWord) : Bool := r.getLsbD 16
/-- sel1ALU (bit 14). -/
def romSel1ALU (r : RomWord) : BitVec 1 := r.extractLsb' 14 1
/-- sel2ALU (bits 13:12). -/
def romSel2ALU (r : RomWord) : BitVec 2 := r.extractLsb' 12 2
/-- selopALU (bits 11:8); 0000 is "+". -/
def romSelop (r : RomWord) : BitVec 4 := r.extractLsb' 8 4
/-- wRD (bit 7). -/
def romWRD (r : RomWord) : Bool := r.getLsbD 7
/-- selRD (bit 6). -/
def romSelRD (r : RomWord) : Bool := r.getLsbD 6
/-- iPC (bit 5). -/
def romIPC (r : RomWord) : Bool := r.getLsbD 5
/-- wIR (bit 4). -/
def romWIR (r : RomWord) : Bool := r.getLsbD 4
/-- WR (bit 3). -/
def romWR (r : RomWord) : Bool := r.getLsbD 3
/-- RD (bit 2). -/
def romRD (r : RomWord) : Bool := r.getLsbD 2
/-- IDMEM (bit 1). -/
def romIDMEM (r : RomWord) : Bool := r.getLsbD 1
/-- waitMEM (bit 0). -/
def romWaitMEM (r : RomWord) : Bool := r.getLsbD 0

/-- The ROM's contents: the fetch phase (R190), FENCE (R191), LOAD (R193) and STORE (R194); the rest is not in the source (R195). -/
def rom : BitVec 8 → Option RomWord
  | 0x00#8 => some 0x00000006#32
  | 0x01#8 => some 0x40000011#32
  | 0x02#8 => some 0x80000000#32
  | 0x03#8 => some 0x80000000#32
  | 0x04#8 => some 0x80000000#32
  | 0x05#8 => some 0x80000000#32
  | 0x06#8 => some 0x80000000#32
  | 0x07#8 => some 0x80000000#32
  | 0x08#8 => some 0x00000000#32
  | 0x09#8 => some 0x00001004#32
  | 0x0A#8 => some 0x00000001#32
  | 0x0B#8 => some 0x800000C0#32
  | 0x0C#8 => some 0x00000000#32
  | 0x0D#8 => some 0x00003008#32
  | 0x0E#8 => some 0x80000001#32
  | 0x0F#8 => some 0x80000000#32
  | _ => none

/-! ### The address counter -/

/-- The address counter's output uCYCLE and the word the synchronous ROM puts out (R185, R189). -/
structure ControlUnit where
  uCycle : BitVec 8
  rom : RomWord
deriving DecidableEq, Repr

/-- Held in reset: the address counter is 0x00 (R189, R261) and no control signal is active, so that nothing is requested before reset is released (R266). What the
synchronous ROM puts out while reset is held is not stated otherwise (DESIGN CHOICE, log 19). -/
def ControlUnit.reset : ControlUnit where
  uCycle := 0x00#8
  rom := 0x00000000#32

/-- The first cycle after reset, the first of a fetch (R30): the clock edge at which reset is released finds the counter at 0x00, the ROM delivers its position 0x00
(R262), and the counter counts up (R189), which leaves them as an EOI does (R196, Example 1). It is `ControlUnit.reset` after one `ControlUnit.tick`. -/
def ControlUnit.released : ControlUnit where
  uCycle := 0x01#8
  rom := 0x00000006#32

/-- The counter, and with it the ROM, is enabled if no memory operation is waited for or it ends in this cycle (R189, R196). -/
def ControlUnit.enable (cu : ControlUnit) (membusy : Bool) : Bool := !romWaitMEM cu.rom || !membusy

/-- uADDR, past the bypass multiplexers: 0x00 when EOI, INUM when EOF, uCYCLE otherwise (R196). -/
def ControlUnit.uAddr (cu : ControlUnit) (inum : BitVec 8) : BitVec 8 :=
  if romEOI cu.rom then 0x00#8 else if romEOF cu.rom then inum else cu.uCycle

/-- The address counter after an enabled clock edge: 0x01 when EOI, INUM + 1 when EOF, else one more (R189). -/
def ControlUnit.nextCount (cu : ControlUnit) (inum : BitVec 8) : BitVec 8 :=
  if romEOI cu.rom then 0x01#8 else if romEOF cu.rom then inum + 1#8 else cu.uCycle + 1#8

/-- One clock edge: counter and ROM move in unison or hold (R196). `none` where the next ROM word, or the instruction number an EOF needs, is not in the source. -/
def ControlUnit.tick (cu : ControlUnit) (inum : Option (BitVec 8)) (membusy : Bool) : Option ControlUnit :=
  if cu.enable membusy then
    match (if romEOF cu.rom && !romEOI cu.rom then inum else some 0x00#8) with
    | none => none
    | some n => (Sys2Proof.Machine.rom (cu.uAddr n)).map fun w => { uCycle := cu.nextCount n, rom := w }
  else some cu

/-- One clock edge with the low-level reset input `rst` (R187): held in reset while it is 0. An edge that finds it 1 after 0 releases the reset: the cycle it ends
belongs to the reset and the one it begins is the first after it (the alignment of release and clock is not stated, R260: DESIGN CHOICE, log 19). -/
def ControlUnit.clocked (cu : ControlUnit) (rst : Bool) (inum : Option (BitVec 8)) (membusy : Bool) : Option ControlUnit :=
  if rst then cu.tick inum membusy else some ControlUnit.reset

end Sys2Proof.Machine
end

