-- ==== Sys2Proof/Machine/Datapath.lean ====
section
/-! DEFINITION. The datapath of 50_datapath_control.md: the ALU with its operand multiplexers (R176 to R179, selop Alternative 2), the target adder
(R180 to R182) and the write-to-PC logic (R183). Informative in the spec (R170): no instruction meaning uses this file. The statements about it say
that it gives the results of files 40 to 47. -/

namespace Sys2Proof.Machine

/-! ### The ALU -/

/-- mux1ALU (R176). -/
inductive Mux1Alu where
  | rs1
  | pc
deriving DecidableEq, Repr

/-- mux2ALU with the four inputs of C6 (R177). -/
inductive Mux2Alu where
  | rs2
  | immI
  | immU
  | immS
deriving DecidableEq, Repr

/-- sel1ALU (R176): 0 selects rs1, 1 selects PC. -/
def Mux1Alu.code : Mux1Alu → BitVec 1
  | .rs1 => 0#1
  | .pc => 1#1

/-- sel2ALU (R177, C6): rs2 is 0, the I-immediate 1, the U-immediate 2, the S-immediate 3. -/
def Mux2Alu.code : Mux2Alu → BitVec 2
  | .rs2 => 0#2
  | .immI => 1#2
  | .immU => 2#2
  | .immS => 3#2

/-- The mux1ALU input a sel1ALU value selects (R176). -/
def Mux1Alu.ofCode (b : BitVec 1) : Mux1Alu := if b = 0#1 then .rs1 else .pc

/-- The mux2ALU input a sel2ALU value selects (R177, C6). -/
def Mux2Alu.ofCode (b : BitVec 2) : Mux2Alu :=
  match b with
  | 0#2 => .rs2
  | 1#2 => .immI
  | 2#2 => .immU
  | _ => .immS

/-- The operation a value of the ALU input selop selects (R173): 0000 is "+", the other codes are a free value, so that any alternative of R178
may be the ALU's (U17). -/
def selOpOf (code : BitVec 4) : SelOp := if code = 0b0000#4 then .add else Config.selOpElse code

/-- What the "res" column of R179 says of the 32-bit result. -/
inductive ResKind where
  /-- "same as operation". -/
  | operation
  /-- "0 or 1 (32-bit)": the comparison outcome of R172. -/
  | comparison
  /-- "-": no result is used, only a flag. -/
  | unused
deriving DecidableEq, Repr

/-- A row of R179. -/
structure AluRow where
  mux1 : Mux1Alu
  mux2 : Mux2Alu
  selop : SelOp
  res : ResKind
deriving DecidableEq, Repr

/-- The table of R179; FENCE, ECALL and EBREAK have no row. -/
def aluRow : Instr → Option AluRow
  | .addi .. => some ⟨.rs1, .immI, .add, .operation⟩
  | .slti .. => some ⟨.rs1, .immI, .subSigned, .comparison⟩
  | .sltiu .. => some ⟨.rs1, .immI, .subUnsigned, .comparison⟩
  | .andi .. => some ⟨.rs1, .immI, .and, .operation⟩
  | .ori .. => some ⟨.rs1, .immI, .or, .operation⟩
  | .xori .. => some ⟨.rs1, .immI, .xor, .operation⟩
  | .slli .. => some ⟨.rs1, .immI, .sll, .operation⟩
  | .srli .. => some ⟨.rs1, .immI, .srl, .operation⟩
  | .srai .. => some ⟨.rs1, .immI, .sra, .operation⟩
  | .lb .. | .lh .. | .lw .. | .lbu .. | .lhu .. => some ⟨.rs1, .immI, .add, .operation⟩
  | .lui .. => some ⟨.rs1, .immU, .op2, .operation⟩
  | .auipc .. => some ⟨.pc, .immU, .add, .operation⟩
  | .add .. => some ⟨.rs1, .rs2, .add, .operation⟩
  | .slt .. => some ⟨.rs1, .rs2, .subSigned, .comparison⟩
  | .sltu .. => some ⟨.rs1, .rs2, .subUnsigned, .comparison⟩
  | .and .. => some ⟨.rs1, .rs2, .and, .operation⟩
  | .or .. => some ⟨.rs1, .rs2, .or, .operation⟩
  | .xor .. => some ⟨.rs1, .rs2, .xor, .operation⟩
  | .sll .. => some ⟨.rs1, .rs2, .sll, .operation⟩
  | .srl .. => some ⟨.rs1, .rs2, .srl, .operation⟩
  | .sra .. => some ⟨.rs1, .rs2, .sra, .operation⟩
  | .sub .. => some ⟨.rs1, .rs2, .subSigned, .operation⟩
  | .jalr .. | .jal .. => some ⟨.pc, .rs2, .op1, .operation⟩
  | .beq .. | .bne .. | .blt .. | .bge .. => some ⟨.rs1, .rs2, .subSigned, .unused⟩
  | .bltu .. | .bgeu .. => some ⟨.rs1, .rs2, .subUnsigned, .unused⟩
  | .sb .. | .sh .. | .sw .. => some ⟨.rs1, .immS, .add, .operation⟩
  | .fence .. | .ecall | .ebreak => none

/-- The ALU input op1, the register file delivering `rs1` and the PC register holding `pcReg` (R176). -/
def Mux1Alu.select (m : Mux1Alu) (rs1 pcReg : Word) : Word :=
  match m with
  | .rs1 => rs1
  | .pc => pcReg

/-- The ALU input op2 while the word `w` executes, the register file delivering `rs2` (R177). -/
def Mux2Alu.select (m : Mux2Alu) (rs2 w : Word) : Word :=
  match m with
  | .rs2 => rs2
  | .immI => Sys2Proof.Machine.immI (immIOf w)
  | .immU => Sys2Proof.Machine.immU (immUOf w)
  | .immS => Sys2Proof.Machine.immS (immSOf w)

/-- The operation column of R179 (shifts use `op2[4:0]`), and the comparisons of R178's Alternatives 3 and 4 as 0 or 1 (for `==`, which no instruction writes to a register,
DESIGN CHOICE, log 19). -/
def applySelOp (o : SelOp) (op1 op2 : Word) : Word :=
  match o with
  | .add => op1 + op2
  | .sll => shiftLeft op1 (shamtOf op2)
  | .srl => shiftRight op1 (shamtOf op2)
  | .sra => shiftRightArith op1 (shamtOf op2)
  | .and => op1 &&& op2
  | .or => op1 ||| op2
  | .xor => op1 ^^^ op2
  | .op1 => op1
  | .op2 => op2
  | .subSigned | .subUnsigned => op1 - op2
  | .eq => if op1 = op2 then 1#32 else 0#32
  | .lt => setLess op1 op2
  | .ltu => setLessU op1 op2

/-- The ALU output res for a row (R173, R179): the signed comparison under `- (signed)`, the unsigned one under `- (unsigned)`. -/
def AluRow.result (r : AluRow) (op1 op2 : Word) : Word :=
  match r.res, r.selop with
  | .comparison, .subUnsigned | .comparison, .ltu => setLessU op1 op2
  | .comparison, _ => setLess op1 op2
  | .operation, o => applySelOp o op1 op2
  | .unused, o => applySelOp o op1 op2

/-- res for the word `w` under a row, the PC register holding `pcReg`. -/
def AluRow.value (r : AluRow) (s : State) (pcReg w : Word) : Word :=
  r.result (r.mux1.select (s.reg (rs1Of w)) pcReg) (r.mux2.select (s.reg (rs2Of w)) w)

/-! ### The register file's address ports -/

/-- The register that an address port given the field `r` selects (R3): 5 bits wide with 32 registers, 4 bits wide with 16, so that only x0 to x15 are
provided. What a field of 16 to 31 gives a 4-bit port is a free value (R21, log 20). -/
def portOf (n : RegCount) (r : RegNum) : RegNum :=
  match n with
  | .rv32i => r
  | .rv32e => (if r < 16#5 then r.setWidth 4 else Config.highField r).setWidth 5

/-! ### The target adder and write-to-PC -/

/-- sel1PC (R180, C3): 0 selects PC, 1 selects rs1, for JALR only. -/
def sel1Pc : Instr → Bool
  | .jalr .. => true
  | _ => false

/-- sel2PC (R181): 0 selects the B-immediate, for the branches; 1 the J-immediate, for JAL and JALR. -/
def sel2Pc : Instr → Bool
  | .jal .. | .jalr .. => true
  | _ => false

/-- mux1PC (R180). -/
def mux1Pc (sel1PC : Bool) (rs1 pc : Word) : Word := if sel1PC then rs1 else pc

/-- mux2PC (R181): the B-immediate or the J-immediate by sel2PC. Beside rs1 it is the I-immediate, the input C5 finds missing; that sel1PC is what selects
it is a DESIGN CHOICE (log 19). -/
def mux2Pc (sel1PC sel2PC : Bool) (w : Word) : Word :=
  if sel1PC then immI (immIOf w) else if sel2PC then immJ (immJOf w) else immB (immBOf w)

/-- The target adder (R182), "always +", while the word `w` executes, the register file delivering `rs1`; bit 0 of a target relative to rs1 is cleared
between it and the PC (R141). -/
def targetAdder (sel1PC sel2PC : Bool) (rs1 pc w : Word) : Word :=
  let sum := mux1Pc sel1PC rs1 pc + mux2Pc sel1PC sel2PC w
  if sel1PC then sum &&& 0xFFFFFFFE#32 else sum

/-- The four control signals of write-to-PC (R183). -/
structure BranchControl where
  jb : Bool
  xz : Bool
  xn : Bool
  xf : Bool
deriving DecidableEq, Repr

/-- The control signals of each instruction (R183); a don't-care is false. -/
def branchControl : Instr → BranchControl
  | .jalr .. | .jal .. => ⟨true, false, false, false⟩
  | .beq .. => ⟨true, true, false, true⟩
  | .bne .. => ⟨true, true, false, false⟩
  | .blt .. => ⟨true, false, true, true⟩
  | .bge .. => ⟨true, false, true, false⟩
  | .bltu .. => ⟨true, true, true, true⟩
  | .bgeu .. => ⟨true, true, true, false⟩
  | _ => ⟨false, false, false, false⟩

/-- wPC (R183): `JB and ((XZ = 0 and XN = 0) or (sel = XF))`, sel being Z, N or C as (XZ, XN) says. -/
def wPC (k : BranchControl) (f : AluFlags) : Bool :=
  k.jb &&
    (match k.xz, k.xn with
      | false, false => true
      | true, false => f.z == k.xf
      | false, true => f.n == k.xf
      | true, true => f.c == k.xf)

/-- The PC register after an edge (R184): load is wPC, increment is iPC, a load wins; the third control, reset, is `State.rst`. -/
def pcRegister (pc target : Word) (load increment : Bool) : Word :=
  if load then target else if increment then pc + 4#32 else pc

/-- The next pc the datapath forms while the word `w`, which is instruction `i`, executes: the target if wPC, else pc + 4 (R182, R184). -/
def datapathNextPc (s : State) (i : Instr) (w : Word) : Word :=
  pcRegister s.pc (targetAdder (sel1Pc i) (sel2Pc i) (s.reg (rs1Of w)) s.pc w) (wPC (branchControl i) (flagsOf (s.reg (rs1Of w)) (s.reg (rs2Of w)))) true

end Sys2Proof.Machine
end

