-- ==== Sys2Proof/Machine/MemInterface.lean ====
section
/-! DEFINITION. The memory interface block of 51_memory_interface.md, one clock cycle at a time: its registers (R219), its combinational blocks (R205 to
R211, R220), its FSM (R212 to R215, R221), and a slave that is memory. Informative in the spec: no instruction meaning uses this file. What
the source leaves out of the block and the model supplies is log 19. -/

namespace Sys2Proof.Machine

/-! ### Combinational blocks -/

/-- SIZESTRB (R205), from size_i: 00 byte, 01 halfword, 10 or 11 word (R201). -/
def sizeStrb (size : BitVec 2) : BitVec 8 :=
  match size with
  | 0b00#2 => 0b00000001#8
  | 0b01#2 => 0b00000011#8
  | _ => 0b00001111#8

/-- BYTESTRB = SIZESTRB << ALIGNMENT (R206). -/
def byteStrb (size alignment : BitVec 2) : BitVec 8 := sizeStrb size <<< alignment.toNat

/-- SECOND_OP_REQUIRED: the OR of the high half of BYTESTRB (R207). -/
def secondOpRequired (be : BitVec 8) : Bool := be.getLsbD 7 || be.getLsbD 6 || be.getLsbD 5 || be.getLsbD 4

/-- WDATA64 (R208). -/
def wdata64 (wdata : Word) (alignment : BitVec 2) : BitVec 64 := wdata.setWidth 64 <<< (8 * alignment.toNat)

/-- The low half of RDATA64ALIGNED (R210). -/
def rdataAligned (rdata : BitVec 64) (alignment : BitVec 2) : Word := (rdata >>> (8 * alignment.toNat)).setWidth 32

/-- The zero/sign-extension block (R211, R220). -/
def extendRead (size : BitVec 2) (zeroExt : Bool) (v : Word) : Word :=
  match size, zeroExt with
  | 0b00#2, false => sext8 v
  | 0b00#2, true => zext8 v
  | 0b01#2, false => sext16 v
  | 0b01#2, true => zext16 v
  | _, _ => v

/-! ### State, inputs, outputs -/

/-- The FSM's states (R212, R221). -/
inductive MiState where
  | op1A
  | op1B
  | op2A
  | op2B
deriving DecidableEq, Repr

/-- The registers of R219 and the FSM state; `size`, `zeroExt` and `write` hold the registered request's size, signedness and direction, which the
source's list omits (N8; log 19). No register has a reset (R219); the FSM's reset state is op1A (R261, `MemInterface.rst`). -/
structure MemInterface where
  addr : BitVec 30
  alignment : BitVec 2
  be : BitVec 8
  unaligned : Bool
  wdata : BitVec 64
  rdata : BitVec 64
  size : BitVec 2
  zeroExt : Bool
  write : Bool
  fsm : MiState
deriving DecidableEq, Repr

/-- The CPU side's inputs (R201). -/
structure CpuRequest where
  rd : Bool
  wr : Bool
  addr : Word
  size : BitVec 2
  zeroExt : Bool
  wdata : Word
deriving DecidableEq, Repr

/-- The bus master's outputs (R200). -/
structure ApbOut where
  paddr : Word
  pstrb : BitVec 4
  pwdata : Word
  pwrite : Bool
  penable : Bool
deriving DecidableEq, Repr

/-- The outputs of one cycle: busy_o and rdata_o (R201), the bus (R200), and what the FSM drives inside the block (R221). -/
structure MiOut where
  busy : Bool
  rdata : Word
  bus : ApbOut
  firstCycle : Bool
  op2 : Bool
  wRDATAL : Bool
  wRDATAH : Bool
deriving DecidableEq, Repr

/-- WORDADDR = addr_i[31:2] (R205). -/
def wordAddr (a : Word) : BitVec 30 := a.extractLsb' 2 30
/-- ALIGNMENT = addr_i[1:0] (R205). -/
def alignmentOf (a : Word) : BitVec 2 := a.extractLsb' 0 2

/-! ### The slave: memory behind the bus -/

/-- The byte address of lane `k` of a word: word address times 4 plus `k` (R204). -/
def laneAddr (wa : BitVec 30) (k : Nat) : Word := (wa ++ 0#2) + BitVec.ofNat 32 k

/-- The whole word at a word address (R50, R204). -/
def Memory.wordAt (m : Memory) (wa : BitVec 30) : Word := leWord ((List.range 4).map fun k => m.byteAt (laneAddr wa k).toNat)

/-- The bytes a write operation writes: the strobed lanes of PWDATA (R204, R206). -/
def strobedCells (wa : BitVec 30) (strobes : BitVec 4) (pwdata : Word) : List (Word × Byte) :=
  ((List.range 4).filter fun k => strobes.getLsbD k).map fun k => (laneAddr wa k, pwdata.extractLsb' (8 * k) 8)

/-- PADDR of a word address: two zero bits below it, the reading R217 derives. U23 allows any value of the two; 00 is the model's choice (DESIGN CHOICE, log 19). -/
def paddrOf (wa : BitVec 30) : Word := wa ++ 0#2

/-- PRDATA, which memory answers with: the word at PADDR (R50). -/
def Memory.prdata (m : Memory) (bus : ApbOut) : Word := m.wordAt (bus.paddr.extractLsb' 2 30)

/-- Memory after a cycle with these bus outputs: the cycle with PENABLE and PREADY of a write moves the strobed lanes (R206, R213). -/
def Memory.slave (m : Memory) (bus : ApbOut) (pready : Bool) : Memory :=
  if bus.penable && pready && bus.pwrite then m.setBytes (strobedCells (bus.paddr.extractLsb' 2 30) bus.pstrb bus.pwdata) else m

/-! ### One clock cycle -/

/-- The registers as they load while the FSM is in op1A (R219: load = first_cycle, 1 all the time the FSM is idle). -/
def MemInterface.register (mi : MemInterface) (req : CpuRequest) : MemInterface :=
  { mi with
    addr := wordAddr req.addr
    alignment := alignmentOf req.addr
    be := byteStrb req.size (alignmentOf req.addr)
    unaligned := secondOpRequired (byteStrb req.size (alignmentOf req.addr))
    wdata := wdata64 req.wdata (alignmentOf req.addr)
    size := req.size
    zeroExt := req.zeroExt
    write := req.wr }

/-- PSTRB: the strobes of R206 on a write; on a read what the source does not settle (C9, log 19). -/
def pstrbOf (write : Bool) (strobes : BitVec 4) : BitVec 4 := if write then strobes else Config.readStrobes strobes

/-- The bus during the first operation: WORDADDR and the low halves (R206, R208, R213, R217). -/
def MemInterface.bus1 (mi : MemInterface) (penable : Bool) : ApbOut where
  paddr := paddrOf mi.addr
  pstrb := pstrbOf mi.write (mi.be.extractLsb' 0 4)
  pwdata := mi.wdata.extractLsb' 0 32
  pwrite := mi.write
  penable := penable

/-- The bus during the second operation: WORDADDR + 1 modulo 2^30 and the high halves (R207, R208, R214, R217, R58). -/
def MemInterface.bus2 (mi : MemInterface) (penable : Bool) : ApbOut where
  paddr := paddrOf (mi.addr + 1#30)
  pstrb := pstrbOf mi.write (mi.be.extractLsb' 4 4)
  pwdata := mi.wdata.extractLsb' 32 32
  pwrite := mi.write
  penable := penable

/-- The bus in each state: in op1A the request goes out as it comes in, afterwards it is maintained from the registers; PENABLE in op1B and op2B
(R213, R214, R221). -/
def MemInterface.bus (mi : MemInterface) (req : CpuRequest) : ApbOut :=
  match mi.fsm with
  | .op1A => (mi.register req).bus1 false
  | .op1B => mi.bus1 true
  | .op2A => mi.bus2 false
  | .op2B => mi.bus2 true

/-- first_cycle: 1 in op1A (R221). -/
def MemInterface.firstCycle (mi : MemInterface) : Bool := decide (mi.fsm = .op1A)

/-- op2: 1 in op2B, not stated in op2A (R221). -/
def MemInterface.op2 (mi : MemInterface) : Bool :=
  match mi.fsm with
  | .op1A | .op1B => false
  | .op2A => Config.op2InOp2A
  | .op2B => true

/-- wRDATAL: the single or first value of a read comes from memory (R215, R219). -/
def MemInterface.wRDATAL (mi : MemInterface) (pready : Bool) : Bool := decide (mi.fsm = .op1B) && pready && !mi.write

/-- wRDATAH: the second value of a read comes from memory (R215, R219). -/
def MemInterface.wRDATAH (mi : MemInterface) (pready : Bool) : Bool := decide (mi.fsm = .op2B) && pready && !mi.write

/-- The FSM's next state (R221). -/
def MemInterface.nextFsm (mi : MemInterface) (req : CpuRequest) (pready : Bool) : MiState :=
  match mi.fsm with
  | .op1A => if req.rd || req.wr then .op1B else .op1A
  | .op1B => if pready then (if mi.unaligned then .op2A else .op1A) else .op1B
  | .op2A => .op2B
  | .op2B => if pready then .op1A else .op2B

/-- Register RDATA after the cycle (R219). -/
def MemInterface.nextRdata (mi : MemInterface) (pready : Bool) (prdata : Word) : BitVec 64 :=
  if mi.wRDATAL pready then mi.rdata.extractLsb' 32 32 ++ prdata
  else if mi.wRDATAH pready then prdata ++ mi.rdata.extractLsb' 0 32
  else mi.rdata

/-- The block after one clock edge with the CPU's inputs and the slave's PREADY and PRDATA (R213, R214, R219, R221). -/
def MemInterface.next (mi : MemInterface) (req : CpuRequest) (pready : Bool) (prdata : Word) : MemInterface :=
  { (if mi.firstCycle then mi.register req else mi) with rdata := mi.nextRdata pready prdata, fsm := mi.nextFsm req pready }

/-- The reset input (R202, R261): the FSM is in op1A, the registers keep what they held. -/
def MemInterface.rst (mi : MemInterface) : MemInterface := { mi with fsm := .op1A }

/-- One clock cycle with the low-level reset input `rst` (R202): held in reset while it is 0. -/
def MemInterface.clocked (mi : MemInterface) (rst : Bool) (req : CpuRequest) (pready : Bool) (prdata : Word) : MemInterface :=
  if rst then mi.next req pready prdata else mi.rst

/-- The block and a memory behind it after one clock cycle. -/
def MemInterface.cycle (mi : MemInterface) (m : Memory) (req : CpuRequest) (pready : Bool) : MemInterface × Memory :=
  (mi.next req pready (m.prdata (mi.bus req)), m.slave (mi.bus req) pready)

/-- busy_o in each state (R212). -/
def MemInterface.busy (mi : MemInterface) (req : CpuRequest) (pready : Bool) : Bool :=
  match mi.fsm with
  | .op1A => req.rd || req.wr
  | .op1B => mi.unaligned || !pready
  | .op2A => true
  | .op2B => !pready

/-- The outputs of the cycle. rdata_o is formed from RDATA as the cycle leaves it, so that the fetch's last cycle already shows the word (R215; DESIGN
CHOICE, log 19). -/
def MemInterface.out (mi : MemInterface) (req : CpuRequest) (pready : Bool) (prdata : Word) : MiOut where
  busy := mi.busy req pready
  rdata := extendRead mi.size mi.zeroExt (rdataAligned (mi.nextRdata pready prdata) mi.alignment)
  bus := mi.bus req
  firstCycle := mi.firstCycle
  op2 := mi.op2
  wRDATAL := mi.wRDATAL pready
  wRDATAH := mi.wRDATAH pready

/-- A run of cycles: the inputs of each cycle with the slave's PREADY, the outputs of each cycle. -/
def MemInterface.run (mi : MemInterface) (m : Memory) : List (CpuRequest × Bool) → MemInterface × Memory × List MiOut
  | [] => (mi, m, [])
  | (req, pready) :: rest =>
    let r := mi.cycle m req pready
    let t := MemInterface.run r.1 r.2 rest
    (t.1, t.2.1, mi.out req pready (m.prdata (mi.bus req)) :: t.2.2)

/-- The cycles of one request: T0 with the request, then the operation's `w1` wait states and its last cycle, then, when a second operation is needed, op2A,
`w2` wait states and the last cycle (R213, R214, R222). After T0 the CPU's inputs are `idle`: the request need not be maintained (R219). -/
def requestCycles (req idle : CpuRequest) (w1 w2 : Nat) : List (CpuRequest × Bool) :=
  (req, false) :: (List.replicate w1 (idle, false) ++ [(idle, true)] ++
    (if secondOpRequired (byteStrb req.size (alignmentOf req.addr)) then
      (idle, false) :: (List.replicate w2 (idle, false) ++ [(idle, true)])
     else []))

/-- The number of bytes of a size code (R201). -/
def sizeBytes (size : BitVec 2) : Nat :=
  match size with
  | 0b00#2 => 1
  | 0b01#2 => 2
  | _ => 4

end Sys2Proof.Machine
end

