-- ==== Sys2Proof/Machine/Micro.lean ====
section
/-! DEFINITION. The hart clock cycle by clock cycle, as far as the source's ROM goes: fetch, FENCE, LOAD and STORE (R190 to R194). It puts together the control
unit, the memory interface and the datapath. Informative in the spec (R170, R270): no instruction meaning uses this file. What the source leaves open and the
model supplies is log 19. -/

namespace Sys2Proof.Machine

/-- The micro-architectural state of R29 around the architectural one, with the register file's two outputs. -/
structure Micro where
  cu : ControlUnit
  mi : MemInterface
  /-- The instruction register (R186). -/
  ir : Word
  /-- `x[rs1]` as the register file delivers it, one cycle after `ir` names it (R193, R265). -/
  rs1 : Word
  /-- `x[rs2]`, likewise. -/
  rs2 : Word
  /-- Registers, pc and memory. -/
  hart : State
deriving DecidableEq, Repr

/-- What a read port of the register file finds under a field of the instruction in IR (R3). -/
def Micro.readPort (m : Micro) (field : RegNum) : Word := m.hart.reg (portOf m.hart.cfg.regCount field)

/-- What the write port makes of the registers (R3, R20). -/
def Micro.writePort (m : Micro) (field : RegNum) (v : Word) : State := m.hart.setReg (portOf m.hart.cfg.regCount field) v

/-- The ALU input op1 (R176). -/
def Micro.aluOp1 (m : Micro) : Word := (Mux1Alu.ofCode (romSel1ALU m.cu.rom)).select m.rs1 m.hart.pc

/-- The ALU input op2 (R177). -/
def Micro.aluOp2 (m : Micro) : Word := (Mux2Alu.ofCode (romSel2ALU m.cu.rom)).select m.rs2 m.ir

/-- The ALU result under the ROM word's selopALU (R173, R192). -/
def Micro.aluResult (m : Micro) : Word := applySelOp (selOpOf (romSelop m.cu.rom)) m.aluOp1 m.aluOp2

/-- wPC: JB, XZ, XN and XF of the ROM word against the ALU's flags (R183, R192). -/
def Micro.wPC (m : Micro) : Bool :=
  Sys2Proof.Machine.wPC ⟨romJB m.cu.rom, romXZ m.cu.rom, romXN m.cu.rom, romXF m.cu.rom⟩ (flagsOf m.aluOp1 m.aluOp2)

/-- The PC register after a cycle that is not stalled (R184): loaded under wPC, incremented under iPC. Every ROM row the source gives has iPC = 0, and by C2
the increment happens all the same: here in the End-Of-Instruction cycle (DESIGN CHOICE, log 19). -/
def Micro.nextPc (m : Micro) : Word :=
  pcRegister m.hart.pc (targetAdder (romSel1PC m.cu.rom) (romSel2PC m.cu.rom) m.rs1 m.hart.pc m.ir) m.wPC (romIPC m.cu.rom || romEOI m.cu.rom)

/-- What the CPU side of the memory interface sees (R201): a LOAD or STORE has size funct3[1:0] and sign funct3[2]. IDMEM, of which the source describes no
consumer (R192, N11), selects here the address (PC for a fetch, else the ALU result) and makes the fetch a word request. What unsigned_i is during a fetch is not in
the source either (N11): here it is funct3[2] of IR, which still holds the previous instruction; a word has no use for it (R201). All DESIGN CHOICE, log 19. -/
def Micro.request (m : Micro) : CpuRequest where
  rd := romRD m.cu.rom
  wr := romWR m.cu.rom
  addr := if romIDMEM m.cu.rom then m.hart.pc else m.aluResult
  size := if romIDMEM m.cu.rom then 0b10#2 else (funct3Of m.ir).extractLsb' 0 2
  zeroExt := (funct3Of m.ir).getLsbD 2
  wdata := m.rs2

/-- One clock cycle, `pready` being the slave's answer: the request goes to the memory interface; the register file delivers what IR names; a cycle that is not
stalled writes IR (wIR), rd (wRD) and the PC. Whether the slave answers is `pready` alone: MemMap is not consulted, and every operation that ends moves the bytes
of `hart.mem`, those of a device and of a hole too (DESIGN CHOICE, log 21). That the register file reads in every cycle, before the same cycle's write, is log 19. -/
def Micro.tick (m : Micro) (pready : Bool) : Option Micro :=
  let out := m.mi.out m.request pready (m.hart.mem.prdata (m.mi.bus m.request))
  let bus := m.mi.cycle m.hart.mem m.request pready
  let go := m.cu.enable out.busy
  let inst := if romWIR m.cu.rom then out.rdata else m.ir
  let hart1 := if go && romWRD m.cu.rom then m.writePort (rdOf m.ir) (if romSelRD m.cu.rom then out.rdata else m.aluResult) else m.hart
  let hart2 := if go then hart1.setPc m.nextPc else hart1
  (m.cu.tick (inumOf inst) out.busy).map fun cu =>
    { cu := cu, mi := bus.1, ir := if go then inst else m.ir, rs1 := m.readPort (rs1Of m.ir), rs2 := m.readPort (rs2Of m.ir)
      hart := { hart2 with mem := bus.2 } }

/-- Held in reset (R260, R261): the address counter at 0x00, no control signal active, the memory interface in op1A, pc at RESET_PC; IR, the register file's outputs, the memory
interface's registers, the integer registers and memory keep what they held. -/
def Micro.rst (m : Micro) : Micro where
  cu := ControlUnit.reset
  mi := m.mi.rst
  ir := m.ir
  rs1 := m.rs1
  rs2 := m.rs2
  hart := m.hart.rst

/-- One clock edge with the low-level reset input `rst` (R260): held in reset while it is 0; an edge that finds it 1 after 0 releases the reset and begins the first
cycle of a fetch (R30, R262; log 19). `landed` says whether the bus write that the reset meets in its
last cycle, if any, still reaches memory; the spec leaves it open (R262, log 16). As in `Micro.tick`, MemMap is not consulted (DESIGN CHOICE, log 21). -/
def Micro.clocked (m : Micro) (rst pready landed : Bool) : Option Micro :=
  if rst then m.tick pready
  else some (Micro.rst { m with hart := { m.hart with mem := if landed then m.hart.mem.slave (m.mi.bus m.request) pready else m.hart.mem } })

/-- `n` clock cycles of slaves that insert no wait state (R271). -/
def Micro.ticks : Nat → Micro → Option Micro
  | 0, m => some m
  | n + 1, m => (m.tick true).bind (Micro.ticks n)

/-- The first cycle of a fetch: ROM position 0x00 with the counter at 0x01 and the memory interface idle (R186, R196, R212). -/
abbrev Micro.atFetch (m : Micro) : Prop := m.cu.rom = 0x00000006#32 ∧ m.cu.uCycle = 0x01#8 ∧ m.mi.fsm = .op1A

end Sys2Proof.Machine
end

