-- ==== Sys2Proof/Safety.lean ====
section
/-! DEFINITION. What the statements call a good state and a good run: the invariant of the hart, the ways a step may stop,
and what an instruction leaves unchanged. -/

namespace Sys2Proof.Machine

/-- What holds of every state a run from reset reaches: memory is canonical, the x0 slot is clear (R20), pc is even, and a multiple of 4 under
FETCH_MISALIGNED = trap (R24), RESET_PC is a multiple of 4 (R5), and the hart does not hang (R247). -/
abbrev State.Inv (s : State) : Prop :=
  s.mem.wf = true ∧ s.x[0] = 0#32 ∧ s.pc.extractLsb' 0 1 = 0#1 ∧ (s.cfg.fetchMisaligned = .trap → s.pc.extractLsb' 0 2 = 0#2) ∧ s.cfg.WF ∧
    s.hung = false

/-- The step neither hangs nor reaches a device nor a word outside the model: it completes or takes one of the four exceptions of R231. -/
def Result.clean : Result → Bool
  | .next _ => true
  | .fault (.trap _ _) => true
  | .fault (.stuck _) => false
  | .refused _ => false

/-- The state after an answer, where there is one. -/
def Result.state? : Result → Option State
  | .next s => some s
  | .fault _ => none
  | .refused _ => none

/-- The trap of an answer, where there is one. -/
def Result.trap? : Result → Option (Exception × Word)
  | .next _ => none
  | .fault (.trap e pc) => some (e, pc)
  | .fault (.stuck _) => none
  | .refused _ => none

/-! ### What the statements say an instruction leaves unchanged -/

/-- Parameters and bus are as before. -/
abbrev State.sameMachine (s t : State) : Prop := t.cfg = s.cfg ∧ t.hung = s.hung

/-- Every byte of memory reads as before. -/
abbrev State.sameMemory (s t : State) : Prop := ∀ a, t.byte a = s.byte a

/-- Every register reads as before. -/
abbrev State.sameRegs (s t : State) : Prop := ∀ q, t.reg q = s.reg q

/-- From `s` to `t` the only register that changes is `rd`, which holds `v`, or none if `rd` is x0 (R20). -/
abbrev State.onlyReg (s t : State) (rd : RegNum) (v : Word) : Prop :=
  (rd ≠ 0#5 → t.reg rd = v) ∧ t.reg 0#5 = 0#32 ∧ ∀ q, q ≠ rd → t.reg q = s.reg q

/-- The whole effect of an instruction that computes `v` into `rd` and goes on to pc + 4. -/
abbrev State.computes (s t : State) (rd : RegNum) (v : Word) : Prop :=
  s.onlyReg t rd v ∧ t.pc = s.pc + 4#32 ∧ s.sameMemory t ∧ s.sameMachine t

/-- The whole effect of an instruction that only sets pc. -/
abbrev State.onlyPc (s t : State) (pc : Word) : Prop :=
  s.sameRegs t ∧ t.pc = pc ∧ s.sameMemory t ∧ s.sameMachine t

/-- The whole effect of a store of the `n` low bytes of `v` at `a` (R44): those bytes hold `v`, lowest first, if memory is canonical; every other byte
reads as before; no register changes; pc + 4. -/
abbrev State.stores (s t : State) (a : Word) (n : Nat) (v : Word) : Prop :=
  (s.mem.wf = true → ∀ i, i < n → t.byte (a + BitVec.ofNat 32 i) = v.extractLsb' (8 * i) 8) ∧
    (∀ b, (∀ i, i < n → b ≠ a + BitVec.ofNat 32 i) → t.byte b = s.byte b) ∧
    s.sameRegs t ∧ t.pc = s.pc + 4#32 ∧ s.sameMachine t

/-- Under the strict decode, the words that `mask` and `matchBits` select are the instruction `f` reads from their fields (R81). -/
abbrev encodesAs (matchBits mask : Word) (f : Word → Instr) : Prop := ∀ w : Word, w &&& mask = matchBits → decodeStrict w = some (f w)

/-- Every byte of the first bus operation of an access is memory. -/
abbrev State.firstIsMemory (s : State) (a : Word) (n : Nat) : Prop :=
  ∀ b ∈ (accessAddrs a n).take (firstOpBytes a n), s.cfg.memMap.kindAt b.toNat = some .memory

/-- Some byte of the first bus operation of an access is in no region: the operation is unanswered (R52; that one such byte is enough is log 9). -/
abbrev State.firstUnanswered (s : State) (a : Word) (n : Nat) : Prop :=
  ∃ b ∈ (accessAddrs a n).take (firstOpBytes a n), s.cfg.memMap.kindAt b.toNat = none

/-- Some byte of the second bus operation of an access is in no region (R52; log 9). -/
abbrev State.secondUnanswered (s : State) (a : Word) (n : Nat) : Prop :=
  ∃ b ∈ (accessAddrs a n).drop (firstOpBytes a n), s.cfg.memMap.kindAt b.toNat = none

/-- A read of `n` bytes at `a` that never completes: its first operation is unanswered, or is memory and the second is unanswered. -/
abbrev State.readUnanswered (s : State) (a : Word) (n : Nat) : Prop :=
  s.firstUnanswered a n ∨ s.firstIsMemory a n ∧ s.secondUnanswered a n

/-- `b` is the first device byte of a bus operation on the bytes `as`, none of which is in no region (log 9). -/
abbrev deviceAt (m : MemMap) (as : List Word) (b : Word) : Prop :=
  ∃ pre post, as = pre ++ b :: post ∧ (∀ c ∈ pre, m.kindAt c.toNat = some .memory) ∧ m.kindAt b.toNat = some .device ∧
    ∀ c ∈ post, m.kindAt c.toNat ≠ none

/-- An access of `n` bytes at `a` reaches a device at `b`: with its first operation, or with its second when the first is memory. -/
abbrev State.reachesDevice (s : State) (a : Word) (n : Nat) (b : Word) : Prop :=
  deviceAt s.cfg.memMap ((accessAddrs a n).take (firstOpBytes a n)) b ∨
    s.firstIsMemory a n ∧ deviceAt s.cfg.memMap ((accessAddrs a n).drop (firstOpBytes a n)) b

/-- The condition of a branch, in the readings of R146 to R151. -/
def branchHolds (s : State) : Instr → Prop
  | .beq rs1 rs2 _ => s.reg rs1 = s.reg rs2
  | .bne rs1 rs2 _ => s.reg rs1 ≠ s.reg rs2
  | .blt rs1 rs2 _ => (s.reg rs1).toInt < (s.reg rs2).toInt
  | .bge rs1 rs2 _ => (s.reg rs2).toInt ≤ (s.reg rs1).toInt
  | .bltu rs1 rs2 _ => (s.reg rs1).toNat < (s.reg rs2).toNat
  | .bgeu rs1 rs2 _ => (s.reg rs2).toNat ≤ (s.reg rs1).toNat
  | _ => False

/-- The instruction transfers control to `target` from state `s`: a jump, or a branch whose condition holds (R141, R142, R145). -/
def goesTo (s : State) (i : Instr) (target : Word) : Prop :=
  match i with
  | .jal _ off => target = s.pc + off.signExtend 32
  | .jalr _ rs1 imm => target = (s.reg rs1 + imm.signExtend 32) &&& 0xFFFFFFFE#32
  | .beq _ _ off | .bne _ _ off | .blt _ _ off => branchHolds s i ∧ target = s.pc + off.signExtend 32
  | .bge _ _ off | .bltu _ _ off | .bgeu _ _ off => branchHolds s i ∧ target = s.pc + off.signExtend 32
  | _ => False

/-- The instruction is a store (R155). -/
def isStore : Instr → Bool
  | .sb .. | .sh .. | .sw .. => true
  | _ => false

/-- An answer with a function applied to every state in it. -/
def Result.mapState (f : State → State) : Result → Result
  | .next s => .next (f s)
  | .fault (.trap e pc) => .fault (.trap e pc)
  | .fault (.stuck l) => .fault (.stuck (f l))
  | .refused r => .refused r

/-- The target of a transfer is one that FETCH_MISALIGNED lets it reach (R48, D7). -/
abbrev State.mayReach (s : State) (target : Word) : Prop := s.cfg.fetchMisaligned = .trap → target.extractLsb' 0 2 = 0#2

/-- What a branch `i` with condition `cond` and offset `off` does (R145): not taken it goes to pc + 4, taken to pc + off, and changes nothing else; taken to
a target it may not reach, it raises. -/
abbrev State.branchesOn (s : State) (i : Instr) (cond : Prop) (off : BitVec 13) : Prop :=
  (¬ cond → ∃ t, exec i s = .next t ∧ s.onlyPc t (s.pc + 4#32)) ∧
    (cond → s.mayReach (s.pc + off.signExtend 32) → ∃ t, exec i s = .next t ∧ s.onlyPc t (s.pc + off.signExtend 32)) ∧
    (cond → ¬ s.mayReach (s.pc + off.signExtend 32) →
      exec i s = .fault (.trap (.instructionAddressMisaligned (s.pc + off.signExtend 32)) s.pc))

/-- The 13-bit B-immediate of a word, field by field (R75). -/
abbrev offsetB (w : Word) : BitVec 13 := w.extractLsb' 31 1 ++ w.extractLsb' 7 1 ++ w.extractLsb' 25 6 ++ w.extractLsb' 8 4 ++ 0#1

end Sys2Proof.Machine
end

