-- ==== Sys2Proof/Certificates/Slice0/Obligations.lean ====
section
/-! DEFINITION. The statements about the model, for the provers. Each docstring names the rule of spec/ it formalises, or says that it is derived. -/

open Sys2Proof Sys2Proof.Machine

/-! ### Encoding -/

/-- Decoding the canonical word of a well-formed instruction gives the instruction back, in both decode modes and for both register counts
(R72 to R77, R80 to R82, R89, R90). -/
def Obligations.DecodeOfEncode : Prop :=
  ∀ (n : RegCount) (mode : DecodeMode) (i : Instr), i.wellFormed n = true → decode n mode (encode i) = .instr i

/-- In strict mode a word that is an instruction is that instruction's canonical word, and the instruction is well-formed: no two words are one
instruction, and no field is misread unnoticed (R81, R89, R90). -/
def Obligations.EncodeOfStrictDecode : Prop :=
  ∀ (n : RegCount) (w : Word) (i : Instr), decode n .strict w = .instr i → encode i = w ∧ i.wellFormed n = true

/-- The strict decode is the opcode table: a word is an instruction with a row's mnemonic exactly when `w & mask == match` of that row, and a word that
no row selects is no instruction (R80, R81). -/
def Obligations.StrictDecodeIsOpcodeTable : Prop :=
  (∀ (w : Word) (r : OpcodeRow), r ∈ opcodeTable → (r.selects w ↔ ∃ i, decodeStrict w = some i ∧ i.mnemonic = r.mnemonic)) ∧
    ∀ w : Word, (∀ r ∈ opcodeTable, ¬ r.selects w) ↔ decodeStrict w = none

/-- The 40 rows are pairwise disjoint, under the strict masks and under the control unit's (R82). -/
def Obligations.OpcodeRowsDisjoint : Prop :=
  opcodeTable.length = 40 ∧
    ∀ (w : Word) (r₁ r₂ : OpcodeRow), r₁ ∈ opcodeTable → r₂ ∈ opcodeTable →
      (r₁.selects w → r₂.selects w → r₁ = r₂) ∧ (r₁.cuSelects w → r₂.cuSelects w → r₁ = r₂)

/-- The partial decode is the table's `cu_match` and `cu_mask` (R82). -/
def Obligations.CuDecodeIsCuTable : Prop :=
  ∀ (w : Word) (r : OpcodeRow), r ∈ opcodeTable → (r.cuSelects w ↔ ∃ i, decodeCu w = .instr i ∧ i.mnemonic = r.mnemonic)

/-- Every word that is an instruction in strict mode is the same instruction under cu_partial (R82). -/
def Obligations.CuPartialExtendsStrict : Prop :=
  ∀ (n : RegCount) (w : Word) (i : Instr), decode n .strict w = .instr i → decode n .cuPartial w = .instr i

/-- Every word that R89 does not accept (no row selects it, or under RV32E a register field is 16 or more) raises IllegalInstruction with the word as its
information, at its own pc; the classes R83 lists are selected by no row (R83). -/
def Obligations.ReservedWordsAreIllegal : Prop :=
  (∀ (s : State) (w : Word), s.hung = false → s.cfg.decodeMode = .strict → s.fetch = .ok w →
      ((∀ r ∈ opcodeTable, ¬ r.selects w) ∨
        (s.cfg.regCount = .rv32e ∧ ∃ i, decodeStrict w = some i ∧ ∃ r ∈ i.regs, 16 ≤ r.toNat)) →
      step s = .fault (.trap (.illegalInstruction w) s.pc)) ∧
    ∀ w : Word,
      (w.extractLsb' 0 2 ≠ 0b11#2 ∨ majorOf (opcode62Of w) = none ∨
        majorOf (opcode62Of w) ∈ [some Major.custom0, some Major.custom1, some Major.custom2, some Major.custom3] ∨
        (majorOf (opcode62Of w) = some .load ∧ funct3Of w ∈ [0b011#3, 0b110#3, 0b111#3]) ∨
        (majorOf (opcode62Of w) = some .store ∧ 3 ≤ (funct3Of w).toNat) ∨
        (majorOf (opcode62Of w) = some .branch ∧ funct3Of w ∈ [0b010#3, 0b011#3]) ∨
        (majorOf (opcode62Of w) ∈ [some Major.jalr, some Major.miscMem, some Major.system] ∧ funct3Of w ≠ 0b000#3) ∨
        (majorOf (opcode62Of w) = some .opImm ∧ funct3Of w = 0b001#3 ∧ funct7Of w ≠ 0#7) ∨
        (majorOf (opcode62Of w) = some .opImm ∧ funct3Of w = 0b101#3 ∧ funct7Of w ∉ [0b0000000#7, 0b0100000#7]) ∨
        (majorOf (opcode62Of w) = some .op ∧ funct3Of w ∈ [0b000#3, 0b101#3] ∧ funct7Of w ∉ [0b0000000#7, 0b0100000#7]) ∨
        (majorOf (opcode62Of w) = some .op ∧ funct3Of w ∉ [0b000#3, 0b101#3] ∧ funct7Of w ≠ 0#7) ∨
        (majorOf (opcode62Of w) = some .system ∧ w ≠ 0x00000073#32 ∧ w ≠ 0x00100073#32)) →
      ∀ r ∈ opcodeTable, ¬ r.selects w

/-- A custom opcode raises IllegalInstruction in both decode modes, though the control unit has instruction numbers for it (R85). -/
def Obligations.CustomOpcodesAreIllegal : Prop :=
  (∀ (s : State) (w : Word), s.hung = false → s.fetch = .ok w → opcode62Of w ∈ [0b00010#5, 0b01010#5, 0b10110#5, 0b11110#5] →
      step s = .fault (.trap (.illegalInstruction w) s.pc)) ∧
    ∀ w : Word,
      (opcode62Of w = 0b00010#5 → inumOf w = some (BitVec.ofNat 8 (0x90 + 4 * (funct3Of w).toNat))) ∧
      (opcode62Of w = 0b01010#5 → inumOf w = some 0xB0#8) ∧ (opcode62Of w = 0b10110#5 → inumOf w = some 0xC0#8) ∧
      (opcode62Of w = 0b11110#5 → inumOf w = some 0xD0#8)

/-- Under cu_partial a word whose selectors have no row in the source's table is refused, not trapped (R82, R246): an opcode[6:2] outside R79, BRANCH
with funct3 010 or 011, MISC-MEM or SYSTEM with funct3 other than 000. -/
def Obligations.CuPartialRefusesUnnumberedWords : Prop :=
  ∀ (s : State) (w : Word), s.hung = false → s.cfg.decodeMode = .cuPartial → s.fetch = .ok w →
    (majorOf (opcode62Of w) = none ∨ (majorOf (opcode62Of w) = some .branch ∧ funct3Of w ∈ [0b010#3, 0b011#3]) ∨
      (majorOf (opcode62Of w) ∈ [some Major.miscMem, some Major.system] ∧ funct3Of w ≠ 0b000#3)) →
    step s = .refused (.noInstructionNumber w)

/-- What cu_partial makes of words strict mode rejects (the items of R82): JALR with any funct3; ECALL and EBREAK by bit 20 alone; OP, and the OP-IMM shifts, by funct3
and bit 30, with the operands of their fields; LOAD and STORE of size code 10 or 11 are word accesses; the low two bits are not looked at. -/
def Obligations.CuPartialRunsPartialMatches : Prop :=
  ∀ w : Word,
    (majorOf (opcode62Of w) = some .jalr → decodeCu w = .instr (.jalr (rdOf w) (rs1Of w) (immIOf w))) ∧
    (majorOf (opcode62Of w) = some .system → funct3Of w = 0b000#3 →
      decodeCu w = .instr (if w.getLsbD 20 = true then .ebreak else .ecall)) ∧
    (majorOf (opcode62Of w) = some .op →
      (funct3Of w = 0b000#3 → w.getLsbD 30 = false → decodeCu w = .instr (.add (rdOf w) (rs1Of w) (rs2Of w))) ∧
      (funct3Of w = 0b000#3 → w.getLsbD 30 = true → decodeCu w = .instr (.sub (rdOf w) (rs1Of w) (rs2Of w))) ∧
      (funct3Of w = 0b001#3 → decodeCu w = .instr (.sll (rdOf w) (rs1Of w) (rs2Of w))) ∧
      (funct3Of w = 0b010#3 → decodeCu w = .instr (.slt (rdOf w) (rs1Of w) (rs2Of w))) ∧
      (funct3Of w = 0b011#3 → decodeCu w = .instr (.sltu (rdOf w) (rs1Of w) (rs2Of w))) ∧
      (funct3Of w = 0b100#3 → decodeCu w = .instr (.xor (rdOf w) (rs1Of w) (rs2Of w))) ∧
      (funct3Of w = 0b101#3 → w.getLsbD 30 = false → decodeCu w = .instr (.srl (rdOf w) (rs1Of w) (rs2Of w))) ∧
      (funct3Of w = 0b101#3 → w.getLsbD 30 = true → decodeCu w = .instr (.sra (rdOf w) (rs1Of w) (rs2Of w))) ∧
      (funct3Of w = 0b110#3 → decodeCu w = .instr (.or (rdOf w) (rs1Of w) (rs2Of w))) ∧
      (funct3Of w = 0b111#3 → decodeCu w = .instr (.and (rdOf w) (rs1Of w) (rs2Of w)))) ∧
    (majorOf (opcode62Of w) = some .opImm →
      (funct3Of w = 0b001#3 → decodeCu w = .instr (.slli (rdOf w) (rs1Of w) (w.extractLsb' 20 5))) ∧
      (funct3Of w = 0b101#3 → w.getLsbD 30 = false → decodeCu w = .instr (.srli (rdOf w) (rs1Of w) (w.extractLsb' 20 5))) ∧
      (funct3Of w = 0b101#3 → w.getLsbD 30 = true → decodeCu w = .instr (.srai (rdOf w) (rs1Of w) (w.extractLsb' 20 5)))) ∧
    (majorOf (opcode62Of w) = some .load → funct3Of w ∈ [0b010#3, 0b011#3, 0b110#3, 0b111#3] →
      decodeCu w = .instr (.lw (rdOf w) (rs1Of w) (immIOf w))) ∧
    (majorOf (opcode62Of w) = some .store → funct3Of w ∈ [0b010#3, 0b011#3, 0b110#3, 0b111#3] →
      decodeCu w = .instr (.sw (rs2Of w) (rs1Of w) (immSOf w))) ∧
    (majorOf (opcode62Of w) = some .store → funct3Of w = 0b100#3 → decodeCu w = .instr (.sb (rs2Of w) (rs1Of w) (immSOf w))) ∧
    (majorOf (opcode62Of w) = some .store → funct3Of w = 0b101#3 → decodeCu w = .instr (.sh (rs2Of w) (rs1Of w) (immSOf w))) ∧
    ∀ b : BitVec 2, decodeCu (w.extractLsb' 2 30 ++ b) = decodeCu w

/-- With NREGS = 16 a register field of 16 to 31 is a reserved encoding, and every other word decodes as with NREGS = 32 (R21, R90). That this holds under
cu_partial too is the model's choice (log 10). -/
def Obligations.Rv32eRejectsHighRegisters : Prop :=
  ∀ (mode : DecodeMode) (w : Word),
    (∀ i, decode .rv32i mode w = .instr i →
      ((∀ r ∈ i.regs, r.toNat < 16) → decode .rv32e mode w = .instr i) ∧ ((∃ r ∈ i.regs, 16 ≤ r.toNat) → decode .rv32e mode w = .illegal)) ∧
    (∀ d, decode .rv32i mode w = d → (∀ i, d ≠ .instr i) → decode .rv32e mode w = d)

/-- Words written out from the spec's encodings decode to the instructions they stand for (the examples of R101, R113, R121, R132, R141, R142, R147, R157,
R160, R161, R162). -/
def Obligations.SpecExampleWordsDecode : Prop :=
  (decodeTableWord 32 0xFFF30293 = some (.addi 5 6 0xFFF#12)) ∧ (decodeTableWord 32 0x00832283 = some (.lw 5 6 8#12)) ∧
    (decodeTableWord 32 0x123452B7 = some (.lui 5 0x12345#20)) ∧ (decodeTableWord 32 0x007312B3 = some (.sll 5 6 7)) ∧
    (decodeTableWord 32 0x000280E7 = some (.jalr 1 5 0#12)) ∧ (decodeTableWord 32 0xFFDFF06F = some (.jal 0 0x1FFFFC#21)) ∧
    (decodeTableWord 32 0xFE731CE3 = some (.bne 6 7 0x1FF8#13)) ∧ (decodeTableWord 32 0x007311A3 = some (.sh 7 6 3#12)) ∧
    (decodeTableWord 32 0x0FF0000F = some (.fence 0 0xF 0xF 0 0)) ∧ (decodeTableWord 32 0x00000073 = some .ecall) ∧
    (decodeTableWord 32 0x00100073 = some .ebreak)

/-! ### Memory -/

/-- `MemRead(a, n)` on memory answers the bytes at `(a + i) mod 2^32`, byte `i` in bits 8i+7:8i, whatever the alignment, and nothing above (R43). -/
def Obligations.MemReadIsLittleEndian : Prop :=
  ∀ (s : State) (a : Word) (n : Nat), n ∈ [1, 2, 4] → s.answersMemory a n →
    ∃ v, s.memRead a n = .ok v ∧ (∀ i, i < n → v.extractLsb' (8 * i) 8 = s.byte (a + BitVec.ofNat 32 i)) ∧ v.toNat < 2 ^ (8 * n)

/-- `MemWrite(a, n, v)` on memory: byte `(a + i) mod 2^32` becomes `v[8i+7:8i]`, no other byte changes, nor any register or pc; memory stays canonical (R44). -/
def Obligations.MemWriteSetsExactlyItsBytes : Prop :=
  ∀ (s : State) (a : Word) (n : Nat) (v : Word), n ∈ [1, 2, 4] → s.mem.wf = true → s.answersMemory a n →
    ∃ t, s.memWrite a n v = .ok t ∧ (∀ i, i < n → t.byte (a + BitVec.ofNat 32 i) = v.extractLsb' (8 * i) 8) ∧
      (∀ b, (∀ i, i < n → b ≠ a + BitVec.ofNat 32 i) → t.byte b = s.byte b) ∧ s.sameRegs t ∧ t.pc = s.pc ∧ s.sameMachine t ∧ t.mem.wf = true

/-- A narrower read of a location written by a wider write sees the bytes where the byte order puts them (R43); `m = n`, `k = 0` is the store read back. -/
def Obligations.NarrowReadOfWideWrite : Prop :=
  ∀ (s t : State) (a : Word) (n m k : Nat) (v : Word), n ∈ [1, 2, 4] → m ∈ [1, 2, 4] → k + m ≤ n → s.mem.wf = true →
    s.memWrite a n v = .ok t →
    t.memRead (a + BitVec.ofNat 32 k) m = .ok (BitVec.ofNat 32 ((v.toNat >>> (8 * k)) % 2 ^ (8 * m)))

/-- Two canonical memories that read the same at every address are the same memory (the representation of R28; derived). -/
def Obligations.CanonicalMemoryIsUnique : Prop :=
  ∀ m m' : Memory, m.wf = true → m'.wf = true → (∀ a : Word, m.byteAt a.toNat = m'.byteAt a.toNat) → m = m'

/-- An access is one or two bus operations on aligned words, with exactly the bytes that the low and the high half of BYTESTRB strobe; the table of R46, row
by row (R46, R206, R207). -/
def Obligations.AccessSplitsAsByteStrobes : Prop :=
  (∀ a : BitVec 2, byteStrb 0b00#2 a = 0b00000001#8 <<< a.toNat) ∧
  ([0b00#2, 0b01#2, 0b10#2, 0b11#2].map (byteStrb 0b01#2) = [0b00000011#8, 0b00000110#8, 0b00001100#8, 0b00011000#8]) ∧
  ([0b00#2, 0b01#2, 0b10#2, 0b11#2].map (byteStrb 0b10#2) = [0b00001111#8, 0b00011110#8, 0b00111100#8, 0b01111000#8]) ∧
  ∀ (a : Word) (size : BitVec 2) (v : Word),
    (secondOpRequired (byteStrb size (alignmentOf a)) = true ↔ firstOpBytes a (sizeBytes size) < sizeBytes size) ∧
    (storeCells a (sizeBytes size) v).take (firstOpBytes a (sizeBytes size)) =
      strobedCells (wordAddr a) ((byteStrb size (alignmentOf a)).extractLsb' 0 4) ((wdata64 v (alignmentOf a)).extractLsb' 0 32) ∧
    (storeCells a (sizeBytes size) v).drop (firstOpBytes a (sizeBytes size)) =
      strobedCells (wordAddr a + 1#30) ((byteStrb size (alignmentOf a)).extractLsb' 4 4) ((wdata64 v (alignmentOf a)).extractLsb' 32 32)

/-- A fetch or a load of which some bus operation is unanswered, and a store of which the first is, leaves the hart stuck with nothing changed (R52, R247). That it
hangs, where the spec allows a refusal too, is the model's choice (log 7), and so is that one byte in no region leaves its whole operation unanswered (log 9). -/
def Obligations.UnansweredAccessIsStuck : Prop :=
  ∀ (s : State),
    (s.hung = false → s.readUnanswered s.pc 4 → step s = .fault (.stuck s.hang)) ∧
    (∀ rd rs1 imm, s.readUnanswered (s.effAddr rs1 (immI imm)) 1 →
      exec (.lb rd rs1 imm) s = .fault (.stuck s.hang) ∧ exec (.lbu rd rs1 imm) s = .fault (.stuck s.hang)) ∧
    (∀ rd rs1 imm, s.readUnanswered (s.effAddr rs1 (immI imm)) 2 →
      exec (.lh rd rs1 imm) s = .fault (.stuck s.hang) ∧ exec (.lhu rd rs1 imm) s = .fault (.stuck s.hang)) ∧
    (∀ rd rs1 imm, s.readUnanswered (s.effAddr rs1 (immI imm)) 4 → exec (.lw rd rs1 imm) s = .fault (.stuck s.hang)) ∧
    (∀ rs2 rs1 imm, s.firstUnanswered (s.effAddr rs1 (immS imm)) 1 → exec (.sb rs2 rs1 imm) s = .fault (.stuck s.hang)) ∧
    (∀ rs2 rs1 imm, s.firstUnanswered (s.effAddr rs1 (immS imm)) 2 → exec (.sh rs2 rs1 imm) s = .fault (.stuck s.hang)) ∧
    (∀ rs2 rs1 imm, s.firstUnanswered (s.effAddr rs1 (immS imm)) 4 → exec (.sw rs2 rs1 imm) s = .fault (.stuck s.hang))

/-- A store, SH or SW or any memWrite, of two operations of which only the second is unanswered: the first has written its bytes when the hart hangs, and those
only. R247 marks this as derived; that one byte in no region leaves the whole second operation unanswered and unwritten is the model's choice (log 9), and so is the
hang (log 7). -/
def Obligations.SplitStoreLeavesFirstOperation : Prop :=
  ∀ (s : State) (a : Word) (n : Nat) (v : Word), n ≤ 4 → s.firstIsMemory a n → s.secondUnanswered a n → s.mem.wf = true →
    ∃ left, s.memWrite a n v = .stuck left ∧ left.hung = true ∧ s.sameRegs left ∧ left.pc = s.pc ∧ left.cfg = s.cfg ∧
      (∀ c ∈ (storeCells a n v).take (firstOpBytes a n), left.byte c.1 = c.2) ∧
      (∀ b, b ∉ (accessAddrs a n).take (firstOpBytes a n) → left.byte b = s.byte b) ∧
      ∀ rs2 rs1 imm, a = s.effAddr rs1 (immS imm) → v = s.reg rs2 →
        (n = 2 → exec (.sh rs2 rs1 imm) s = .fault (.stuck left)) ∧ (n = 4 → exec (.sw rs2 rs1 imm) s = .fault (.stuck left))

/-- Once stuck, every later step is stuck again, in the same state (R247). -/
def Obligations.StuckStaysStuck : Prop :=
  ∀ s left : State, step s = .fault (.stuck left) → step left = .fault (.stuck left)

/-- A fetch, load or store that reaches a device is refused by the address of the first device byte: the spec gives no device a behaviour (D15; the model's choice,
logs 8 and 9). -/
def Obligations.DeviceAccessIsRefused : Prop :=
  ∀ (s : State) (b : Word),
    (s.hung = false → s.reachesDevice s.pc 4 b → step s = .refused (.deviceAccess b)) ∧
    (∀ rd rs1 imm, s.reachesDevice (s.effAddr rs1 (immI imm)) 1 b →
      exec (.lb rd rs1 imm) s = .refused (.deviceAccess b) ∧ exec (.lbu rd rs1 imm) s = .refused (.deviceAccess b)) ∧
    (∀ rd rs1 imm, s.reachesDevice (s.effAddr rs1 (immI imm)) 2 b →
      exec (.lh rd rs1 imm) s = .refused (.deviceAccess b) ∧ exec (.lhu rd rs1 imm) s = .refused (.deviceAccess b)) ∧
    (∀ rd rs1 imm, s.reachesDevice (s.effAddr rs1 (immI imm)) 4 b → exec (.lw rd rs1 imm) s = .refused (.deviceAccess b)) ∧
    (∀ rs2 rs1 imm, s.reachesDevice (s.effAddr rs1 (immS imm)) 1 b → exec (.sb rs2 rs1 imm) s = .refused (.deviceAccess b)) ∧
    (∀ rs2 rs1 imm, s.reachesDevice (s.effAddr rs1 (immS imm)) 2 b → exec (.sh rs2 rs1 imm) s = .refused (.deviceAccess b)) ∧
    (∀ rs2 rs1 imm, s.reachesDevice (s.effAddr rs1 (immS imm)) 4 b → exec (.sw rs2 rs1 imm) s = .refused (.deviceAccess b))

/-- A store is seen by every later fetch, with no fence: after SB, SH or SW, a fetch anywhere reads the stored bytes where it meets them and the old ones elsewhere;
after SW a fetch at the stored address reads the stored word (R56). -/
def Obligations.StoreIsSeenByLaterFetch : Prop :=
  ∀ (s t u : State) (i : Instr) (rs2 rs1 : RegNum) (imm : BitVec 12) (n : Nat),
    (i = .sb rs2 rs1 imm ∧ n = 1 ∨ i = .sh rs2 rs1 imm ∧ n = 2 ∨ i = .sw rs2 rs1 imm ∧ n = 4) → s.mem.wf = true → exec i s = .next t →
    u.mem = t.mem → u.cfg = t.cfg → u.answersMemory u.pc 4 →
    ∃ w, u.fetch = .ok w ∧
      (∀ k j, k < 4 → j < n → u.pc + BitVec.ofNat 32 k = s.effAddr rs1 (immS imm) + BitVec.ofNat 32 j →
        w.extractLsb' (8 * k) 8 = (s.reg rs2).extractLsb' (8 * j) 8) ∧
      (∀ k, k < 4 → (∀ j, j < n → u.pc + BitVec.ofNat 32 k ≠ s.effAddr rs1 (immS imm) + BitVec.ofNat 32 j) →
        w.extractLsb' (8 * k) 8 = s.byte (u.pc + BitVec.ofNat 32 k)) ∧
      (n = 4 → u.pc = s.effAddr rs1 (immS imm) → w = s.reg rs2)

/-! ### Instructions: result, frame and completion -/

/-- ADDI, SLTI, SLTIU: encoding, result, and nothing else changed; they always complete (R101, R102, R103). -/
def Obligations.AddiSltiSltiuCompute : Prop :=
  (encodesAs 0x00000013#32 0x0000707F#32 (fun w => .addi (rdOf w) (rs1Of w) (w.extractLsb' 20 12)) ∧
    ∀ rd rs1 imm s, ∃ t, exec (.addi rd rs1 imm) s = .next t ∧ s.computes t rd (s.reg rs1 + imm.signExtend 32)) ∧
  (encodesAs 0x00002013#32 0x0000707F#32 (fun w => .slti (rdOf w) (rs1Of w) (w.extractLsb' 20 12)) ∧
    ∀ rd rs1 imm s, ∃ t, exec (.slti rd rs1 imm) s = .next t ∧ s.computes t rd (if (s.reg rs1).toInt < imm.toInt then 1#32 else 0#32)) ∧
  (encodesAs 0x00003013#32 0x0000707F#32 (fun w => .sltiu (rdOf w) (rs1Of w) (w.extractLsb' 20 12)) ∧
    ∀ rd rs1 imm s, ∃ t, exec (.sltiu rd rs1 imm) s = .next t ∧
      s.computes t rd (if (s.reg rs1).toNat < (imm.signExtend 32).toNat then 1#32 else 0#32))

/-- ANDI, ORI, XORI: encoding, result, and nothing else changed; they always complete (R104, R105, R106). -/
def Obligations.AndiOriXoriCompute : Prop :=
  (encodesAs 0x00007013#32 0x0000707F#32 (fun w => .andi (rdOf w) (rs1Of w) (w.extractLsb' 20 12)) ∧
    ∀ rd rs1 imm s, ∃ t, exec (.andi rd rs1 imm) s = .next t ∧ s.computes t rd (s.reg rs1 &&& imm.signExtend 32)) ∧
  (encodesAs 0x00006013#32 0x0000707F#32 (fun w => .ori (rdOf w) (rs1Of w) (w.extractLsb' 20 12)) ∧
    ∀ rd rs1 imm s, ∃ t, exec (.ori rd rs1 imm) s = .next t ∧ s.computes t rd (s.reg rs1 ||| imm.signExtend 32)) ∧
  (encodesAs 0x00004013#32 0x0000707F#32 (fun w => .xori (rdOf w) (rs1Of w) (w.extractLsb' 20 12)) ∧
    ∀ rd rs1 imm s, ∃ t, exec (.xori rd rs1 imm) s = .next t ∧ s.computes t rd (s.reg rs1 ^^^ imm.signExtend 32))

/-- SLLI, SRLI, SRAI: encoding, result as a product or a quotient by 2^shamt (for SRAI the floor of the signed reading, R109), and nothing else changed; they
always complete; another inst[31:25] is reserved in strict mode (R107, R108, R109). -/
def Obligations.ImmediateShiftsCompute : Prop :=
  (encodesAs 0x00001013#32 0xFE00707F#32 (fun w => .slli (rdOf w) (rs1Of w) (w.extractLsb' 20 5)) ∧
    ∀ rd rs1 sh s, ∃ t, exec (.slli rd rs1 sh) s = .next t ∧ s.computes t rd (BitVec.ofNat 32 ((s.reg rs1).toNat * 2 ^ sh.toNat))) ∧
  (encodesAs 0x00005013#32 0xFE00707F#32 (fun w => .srli (rdOf w) (rs1Of w) (w.extractLsb' 20 5)) ∧
    ∀ rd rs1 sh s, ∃ t, exec (.srli rd rs1 sh) s = .next t ∧ s.computes t rd (BitVec.ofNat 32 ((s.reg rs1).toNat / 2 ^ sh.toNat))) ∧
  (encodesAs 0x40005013#32 0xFE00707F#32 (fun w => .srai (rdOf w) (rs1Of w) (w.extractLsb' 20 5)) ∧
    ∀ rd rs1 sh s, ∃ t, exec (.srai rd rs1 sh) s = .next t ∧ s.computes t rd (BitVec.ofInt 32 ((s.reg rs1).toInt / 2 ^ sh.toNat))) ∧
  ∀ (n : RegCount) (w : Word), majorOf (opcode62Of w) = some .opImm →
    (funct3Of w = 0b001#3 ∧ funct7Of w ≠ 0#7 ∨ funct3Of w = 0b101#3 ∧ funct7Of w ∉ [0b0000000#7, 0b0100000#7]) → decode n .strict w = .illegal

/-- ADD, SUB, AND, OR, XOR: encoding, result modulo 2^32, and nothing else changed; they always complete (R126, R135, R129, R130, R131). -/
def Obligations.AddSubLogicCompute : Prop :=
  (encodesAs 0x00000033#32 0xFE00707F#32 (fun w => .add (rdOf w) (rs1Of w) (rs2Of w)) ∧
    ∀ rd rs1 rs2 s, ∃ t, exec (.add rd rs1 rs2) s = .next t ∧ s.computes t rd (BitVec.ofNat 32 ((s.reg rs1).toNat + (s.reg rs2).toNat))) ∧
  (encodesAs 0x40000033#32 0xFE00707F#32 (fun w => .sub (rdOf w) (rs1Of w) (rs2Of w)) ∧
    ∀ rd rs1 rs2 s, ∃ t, exec (.sub rd rs1 rs2) s = .next t ∧ s.computes t rd (BitVec.ofInt 32 ((s.reg rs1).toInt - (s.reg rs2).toInt))) ∧
  (encodesAs 0x00007033#32 0xFE00707F#32 (fun w => .and (rdOf w) (rs1Of w) (rs2Of w)) ∧
    ∀ rd rs1 rs2 s, ∃ t, exec (.and rd rs1 rs2) s = .next t ∧ s.computes t rd (s.reg rs1 &&& s.reg rs2)) ∧
  (encodesAs 0x00006033#32 0xFE00707F#32 (fun w => .or (rdOf w) (rs1Of w) (rs2Of w)) ∧
    ∀ rd rs1 rs2 s, ∃ t, exec (.or rd rs1 rs2) s = .next t ∧ s.computes t rd (s.reg rs1 ||| s.reg rs2)) ∧
  (encodesAs 0x00004033#32 0xFE00707F#32 (fun w => .xor (rdOf w) (rs1Of w) (rs2Of w)) ∧
    ∀ rd rs1 rs2 s, ∃ t, exec (.xor rd rs1 rs2) s = .next t ∧ s.computes t rd (s.reg rs1 ^^^ s.reg rs2))

/-- SLT and SLTU: exact comparisons of the signed and of the unsigned readings (R127, R128). -/
def Obligations.SltSltuCompute : Prop :=
  (encodesAs 0x00002033#32 0xFE00707F#32 (fun w => .slt (rdOf w) (rs1Of w) (rs2Of w)) ∧
    ∀ rd rs1 rs2 s, ∃ t, exec (.slt rd rs1 rs2) s = .next t ∧
      s.computes t rd (if (s.reg rs1).toInt < (s.reg rs2).toInt then 1#32 else 0#32)) ∧
  (encodesAs 0x00003033#32 0xFE00707F#32 (fun w => .sltu (rdOf w) (rs1Of w) (rs2Of w)) ∧
    ∀ rd rs1 rs2 s, ∃ t, exec (.sltu rd rs1 rs2) s = .next t ∧
      s.computes t rd (if (s.reg rs1).toNat < (s.reg rs2).toNat then 1#32 else 0#32))

/-- SLL, SRL, SRA: only the low five bits of x[rs2] count (R132, R133, R134). -/
def Obligations.RegisterShiftsCompute : Prop :=
  (encodesAs 0x00001033#32 0xFE00707F#32 (fun w => .sll (rdOf w) (rs1Of w) (rs2Of w)) ∧
    ∀ rd rs1 rs2 s, ∃ t, exec (.sll rd rs1 rs2) s = .next t ∧
      s.computes t rd (BitVec.ofNat 32 ((s.reg rs1).toNat * 2 ^ ((s.reg rs2).toNat % 32)))) ∧
  (encodesAs 0x00005033#32 0xFE00707F#32 (fun w => .srl (rdOf w) (rs1Of w) (rs2Of w)) ∧
    ∀ rd rs1 rs2 s, ∃ t, exec (.srl rd rs1 rs2) s = .next t ∧
      s.computes t rd (BitVec.ofNat 32 ((s.reg rs1).toNat / 2 ^ ((s.reg rs2).toNat % 32)))) ∧
  (encodesAs 0x40005033#32 0xFE00707F#32 (fun w => .sra (rdOf w) (rs1Of w) (rs2Of w)) ∧
    ∀ rd rs1 rs2 s, ∃ t, exec (.sra rd rs1 rs2) s = .next t ∧
      s.computes t rd (BitVec.ofInt 32 ((s.reg rs1).toInt / 2 ^ ((s.reg rs2).toNat % 32))))

/-- LUI and AUIPC: the 20-bit field in bits 31:12, and its sum with the instruction's own address (R121, R122). -/
def Obligations.LuiAuipcCompute : Prop :=
  (encodesAs 0x00000037#32 0x0000007F#32 (fun w => .lui (rdOf w) (w.extractLsb' 12 20)) ∧
    ∀ rd imm20 s, ∃ t, exec (.lui rd imm20) s = .next t ∧ s.computes t rd (BitVec.ofNat 32 (imm20.toNat * 2 ^ 12))) ∧
  (encodesAs 0x00000017#32 0x0000007F#32 (fun w => .auipc (rdOf w) (w.extractLsb' 12 20)) ∧
    ∀ rd imm20 s, ∃ t, exec (.auipc rd imm20) s = .next t ∧ s.computes t rd (s.pc + BitVec.ofNat 32 (imm20.toNat * 2 ^ 12)))

/-- A hint (OP-IMM, OP, LUI or AUIPC with rd = x0) has no effect but pc + 4; NOP, 0x00000013, is one (R84). -/
def Obligations.HintsOnlyAdvancePc : Prop :=
  (∀ (i : Instr) (s : State), i.dest = some 0#5 →
    (∀ rd off, i ≠ .jal rd off) → (∀ rd rs1 imm, i ≠ .jalr rd rs1 imm) →
    (∀ rd rs1 imm, i ≠ .lb rd rs1 imm ∧ i ≠ .lh rd rs1 imm ∧ i ≠ .lw rd rs1 imm ∧ i ≠ .lbu rd rs1 imm ∧ i ≠ .lhu rd rs1 imm) →
    exec i s = .next { s with pc := s.pc + 4#32 }) ∧
  decodeStrict 0x00000013#32 = some (.addi 0#5 0#5 0#12)

/-- LB and LBU: the byte at x[rs1] + immI, sign- or zero-extended; they complete wherever that byte is memory (R111, R114). -/
def Obligations.ByteLoadsCompute : Prop :=
  (encodesAs 0x00000003#32 0x0000707F#32 (fun w => .lb (rdOf w) (rs1Of w) (w.extractLsb' 20 12)) ∧
    ∀ rd rs1 imm s, s.answersMemory (s.effAddr rs1 (immI imm)) 1 →
      ∃ t, exec (.lb rd rs1 imm) s = .next t ∧ s.computes t rd ((s.byte (s.reg rs1 + imm.signExtend 32)).signExtend 32)) ∧
  (encodesAs 0x00004003#32 0x0000707F#32 (fun w => .lbu (rdOf w) (rs1Of w) (w.extractLsb' 20 12)) ∧
    ∀ rd rs1 imm s, s.answersMemory (s.effAddr rs1 (immI imm)) 1 →
      ∃ t, exec (.lbu rd rs1 imm) s = .next t ∧ s.computes t rd ((s.byte (s.reg rs1 + imm.signExtend 32)).setWidth 32))

/-- LH and LHU: the two bytes at x[rs1] + immI, little-endian, at any alignment, sign- or zero-extended; two bus operations exactly when the address ends in
11 (R112, R115). -/
def Obligations.HalfLoadsCompute : Prop :=
  (encodesAs 0x00001003#32 0x0000707F#32 (fun w => .lh (rdOf w) (rs1Of w) (w.extractLsb' 20 12)) ∧
    ∀ rd rs1 imm s, s.answersMemory (s.effAddr rs1 (immI imm)) 2 →
      ∃ t, exec (.lh rd rs1 imm) s = .next t ∧
        s.computes t rd ((s.byte (s.reg rs1 + imm.signExtend 32 + 1#32) ++ s.byte (s.reg rs1 + imm.signExtend 32)).signExtend 32)) ∧
  (encodesAs 0x00005003#32 0x0000707F#32 (fun w => .lhu (rdOf w) (rs1Of w) (w.extractLsb' 20 12)) ∧
    ∀ rd rs1 imm s, s.answersMemory (s.effAddr rs1 (immI imm)) 2 →
      ∃ t, exec (.lhu rd rs1 imm) s = .next t ∧
        s.computes t rd ((s.byte (s.reg rs1 + imm.signExtend 32 + 1#32) ++ s.byte (s.reg rs1 + imm.signExtend 32)).setWidth 32)) ∧
  ∀ a : Word, firstOpBytes a 2 < 2 ↔ alignmentOf a = 0b11#2

/-- LW: the four bytes at x[rs1] + immI, little-endian, at any alignment, addresses modulo 2^32; two bus operations exactly when the address is not a multiple
of 4 (R113). -/
def Obligations.WordLoadComputes : Prop :=
  (∀ a : Word, firstOpBytes a 4 < 4 ↔ alignmentOf a ≠ 0b00#2) ∧
  encodesAs 0x00002003#32 0x0000707F#32 (fun w => .lw (rdOf w) (rs1Of w) (w.extractLsb' 20 12)) ∧
    ∀ rd rs1 imm s, s.answersMemory (s.effAddr rs1 (immI imm)) 4 →
      ∃ t, exec (.lw rd rs1 imm) s = .next t ∧
        s.computes t rd (s.byte (s.reg rs1 + imm.signExtend 32 + 3#32) ++ s.byte (s.reg rs1 + imm.signExtend 32 + 2#32) ++
          s.byte (s.reg rs1 + imm.signExtend 32 + 1#32) ++ s.byte (s.reg rs1 + imm.signExtend 32))

/-- SB, SH, SW: the low 8, 16 or 32 bits of x[rs2] go to the bytes at x[rs1] + immS, lowest first, at any alignment; every other byte, and every register, is
unchanged; they complete wherever those bytes are memory; SH takes two bus operations exactly at an address that ends in 11, SW at one that is no multiple of 4
(R156, R157, R158; the strobes are those of AccessSplitsAsByteStrobes). -/
def Obligations.StoresWriteExactlyTheirBytes : Prop :=
  (encodesAs 0x00000023#32 0x0000707F#32 (fun w => .sb (rs2Of w) (rs1Of w) (w.extractLsb' 25 7 ++ w.extractLsb' 7 5)) ∧
    ∀ rs2 rs1 imm s, s.answersMemory (s.effAddr rs1 (immS imm)) 1 →
      ∃ t, exec (.sb rs2 rs1 imm) s = .next t ∧ s.stores t (s.effAddr rs1 (immS imm)) 1 (s.reg rs2)) ∧
  (encodesAs 0x00001023#32 0x0000707F#32 (fun w => .sh (rs2Of w) (rs1Of w) (w.extractLsb' 25 7 ++ w.extractLsb' 7 5)) ∧
    ∀ rs2 rs1 imm s, s.answersMemory (s.effAddr rs1 (immS imm)) 2 →
      ∃ t, exec (.sh rs2 rs1 imm) s = .next t ∧ s.stores t (s.effAddr rs1 (immS imm)) 2 (s.reg rs2)) ∧
  (encodesAs 0x00002023#32 0x0000707F#32 (fun w => .sw (rs2Of w) (rs1Of w) (w.extractLsb' 25 7 ++ w.extractLsb' 7 5)) ∧
    ∀ rs2 rs1 imm s, s.answersMemory (s.effAddr rs1 (immS imm)) 4 →
      ∃ t, exec (.sw rs2 rs1 imm) s = .next t ∧ s.stores t (s.effAddr rs1 (immS imm)) 4 (s.reg rs2)) ∧
  (∀ (s : State) (rs1 : RegNum) (imm : BitVec 12), s.effAddr rs1 (immS imm) = s.reg rs1 + imm.signExtend 32) ∧
  (∀ a : Word, (firstOpBytes a 2 < 2 ↔ alignmentOf a = 0b11#2) ∧ (firstOpBytes a 4 < 4 ↔ alignmentOf a ≠ 0b00#2)) ∧
  byteStrb 0b01#2 0b11#2 = 0b00011000#8 ∧
  [0b00#2, 0b01#2, 0b10#2, 0b11#2].map (byteStrb 0b10#2) = [0b00001111#8, 0b00011110#8, 0b00111100#8, 0b01111000#8]

/-- JAL: link pc + 4 in rd and pc + immJ in pc, or, to a target that is not a multiple of 4 under trap, the exception and nothing written (R142). -/
def Obligations.JalJumpsAndLinks : Prop :=
  encodesAs 0x0000006F#32 0x0000007F#32
      (fun w => .jal (rdOf w) (w.extractLsb' 31 1 ++ w.extractLsb' 12 8 ++ w.extractLsb' 20 1 ++ w.extractLsb' 21 10 ++ 0#1)) ∧
    ∀ rd off s,
      (s.mayReach (s.pc + off.signExtend 32) →
        ∃ t, exec (.jal rd off) s = .next t ∧ s.onlyReg t rd (s.pc + 4#32) ∧ t.pc = s.pc + off.signExtend 32 ∧ s.sameMemory t ∧ s.sameMachine t) ∧
      (¬ s.mayReach (s.pc + off.signExtend 32) →
        exec (.jal rd off) s = .fault (.trap (.instructionAddressMisaligned (s.pc + off.signExtend 32)) s.pc))

/-- JALR: link pc + 4 in rd and x[rs1] + immI with bit 0 cleared in pc, from the old x[rs1] even when rd = rs1; bit 1 of the target set raises under trap;
another funct3 is reserved in strict mode (R141). -/
def Obligations.JalrJumpsAndLinks : Prop :=
  encodesAs 0x00000067#32 0x0000707F#32 (fun w => .jalr (rdOf w) (rs1Of w) (w.extractLsb' 20 12)) ∧
    (∀ (n : RegCount) (w : Word), majorOf (opcode62Of w) = some .jalr → funct3Of w ≠ 0b000#3 → decode n .strict w = .illegal) ∧
    ∀ rd rs1 imm s,
      ((s.cfg.fetchMisaligned = .trap → (s.reg rs1 + imm.signExtend 32).getLsbD 1 = false) →
        ∃ t, exec (.jalr rd rs1 imm) s = .next t ∧ s.onlyReg t rd (s.pc + 4#32) ∧
          t.pc = (s.reg rs1 + imm.signExtend 32) &&& 0xFFFFFFFE#32 ∧ s.sameMemory t ∧ s.sameMachine t) ∧
      (s.cfg.fetchMisaligned = .trap → (s.reg rs1 + imm.signExtend 32).getLsbD 1 = true →
        exec (.jalr rd rs1 imm) s =
          .fault (.trap (.instructionAddressMisaligned ((s.reg rs1 + imm.signExtend 32) &&& 0xFFFFFFFE#32)) s.pc))

/-- BEQ and BNE: encoding, condition, and the course of R145 (R146, R147). -/
def Obligations.BeqBneBranch : Prop :=
  (encodesAs 0x00000063#32 0x0000707F#32 (fun w => .beq (rs1Of w) (rs2Of w) (offsetB w)) ∧
    ∀ rs1 rs2 off (s : State), s.branchesOn (.beq rs1 rs2 off) (s.reg rs1 = s.reg rs2) off) ∧
  (encodesAs 0x00001063#32 0x0000707F#32 (fun w => .bne (rs1Of w) (rs2Of w) (offsetB w)) ∧
    ∀ rs1 rs2 off (s : State), s.branchesOn (.bne rs1 rs2 off) (s.reg rs1 ≠ s.reg rs2) off)

/-- BLT and BGE: encoding, exact signed comparison, and the course of R145 (R148, R149). -/
def Obligations.BltBgeBranch : Prop :=
  (encodesAs 0x00004063#32 0x0000707F#32 (fun w => .blt (rs1Of w) (rs2Of w) (offsetB w)) ∧
    ∀ rs1 rs2 off (s : State), s.branchesOn (.blt rs1 rs2 off) ((s.reg rs1).toInt < (s.reg rs2).toInt) off) ∧
  (encodesAs 0x00005063#32 0x0000707F#32 (fun w => .bge (rs1Of w) (rs2Of w) (offsetB w)) ∧
    ∀ rs1 rs2 off (s : State), s.branchesOn (.bge rs1 rs2 off) ((s.reg rs2).toInt ≤ (s.reg rs1).toInt) off)

/-- BLTU and BGEU: encoding, unsigned comparison, and the course of R145 (R150, R151). -/
def Obligations.BltuBgeuBranch : Prop :=
  (encodesAs 0x00006063#32 0x0000707F#32 (fun w => .bltu (rs1Of w) (rs2Of w) (offsetB w)) ∧
    ∀ rs1 rs2 off (s : State), s.branchesOn (.bltu rs1 rs2 off) ((s.reg rs1).toNat < (s.reg rs2).toNat) off) ∧
  (encodesAs 0x00007063#32 0x0000707F#32 (fun w => .bgeu (rs1Of w) (rs2Of w) (offsetB w)) ∧
    ∀ rs1 rs2 off (s : State), s.branchesOn (.bgeu rs1 rs2 off) ((s.reg rs2).toNat ≤ (s.reg rs1).toNat) off)

/-- FENCE with any of its fields advances pc and changes nothing else (R160, R91). -/
def Obligations.FenceOnlyAdvancesPc : Prop :=
  encodesAs 0x0000000F#32 0x0000707F#32
      (fun w => .fence (w.extractLsb' 28 4) (w.extractLsb' 24 4) (w.extractLsb' 20 4) (rs1Of w) (rdOf w)) ∧
    ∀ fm pred succ rs1 rd s, exec (.fence fm pred succ rs1 rd) s = .next { s with pc := s.pc + 4#32 }

/-- ECALL always stops with EnvironmentCall, EBREAK with Breakpoint(pc), each at its own pc (R161, R162). -/
def Obligations.EcallEbreakRaise : Prop :=
  (encodesAs 0x00000073#32 0xFFFFFFFF#32 (fun _ => .ecall) ∧ ∀ s, exec .ecall s = .fault (.trap .environmentCall s.pc)) ∧
  (encodesAs 0x00100073#32 0xFFFFFFFF#32 (fun _ => .ebreak) ∧ ∀ s, exec .ebreak s = .fault (.trap (.breakpoint s.pc) s.pc))

/-! ### Exceptions and outcomes -/

/-- A step traps exactly under the conditions of R231, with the cause, pc, information and code the table gives (R231, R234). -/
def Obligations.StepTrapsExactlyAsTabled : Prop :=
  (∀ (s : State) (e : Exception) (p : Word),
    step s = .fault (.trap e p) ↔
      s.hung = false ∧ p = s.pc ∧ ∃ w, s.fetch = .ok w ∧
        ((decode s.cfg.regCount s.cfg.decodeMode w = .illegal ∧ e = .illegalInstruction w) ∨
          ∃ i, decode s.cfg.regCount s.cfg.decodeMode w = .instr i ∧
            ((i = .ecall ∧ e = .environmentCall) ∨ (i = .ebreak ∧ e = .breakpoint s.pc) ∨
              ∃ target, goesTo s i target ∧ ¬ s.mayReach target ∧ e = .instructionAddressMisaligned target))) ∧
  ∀ v : Word, (Exception.instructionAddressMisaligned v).code = 0 ∧ (Exception.illegalInstruction v).code = 2 ∧
    (Exception.breakpoint v).code = 3 ∧ Exception.environmentCall.code = 11

/-- Where every address is memory and decoding is strict, a step completes or takes one of the four exceptions: no access fault, no misaligned-data, no
arithmetic exception exists, nothing is refused (R235, R247). -/
def Obligations.StepIsCleanOnMemory : Prop :=
  ∀ s : State, s.hung = false → s.cfg.decodeMode = .strict → (∀ a : Word, s.cfg.memMap.kindAt a.toNat = some .memory) → Result.clean (step s) = true

/-! ### The whole machine -/

/-- A step from a state that does not hang, whose fetch is answered with a word that is instruction `i`, is `exec i` (R9). -/
def Obligations.StepRunsDecodedInstruction : Prop :=
  ∀ (s : State) (w : Word) (i : Instr), s.hung = false → s.fetch = .ok w → decode s.cfg.regCount s.cfg.decodeMode w = .instr i → step s = exec i s

/-- Every step keeps the invariant: canonical memory, clear x0 slot, pc even and a multiple of 4 under trap, RESET_PC aligned, not hanging (R20, R24, R28). -/
def Obligations.StepKeepsInvariant : Prop := ∀ s t : State, s.Inv → step s = .next t → t.Inv

/-- The invariant holds after reset, for every choice of the parameters, of the registers' power-up values and of a canonical memory (R30); State.reset is
one of them. -/
def Obligations.ResetHasInvariant : Prop :=
  State.reset.Inv ∧ ∀ (c : Config) (x : Vector Word 32) (mem : Memory), c.WF → mem.wf = true →
    (State.resetWith c x mem).Inv ∧ (State.resetWith c x mem).pc = c.resetPc ∧ (State.resetWith c x mem).reg 0#5 = 0#32

/-- An instruction that completes sets pc to pc + 4 unless it transfers control, and then to its target: only JAL, JALR and the six branches do (R24). -/
def Obligations.OnlyJumpsAndBranchesSetPc : Prop :=
  ∀ (i : Instr) (s t : State), exec i s = .next t →
    (∀ target, goesTo s i target → t.pc = target) ∧ ((∀ target, ¬ goesTo s i target) → t.pc = s.pc + 4#32)

/-- Load-store architecture: an instruction that completes changes no register but its rd, no memory unless it is a store, and never the parameters (R31). -/
def Obligations.InstructionsChangeOnlyTheirDestination : Prop :=
  ∀ (i : Instr) (s t : State), exec i s = .next t →
    (∀ q, i.dest ≠ some q → t.reg q = s.reg q) ∧ t.reg 0#5 = 0#32 ∧ (isStore i = false → t.mem = s.mem) ∧ s.sameMachine t

/-- With NREGS = 16 the registers x16 to x31 do not exist: no step reads or writes their slots, so any write to one commutes with the step (R21); nor does a cycle of the
cycle layer, whatever the fields of IR hold (R3; which register a field of 16 to 31 selects there is free, log 20). -/
def Obligations.Rv32eIgnoresHighRegisters : Prop :=
  (∀ (s : State) (q : RegNum) (v : Word), s.cfg.regCount = .rv32e → 16 ≤ q.toNat →
    step (s.setReg q v) = Result.mapState (fun t => t.setReg q v) (step s)) ∧
  (∀ r : RegNum, (portOf .rv32e r).toNat < 16 ∧ (r.toNat < 16 → portOf .rv32e r = r) ∧ portOf .rv32i r = r) ∧
  ∀ (m : Micro) (q : RegNum) (v : Word) (pready : Bool), m.hart.cfg.regCount = .rv32e → 16 ≤ q.toNat →
    Micro.tick { m with hart := m.hart.setReg q v } pready = (m.tick pready).map fun t => { t with hart := t.hart.setReg q v }

/-- The reset input, at any time: pc at RESET_PC, bus idle, registers and memory kept, so the invariant holds again if memory and x0's slot were sound. In the
cycle layer, held in reset, the address counter is at 0x00, the memory interface in op1A, IR and its registers are kept (R261) and nothing is requested; the edge that
releases it begins the first cycle of a fetch, which asks for a read at RESET_PC (R30, R262). What the ROM puts out in reset, and the alignment of the release, are
log 19. -/
def Obligations.RunningResetKeepsRegistersAndMemory : Prop :=
  (∀ s : State, s.rst.pc = s.cfg.resetPc ∧ s.rst.hung = false ∧ s.sameRegs s.rst ∧ s.sameMemory s.rst ∧ s.rst.cfg = s.cfg ∧
    (s.mem.wf = true → s.x[0] = 0#32 → s.cfg.WF → s.rst.Inv)) ∧
  ∀ m : Micro, m.rst.hart = m.hart.rst ∧ m.rst.ir = m.ir ∧ m.rst.cu.uCycle = 0x00#8 ∧ m.rst.mi = { m.mi with fsm := .op1A } ∧
    m.rst.request.rd = false ∧ m.rst.request.wr = false ∧
    ∀ pready landed, Micro.clocked m false pready false = some m.rst ∧ Micro.clocked m true pready landed = m.tick pready ∧
      ∃ t, Micro.clocked m.rst true pready landed = some t ∧ t.atFetch ∧ t.hart = m.hart.rst ∧ t.ir = m.ir ∧
        t.request.rd = true ∧ t.request.wr = false ∧ t.request.addr = m.hart.cfg.resetPc

/-- A reset during a store of which no operation has landed, the first, or all: memory is the old one, the old one with the first operation's bytes, or with all; every
other byte is old (R262, U22, R47). Which it is the spec leaves open, so it is an argument; that this is memory's course for a store to a device or to nobody too, MemMap not
being consulted, is the model's choice (both log 16). -/
def Obligations.ResetDuringStoreLandsPerOperation : Prop :=
  ∀ (s : State) (landed : Nat) (a : Word) (n : Nat) (v : Word),
    (s.resetDuringStore landed a n v).pc = s.cfg.resetPc ∧ s.sameRegs (s.resetDuringStore landed a n v) ∧
    (landed = 0 → (s.resetDuringStore landed a n v).mem = s.mem) ∧
    (landed = 1 → (s.resetDuringStore landed a n v).mem = s.mem.setBytes ((storeCells a n v).take (firstOpBytes a n))) ∧
    (2 ≤ landed → (s.resetDuringStore landed a n v).mem = s.mem.setBytes (storeCells a n v)) ∧
    (∀ b, b ∉ accessAddrs a n → (s.resetDuringStore landed a n v).byte b = s.byte b) ∧
    (landed = 1 → ∀ b, b ∉ (accessAddrs a n).take (firstOpBytes a n) → (s.resetDuringStore landed a n v).byte b = s.byte b)

/-! ### The micro-architecture the source describes -/

/-- The ALU with the settings of R179 gives the value each instruction writes, or the address it accesses; its PC input is pc for AUIPC and pc + 4 for the link
value (C1). -/
def Obligations.AluTableGivesResults : Prop :=
  ∀ (s : State) (w : Word) (i : Instr) (r : AluRow), decodeStrict w = some i → aluRow i = some r →
    (∀ rd off, i = .jal rd off → r.value s (s.pc + 4#32) w = s.pc + 4#32) ∧
    (∀ rd rs1 imm, i = .jalr rd rs1 imm → r.value s (s.pc + 4#32) w = s.pc + 4#32) ∧
    (∀ rd rs1 imm, (i = .lb rd rs1 imm ∨ i = .lh rd rs1 imm ∨ i = .lw rd rs1 imm ∨ i = .lbu rd rs1 imm ∨ i = .lhu rd rs1 imm) →
      r.value s s.pc w = s.effAddr rs1 (immI imm)) ∧
    (∀ rs2 rs1 imm, (i = .sb rs2 rs1 imm ∨ i = .sh rs2 rs1 imm ∨ i = .sw rs2 rs1 imm) → r.value s s.pc w = s.effAddr rs1 (immS imm)) ∧
    ((majorOf (opcode62Of w) ∈ [some Major.opImm, some Major.op, some Major.lui, some Major.auipc]) →
      exec i s = s.writeBack (rdOf w) (r.value s s.pc w))

/-- The write-to-PC formula with the control signals of R183 and the flags of R175 sets pc as the instructions do; its table, row by row (R183, R152). For the target it
takes the adder of R180 to R182 and the PC register of R184; that sel1PC selects the I-immediate C5 finds missing, and that a load wins over the increment, is the model's
choice (log 19). -/
def Obligations.WritePcLogicSetsPc : Prop :=
  (∀ (s t : State) (w : Word) (i : Instr), decodeStrict w = some i → exec i s = .next t → t.pc = datapathNextPc s i w) ∧
  ∀ z n c : Bool,
    (∀ rd off, wPC (branchControl (.jal rd off)) ⟨z, n, c⟩ = true) ∧ (∀ rd rs1 imm, wPC (branchControl (.jalr rd rs1 imm)) ⟨z, n, c⟩ = true) ∧
    ∀ rs1 rs2 off, wPC (branchControl (.beq rs1 rs2 off)) ⟨z, n, c⟩ = z ∧ wPC (branchControl (.bne rs1 rs2 off)) ⟨z, n, c⟩ = !z ∧
      wPC (branchControl (.blt rs1 rs2 off)) ⟨z, n, c⟩ = n ∧ wPC (branchControl (.bge rs1 rs2 off)) ⟨z, n, c⟩ = (!n) ∧
      wPC (branchControl (.bltu rs1 rs2 off)) ⟨z, n, c⟩ = c ∧ wPC (branchControl (.bgeu rs1 rs2 off)) ⟨z, n, c⟩ = (!c) ∧
      ∀ i : Instr, i.mnemonic ∉ ["JALR", "JAL", "BEQ", "BNE", "BLT", "BGE", "BLTU", "BGEU"] → wPC (branchControl i) ⟨z, n, c⟩ = false

/-- The instruction number of a word the control unit decodes is its table row's, and a word it gives no number is one cu_partial refuses (R188, R82). -/
def Obligations.InstructionNumbersMatchTable : Prop :=
  (∀ (w : Word) (r : OpcodeRow), r ∈ opcodeTable → r.cuSelects w → inumOf w = some r.inum) ∧
    ∀ w : Word, inumOf w = none ↔ decodeCu w = .noInstructionNumber

/-- The address counter (R189): 0x00 after reset; enabled unless waitMEM and membusy; an enabled edge takes it to 0x01 after EOI, to INUM + 1, for every INUM, after EOF,
else one up; while it is not enabled it holds. -/
def Obligations.AddressCounterAdvances : Prop :=
  ControlUnit.reset.uCycle = 0x00#8 ∧ (∀ cu inum busy, (ControlUnit.clocked cu false inum busy).map ControlUnit.uCycle = some 0x00#8) ∧
  ∀ (cu : ControlUnit) (n : BitVec 8) (busy : Bool),
    (cu.enable busy = true ↔ romWaitMEM cu.rom = false ∨ busy = false) ∧
    (romEOI cu.rom = true → cu.nextCount n = 0x01#8) ∧
    (romEOI cu.rom = false → romEOF cu.rom = true → cu.nextCount n = n + 1#8) ∧
    (romEOI cu.rom = false → romEOF cu.rom = false → cu.nextCount n = cu.uCycle + 1#8) ∧
    (cu.enable busy = false → ∀ inum, (cu.tick inum busy).map ControlUnit.uCycle = some cu.uCycle) ∧
    (cu.enable busy = true → ∀ cu', cu.tick (some n) busy = some cu' → cu'.uCycle = cu.nextCount n)

/-- The ROM moves in unison with the counter, at the bypassed address: 0x00 after EOI, INUM after EOF, else uCYCLE (R196, which derives it); stalled, it holds with the counter.
The edge that releases a reset delivers position 0x00 (R262). A position the source gives no contents has no next word (R195), nor has an EOF without instruction number:
there the layer answers none; that no control signal is active while reset is held, and that the release is an edge, is the model's choice (all log 19). -/
def Obligations.RomFollowsBypassedAddress : Prop :=
  (∀ cu inum busy, ControlUnit.clocked cu false inum busy = some ControlUnit.reset) ∧ rom 0x00#8 = some 0x00000006#32 ∧
  (∀ inum busy, ControlUnit.clocked ControlUnit.reset true inum busy = some ⟨0x01#8, 0x00000006#32⟩) ∧
  (∀ (cu : ControlUnit) (inum : Option (BitVec 8)) (busy : Bool), cu.enable busy = false → cu.tick inum busy = some cu) ∧
  ∀ (cu : ControlUnit) (inum : Option (BitVec 8)) (busy : Bool), cu.enable busy = true →
    (romEOI cu.rom = true → cu.tick inum busy = (rom 0x00#8).map fun r => ⟨0x01#8, r⟩) ∧
    (romEOI cu.rom = false → romEOF cu.rom = true → cu.tick inum busy = inum.bind fun n => (rom n).map fun r => ⟨n + 1#8, r⟩) ∧
    (romEOI cu.rom = false → romEOF cu.rom = false → cu.tick inum busy = (rom cu.uCycle).map fun r => ⟨cu.uCycle + 1#8, r⟩) ∧
    ∀ a : BitVec 8, (rom a).isSome = true ↔ a.toNat < 0x10

/-- A write request through the memory interface, with any wait states, leaves memory as MemWrite does, is back in op1A, is busy in every cycle but the last, takes 2 + w1
or 4 + w1 + w2 cycles, and drives the bus with the first operation's address, strobes and data, then the second's (R44, R200, R213, R214,
R217, R222). That the low two bits of PADDR are 00, R217's derived reading, is the model's choice where U23 allows any value (log 19). -/
def Obligations.MemInterfaceWriteIsMemWrite : Prop :=
  ∀ (mi : MemInterface) (m : Memory) (req idle : CpuRequest) (w1 w2 : Nat), mi.fsm = .op1A → req.wr = true → req.rd = false →
    let r := mi.run m (requestCycles req idle w1 w2)
    let strobes := byteStrb req.size (alignmentOf req.addr)
    let data := wdata64 req.wdata (alignmentOf req.addr)
    let bus1 : Bool → ApbOut := fun penable => ⟨wordAddr req.addr ++ 0#2, strobes.extractLsb' 0 4, data.extractLsb' 0 32, true, penable⟩
    let bus2 : Bool → ApbOut := fun penable => ⟨(wordAddr req.addr + 1#30) ++ 0#2, strobes.extractLsb' 4 4, data.extractLsb' 32 32, true, penable⟩
    r.1.fsm = .op1A ∧ r.2.1 = m.setBytes (storeCells req.addr (sizeBytes req.size) req.wdata) ∧
      r.2.2.map MiOut.busy = List.replicate (r.2.2.length - 1) true ++ [false] ∧
      r.2.2.length = (if secondOpRequired strobes = true then 4 + w1 + w2 else 2 + w1) ∧
      r.2.2.map MiOut.bus = bus1 false :: (List.replicate (w1 + 1) (bus1 true) ++
        if secondOpRequired strobes = true then bus2 false :: List.replicate (w2 + 1) (bus2 true) else []) ∧
      r.2.2.map MiOut.firstCycle = true :: List.replicate (r.2.2.length - 1) false

/-- A read request through the memory interface, with any wait states, is back in op1A, leaves memory alone, is busy in every cycle but the last, drives the addresses as a
write does with PWRITE 0, and shows the value MemRead gives, extended as size and sign say. R215 derives the sequence from that of a write; that the value is on rdata_o
already in the last busy cycle, and that the low two bits of PADDR are 00 (R217, U23), is the model's choice (R43, R209 to R211, R215, R222; log 19). -/
def Obligations.MemInterfaceReadIsMemRead : Prop :=
  ∀ (mi : MemInterface) (m : Memory) (req idle : CpuRequest) (w1 w2 : Nat), mi.fsm = .op1A → req.wr = false → req.rd = true →
    let r := mi.run m (requestCycles req idle w1 w2)
    let second := secondOpRequired (byteStrb req.size (alignmentOf req.addr))
    let bus1 : Bool → Word × Bool × Bool := fun penable => (wordAddr req.addr ++ 0#2, false, penable)
    let bus2 : Bool → Word × Bool × Bool := fun penable => ((wordAddr req.addr + 1#30) ++ 0#2, false, penable)
    r.1.fsm = .op1A ∧ r.2.1 = m ∧
      (r.2.2.getLast?).map MiOut.rdata =
        some (extendRead req.size req.zeroExt (leWord ((accessAddrs req.addr (sizeBytes req.size)).map fun a => m.byteAt a.toNat))) ∧
      r.2.2.map MiOut.busy = List.replicate (r.2.2.length - 1) true ++ [false] ∧
      r.2.2.length = (if second = true then 4 + w1 + w2 else 2 + w1) ∧
      r.2.2.map (fun o => (o.bus.paddr, o.bus.pwrite, o.bus.penable)) = bus1 false :: (List.replicate (w1 + 1) (bus1 true) ++
        if second = true then bus2 false :: List.replicate (w2 + 1) (bus2 true) else [])

/-- The source's worked example: a word at 0x00000003 with 0x1234ABCD at word 0 and 0x56789EF0 at word 1 reads 0x789EF012, with strobes 1000 then 0111 (R216). -/
def Obligations.SourceUnalignedReadExample : Prop :=
  (byteStrb 0b10#2 (alignmentOf 0x00000003#32)).extractLsb' 0 4 = 0b1000#4 ∧ (byteStrb 0b10#2 (alignmentOf 0x00000003#32)).extractLsb' 4 4 = 0b0111#4 ∧
    wordAddr 0x00000003#32 = 0#30 ∧ wordAddr 0x00000003#32 + 1#30 = 1#30 ∧ rdataAligned 0x56789EF01234ABCD#64 (alignmentOf 0x00000003#32) = 0x789EF012#32

/-- Cycle by cycle from the first cycle of a fetch at an aligned pc (from a reset that is held, one clock edge more, its release, log 19), with slaves that insert no wait state and every address memory: FENCE takes 3 cycles, a LOAD 6
or 8, a STORE 5 or 7, the hart is at a fetch again, and registers, pc and memory are those of one step (R190 to R194, R271; the model's supplements are log 19). The register
file delivers its operands one cycle after IR names them (R193, R265): what it delivered before the run does not matter. -/
def Obligations.MicroRunsFenceLoadStore : Prop :=
  (∀ (m t : Micro) (pready : Bool), m.tick pready = some t →
    t.rs1 = m.hart.reg (portOf m.hart.cfg.regCount (rs1Of m.ir)) ∧ t.rs2 = m.hart.reg (portOf m.hart.cfg.regCount (rs2Of m.ir))) ∧
  ∀ (m : Micro) (w : Word) (i : Instr) (late : Nat),
    (m.atFetch ∧ late = 0 ∨ m.cu = ControlUnit.reset ∧ m.mi.fsm = .op1A ∧ late = 1) → m.hart.hung = false → m.hart.pc.extractLsb' 0 2 = 0#2 →
    (∀ a : Word, m.hart.cfg.memMap.kindAt a.toNat = some .memory) → m.hart.fetch = .ok w →
    decode m.hart.cfg.regCount m.hart.cfg.decodeMode w = .instr i →
    let two : Word → Nat → Nat := fun a n => if firstOpBytes a n < n then 2 else 0
    let runs : Nat → Prop := fun k => ∃ m', Micro.ticks (k + late) m = some m' ∧ m'.atFetch ∧ step m.hart = .next m'.hart
    (∀ fm pred succ rs1 rd, i = .fence fm pred succ rs1 rd → runs 3) ∧
    (∀ rd rs1 imm, i = .lb rd rs1 imm ∨ i = .lbu rd rs1 imm → runs 6) ∧
    (∀ rd rs1 imm, i = .lh rd rs1 imm ∨ i = .lhu rd rs1 imm → runs (6 + two (m.hart.effAddr rs1 (immI imm)) 2)) ∧
    (∀ rd rs1 imm, i = .lw rd rs1 imm → runs (6 + two (m.hart.effAddr rs1 (immI imm)) 4)) ∧
    (∀ rs2 rs1 imm, i = .sb rs2 rs1 imm → runs 5) ∧
    (∀ rs2 rs1 imm, i = .sh rs2 rs1 imm → runs (5 + two (m.hart.effAddr rs1 (immS imm)) 2)) ∧
    (∀ rs2 rs1 imm, i = .sw rs2 rs1 imm → runs (5 + two (m.hart.effAddr rs1 (immS imm)) 4))
end

