-- ==== Sys2Proof/Laws/State.lean ====
section
/-! SUPPORT. One lemma per field per update of State, so that no later proof unfolds a record update. -/

namespace Sys2Proof.Machine

variable (s : State) (r : RegNum) (v t : Word)

/-! ### setPc, advance, hang, rst, resumeAt -/

@[simp] theorem setPc_pc : (s.setPc t).pc = t := rfl
@[simp] theorem setPc_x : (s.setPc t).x = s.x := rfl
@[simp] theorem setPc_mem : (s.setPc t).mem = s.mem := rfl
@[simp] theorem setPc_hung : (s.setPc t).hung = s.hung := rfl
@[simp] theorem setPc_cfg : (s.setPc t).cfg = s.cfg := rfl
@[simp] theorem setPc_reg : (s.setPc t).reg r = s.reg r := rfl
@[simp] theorem setPc_byte (a : Word) : (s.setPc t).byte a = s.byte a := rfl

@[simp] theorem advance_pc : s.advance.pc = s.pc + 4#32 := rfl
@[simp] theorem advance_x : s.advance.x = s.x := rfl
@[simp] theorem advance_mem : s.advance.mem = s.mem := rfl
@[simp] theorem advance_hung : s.advance.hung = s.hung := rfl
@[simp] theorem advance_cfg : s.advance.cfg = s.cfg := rfl
@[simp] theorem advance_reg : s.advance.reg r = s.reg r := rfl
@[simp] theorem advance_byte (a : Word) : s.advance.byte a = s.byte a := rfl

@[simp] theorem hang_pc : s.hang.pc = s.pc := rfl
@[simp] theorem hang_x : s.hang.x = s.x := rfl
@[simp] theorem hang_mem : s.hang.mem = s.mem := rfl
@[simp] theorem hang_hung : s.hang.hung = true := rfl
@[simp] theorem hang_cfg : s.hang.cfg = s.cfg := rfl

@[simp] theorem rst_pc : s.rst.pc = s.cfg.resetPc := rfl
@[simp] theorem rst_x : s.rst.x = s.x := rfl
@[simp] theorem rst_mem : s.rst.mem = s.mem := rfl
@[simp] theorem rst_hung : s.rst.hung = false := rfl
@[simp] theorem rst_cfg : s.rst.cfg = s.cfg := rfl

@[simp] theorem resumeAt_pc : (s.resumeAt t).pc = t := rfl
@[simp] theorem resumeAt_x : (s.resumeAt t).x = s.x := rfl
@[simp] theorem resumeAt_mem : (s.resumeAt t).mem = s.mem := rfl
@[simp] theorem resumeAt_hung : (s.resumeAt t).hung = s.hung := rfl
@[simp] theorem resumeAt_cfg : (s.resumeAt t).cfg = s.cfg := rfl

/-! ### a state with another memory -/

@[simp] theorem withMem_reg (m : Memory) : State.reg { s with mem := m } r = s.reg r := rfl

/-! ### setReg -/

@[simp] theorem setReg_zero : s.setReg 0#5 v = s := rfl

@[simp] theorem setReg_pc : (s.setReg r v).pc = s.pc := by unfold State.setReg; split <;> rfl
@[simp] theorem setReg_mem : (s.setReg r v).mem = s.mem := by unfold State.setReg; split <;> rfl
@[simp] theorem setReg_hung : (s.setReg r v).hung = s.hung := by unfold State.setReg; split <;> rfl
@[simp] theorem setReg_cfg : (s.setReg r v).cfg = s.cfg := by unfold State.setReg; split <;> rfl
@[simp] theorem setReg_byte (a : Word) : (s.setReg r v).byte a = s.byte a := by simp [State.byte]

@[simp] theorem reg_zero : s.reg 0#5 = 0#32 := rfl

/-- A register written, other than x0, reads as what was written. -/
theorem reg_setReg_self (h : r ≠ 0#5) : (s.setReg r v).reg r = v := by
  simp [State.reg, State.setReg, h]

/-- A register not written reads as before. -/
theorem reg_setReg_of_ne (q : RegNum) (h : q ≠ r) : (s.setReg r v).reg q = s.reg q := by
  have hn : r.toNat ≠ q.toNat := fun e => h (BitVec.eq_of_toNat_eq e.symm)
  unfold State.reg State.setReg
  split
  · rfl
  · split
    · rfl
    · simp [hn]

/-- Every read after a write, in one equation. -/
theorem reg_setReg (q : RegNum) : (s.setReg r v).reg q = if q = r ∧ r ≠ 0#5 then v else s.reg q := by
  by_cases hq : q = r
  · subst hq
    by_cases h0 : q = 0#5
    · subst h0; simp
    · simp [h0, reg_setReg_self]
  · simp [hq, reg_setReg_of_ne]

/-- The x0 slot is never written. -/
@[simp] theorem setReg_slot0 : (s.setReg r v).x[0] = s.x[0] := by
  unfold State.setReg
  split
  · rfl
  · rename_i h
    have hn : r.toNat ≠ 0 := fun e => h (BitVec.eq_of_toNat_eq (by simpa using e))
    simp [hn]

end Sys2Proof.Machine
end

