-- ==== Sys2Proof/Laws/Memory.lean ====
section
/-! SUPPORT. Memory as a canonical list: what a byte reads as after a write, and that every memory operation keeps the canonical form. -/

namespace Sys2Proof.Machine

/-- What the canonical form says of a non-empty memory. -/
theorem wfFrom_cons {lo a : Nat} {v : Byte} {rest : Memory} :
    Memory.wfFrom lo ((a, v) :: rest) = true ↔ lo ≤ a ∧ a < 2 ^ 32 ∧ v ≠ unlistedByte ∧ Memory.wfFrom (a + 1) rest = true := by
  simp [Memory.wfFrom, and_assoc]

/-- A canonical list from `lo` is canonical from any lower address. -/
theorem wfFrom_mono {m : Memory} {lo lo' : Nat} (h : lo' ≤ lo) (hm : Memory.wfFrom lo m = true) : Memory.wfFrom lo' m = true := by
  cases m with
  | nil => rfl
  | cons c rest =>
    obtain ⟨a, v⟩ := c
    rw [wfFrom_cons] at hm ⊢
    exact ⟨by omega, hm.2⟩

/-- Below its first address a canonical list lists nothing. -/
theorem byteAt_of_lt {m : Memory} {lo a : Nat} (hm : Memory.wfFrom lo m = true) (h : a < lo) : m.byteAt a = unlistedByte := by
  induction m generalizing lo with
  | nil => rfl
  | cons c rest ih =>
    obtain ⟨b, v⟩ := c
    rw [wfFrom_cons] at hm
    rw [Memory.byteAt, if_neg (by omega)]
    exact ih hm.2.2.2 (by omega)

/-- Setting a byte leaves every other byte as it was, in any memory. -/
theorem byteAt_setByte_of_ne (m : Memory) (a b : Nat) (v : Byte) (h : b ≠ a) : (m.setByte a v).byteAt b = m.byteAt b := by
  induction m with
  | nil =>
    unfold Memory.setByte
    split
    · rfl
    · simp [Memory.byteAt, Ne.symm h]
  | cons c rest ih =>
    obtain ⟨k, w⟩ := c
    unfold Memory.setByte
    split_ifs with h1 h2 h3 h4
    · rfl
    · simp [Memory.byteAt, Ne.symm h]
    · subst h3; simp [Memory.byteAt, Ne.symm h]
    · subst h3; simp [Memory.byteAt, Ne.symm h]
    · simp [Memory.byteAt, ih]

/-- In a canonical memory the byte set reads as what was set. -/
theorem byteAt_setByte_self {m : Memory} {lo : Nat} (hm : Memory.wfFrom lo m = true) (a : Nat) (v : Byte) : (m.setByte a v).byteAt a = v := by
  induction m generalizing lo with
  | nil =>
    unfold Memory.setByte
    split
    · next h => rw [h]; rfl
    · simp [Memory.byteAt]
  | cons c rest ih =>
    obtain ⟨k, w⟩ := c
    rw [wfFrom_cons] at hm
    unfold Memory.setByte
    split_ifs with h1 h2 h3 h4
    · rw [h2, Memory.byteAt, if_neg (by omega)]
      exact byteAt_of_lt hm.2.2.2 (by omega)
    · simp [Memory.byteAt]
    · subst h3; rw [h4]; exact byteAt_of_lt hm.2.2.2 (by omega)
    · simp [Memory.byteAt]
    · rw [Memory.byteAt, if_neg (fun e => h3 e.symm)]
      exact ih hm.2.2.2

/-- Setting a byte of the address space keeps the canonical form. -/
theorem wfFrom_setByte {m : Memory} {lo a : Nat} (v : Byte) (hm : Memory.wfFrom lo m = true) (hlo : lo ≤ a) (ha : a < 2 ^ 32) :
    Memory.wfFrom lo (m.setByte a v) = true := by
  induction m generalizing lo with
  | nil =>
    unfold Memory.setByte
    split
    · rfl
    · rw [wfFrom_cons]; exact ⟨hlo, ha, by assumption, rfl⟩
  | cons c rest ih =>
    obtain ⟨k, w⟩ := c
    have hc := wfFrom_cons.mp hm
    unfold Memory.setByte
    split_ifs with h1 h2 h3 h4
    · exact hm
    · rw [wfFrom_cons]; exact ⟨hlo, ha, h2, wfFrom_cons.mpr ⟨by omega, hc.2⟩⟩
    · exact wfFrom_mono (by omega) hc.2.2.2
    · subst h3; rw [wfFrom_cons]; exact ⟨hlo, ha, h4, hc.2.2.2⟩
    · rw [wfFrom_cons]; exact ⟨hc.1, hc.2.1, hc.2.2.1, ih hc.2.2.2 (by omega)⟩

/-- `setByte` keeps the canonical form. -/
theorem wf_setByte {m : Memory} (a : Word) (v : Byte) (hm : m.wf = true) : (m.setByte a.toNat v).wf = true :=
  wfFrom_setByte v hm (Nat.zero_le _) a.isLt

/-- `setBytes` keeps the canonical form. -/
theorem wf_setBytes (cells : List (Word × Byte)) {m : Memory} (hm : m.wf = true) : (m.setBytes cells).wf = true := by
  induction cells generalizing m with
  | nil => exact hm
  | cons c rest ih => exact ih (wf_setByte c.1 c.2 hm)

@[simp] theorem setBytes_nil (m : Memory) : m.setBytes [] = m := rfl
@[simp] theorem setBytes_cons (m : Memory) (c : Word × Byte) (rest : List (Word × Byte)) :
    m.setBytes (c :: rest) = (m.setByte c.1.toNat c.2).setBytes rest := rfl

/-- Two runs of sets are one. -/
theorem setBytes_append (m : Memory) (xs ys : List (Word × Byte)) : m.setBytes (xs ++ ys) = (m.setBytes xs).setBytes ys := by
  simp [Memory.setBytes, List.foldl_append]

/-- Addresses that are not set read as before. -/
theorem byteAt_setBytes_of_notMem (m : Memory) (cells : List (Word × Byte)) (a : Word) (h : a ∉ cells.map Prod.fst) :
    (m.setBytes cells).byteAt a.toNat = m.byteAt a.toNat := by
  induction cells generalizing m with
  | nil => rfl
  | cons c rest ih =>
    rw [List.map_cons, List.mem_cons, not_or] at h
    rw [setBytes_cons, ih _ h.2, byteAt_setByte_of_ne]
    exact fun e => h.1 (BitVec.eq_of_toNat_eq e)

/-- The memory right after reset is canonical. -/
theorem reset_mem_wf : State.reset.mem.wf = true := rfl

end Sys2Proof.Machine
end

