-- ==== Sys2Proof/Laws/Micro.lean ====
section
/-! SUPPORT. The small lemmas of the cycle layer: its updates field by field, the multiplexer codes, and what the memory interface and its slave can do in
a cycle. -/

namespace Sys2Proof.Machine

/-! ### Multiplexer and operation codes -/

@[simp] theorem Mux1Alu.ofCode_code (m : Mux1Alu) : Mux1Alu.ofCode m.code = m := by cases m <;> rfl
@[simp] theorem Mux2Alu.ofCode_code (m : Mux2Alu) : Mux2Alu.ofCode m.code = m := by cases m <;> rfl
@[simp] theorem selOpOf_zero : selOpOf 0b0000#4 = .add := rfl
@[simp] theorem applySelOp_add (a b : Word) : applySelOp .add a b = a + b := rfl

/-- mux2PC without sel1PC: the J-immediate or the B-immediate. -/
@[simp] theorem mux2Pc_relative (sel2PC : Bool) (w : Word) : mux2Pc false sel2PC w = if sel2PC then immJ (immJOf w) else immB (immBOf w) := rfl
@[simp] theorem mux2Pc_rs1 (sel2PC : Bool) (w : Word) : mux2Pc true sel2PC w = immI (immIOf w) := rfl

@[simp] theorem pcRegister_load (pc target : Word) (i : Bool) : pcRegister pc target true i = target := rfl
@[simp] theorem pcRegister_increment (pc target : Word) : pcRegister pc target false true = pc + 4#32 := rfl
@[simp] theorem pcRegister_hold (pc target : Word) : pcRegister pc target false false = pc := rfl

/-! ### The register file's ports -/

@[simp] theorem portOf_rv32i (r : RegNum) : portOf .rv32i r = r := rfl

/-- With 16 registers a port selects one of x0 to x15, whatever the field (R3). -/
theorem portOf_rv32e_lt (r : RegNum) : (portOf .rv32e r).toNat < 16 := by
  simp only [portOf, BitVec.toNat_setWidth]
  exact Nat.lt_of_le_of_lt (Nat.mod_le _ _) (BitVec.isLt _)

/-- A field below 16 selects its register, with either count. -/
theorem portOf_of_lt (n : RegCount) (r : RegNum) (h : r < 16#5) : portOf n r = r := by
  cases n
  · rfl
  · simp only [portOf, h, if_true]
    apply BitVec.eq_of_toNat_eq
    have : r.toNat < 16 := h
    simp
    omega

/-- What one cycle can do to the parts beside the control unit's answer: nothing but this, wherever it answers. -/
theorem Micro.tick_eq {m t : Micro} {pready : Bool} (h : m.tick pready = some t) :
    t.rs1 = m.readPort (rs1Of m.ir) ∧ t.rs2 = m.readPort (rs2Of m.ir) ∧
      t.mi = m.mi.next m.request pready (m.hart.mem.prdata (m.mi.bus m.request)) ∧ t.hart.mem = m.hart.mem.slave (m.mi.bus m.request) pready := by
  simp only [Micro.tick, Option.map_eq_some_iff] at h
  obtain ⟨cu, _, rfl⟩ := h
  exact ⟨rfl, rfl, rfl, rfl⟩

/-! ### The memory interface -/

section
variable (mi : MemInterface) (req : CpuRequest) (pready : Bool) (prdata : Word) (m : Memory) (wa : BitVec 30)

@[simp] theorem MemInterface.rst_fsm : mi.rst.fsm = .op1A := rfl
@[simp] theorem MemInterface.rst_addr : mi.rst.addr = mi.addr := rfl
@[simp] theorem MemInterface.rst_alignment : mi.rst.alignment = mi.alignment := rfl
@[simp] theorem MemInterface.rst_be : mi.rst.be = mi.be := rfl
@[simp] theorem MemInterface.rst_unaligned : mi.rst.unaligned = mi.unaligned := rfl
@[simp] theorem MemInterface.rst_wdata : mi.rst.wdata = mi.wdata := rfl
@[simp] theorem MemInterface.rst_rdata : mi.rst.rdata = mi.rdata := rfl
@[simp] theorem MemInterface.rst_size : mi.rst.size = mi.size := rfl
@[simp] theorem MemInterface.rst_zeroExt : mi.rst.zeroExt = mi.zeroExt := rfl
@[simp] theorem MemInterface.rst_write : mi.rst.write = mi.write := rfl

@[simp] theorem MemInterface.register_fsm : (mi.register req).fsm = mi.fsm := rfl
@[simp] theorem MemInterface.register_rdata : (mi.register req).rdata = mi.rdata := rfl
@[simp] theorem MemInterface.next_fsm : (mi.next req pready prdata).fsm = mi.nextFsm req pready := rfl
@[simp] theorem MemInterface.next_rdata : (mi.next req pready prdata).rdata = mi.nextRdata pready prdata := rfl
@[simp] theorem MemInterface.clocked_reset : mi.clocked false req pready prdata = mi.rst := rfl
@[simp] theorem MemInterface.clocked_run : mi.clocked true req pready prdata = mi.next req pready prdata := rfl

/-- PADDR gives its word address back. -/
@[simp] theorem paddrOf_wordAddr : (paddrOf wa).extractLsb' 2 30 = wa := by
  apply BitVec.eq_of_toNat_eq
  have h : (paddrOf wa).toNat = wa.toNat <<< 2 ||| (0#2).toNat := BitVec.toNat_append wa 0#2
  have := wa.isLt
  rw [BitVec.extractLsb'_toNat, h]
  simpa [Nat.shiftLeft_eq, Nat.shiftRight_eq_div_pow] using this

/-- A bus cycle without PENABLE, without PREADY, or of a read, leaves memory alone. -/
theorem Memory.slave_of_idle (bus : ApbOut) (h : (bus.penable && pready && bus.pwrite) = false) : m.slave bus pready = m := by
  simp [Memory.slave, h]

/-- The bus of the first operation of a write moves the strobed lanes of its word. -/
theorem Memory.slave_bus1 (h : mi.write = true) :
    m.slave (mi.bus1 true) true = m.setBytes (strobedCells mi.addr (mi.be.extractLsb' 0 4) (mi.wdata.extractLsb' 0 32)) := by
  simp [Memory.slave, MemInterface.bus1, pstrbOf, h]

/-- The bus of the second operation of a write moves the strobed lanes of the next word. -/
theorem Memory.slave_bus2 (h : mi.write = true) :
    m.slave (mi.bus2 true) true = m.setBytes (strobedCells (mi.addr + 1#30) (mi.be.extractLsb' 4 4) (mi.wdata.extractLsb' 32 32)) := by
  simp [Memory.slave, MemInterface.bus2, pstrbOf, h]

end

/-! ### Reset -/

section
variable (m : Micro) (pready landed : Bool) (inum : Option (BitVec 8)) (cu : ControlUnit)

@[simp] theorem ControlUnit.clocked_reset : cu.clocked false inum pready = some ControlUnit.reset := rfl
@[simp] theorem ControlUnit.reset_tick : ControlUnit.reset.tick inum pready = some ControlUnit.released := rfl
@[simp] theorem ControlUnit.clocked_run : cu.clocked true inum pready = cu.tick inum pready := rfl
@[simp] theorem Micro.rst_cu : m.rst.cu = ControlUnit.reset := rfl
@[simp] theorem Micro.rst_mi : m.rst.mi = m.mi.rst := rfl
@[simp] theorem Micro.rst_ir : m.rst.ir = m.ir := rfl
@[simp] theorem Micro.rst_rs1 : m.rst.rs1 = m.rs1 := rfl
@[simp] theorem Micro.rst_rs2 : m.rst.rs2 = m.rs2 := rfl
@[simp] theorem Micro.rst_hart : m.rst.hart = m.hart.rst := rfl
@[simp] theorem Micro.clocked_run : m.clocked true pready landed = m.tick pready := rfl
@[simp] theorem Micro.clocked_reset : m.clocked false pready false = some m.rst := rfl

end

/-! ### One request at a time (R266) -/

/-- The ROM word is that of the position before the counter, and no operation is in progress outside a position that waits; or the hart is held in reset. -/
abbrev Micro.sequenced (m : Micro) : Prop :=
  m.cu = ControlUnit.reset ∧ m.mi.fsm = .op1A ∨
    rom (m.cu.uCycle - 1#8) = some m.cu.rom ∧ (romWaitMEM m.cu.rom = true ∨ m.mi.fsm = .op1A)

/-- A position that requests ends no phase, does not wait, and is followed by one that waits. -/
theorem rom_request (a : BitVec 8) (w : RomWord) (h : rom a = some w) (hr : (romRD w || romWR w) = true) :
    romEOI w = false ∧ romEOF w = false ∧ romWaitMEM w = false ∧ ∃ v, rom (a + 1#8) = some v ∧ romWaitMEM v = true := by
  have key : ∀ a : BitVec 8, (match rom a with
      | none => true
      | some w => !(romRD w || romWR w) || (!romEOI w && !romEOF w && !romWaitMEM w && ((rom (a + 1#8)).map romWaitMEM == some true))) = true := by
    decide
  have k := key a
  simp only [h, hr, Bool.not_true, Bool.false_or, Bool.and_eq_true, Bool.not_eq_true', beq_iff_eq, Option.map_eq_some_iff] at k
  exact ⟨k.1.1.1, k.1.1.2, k.1.2, k.2⟩

/-- A sequenced hart requests only while the memory interface is idle: no request is issued while another is in progress. -/
theorem Micro.request_idle {m : Micro} (h : m.sequenced) (hr : (m.request.rd || m.request.wr) = true) : m.mi.fsm = .op1A := by
  rcases h with ⟨_, hf⟩ | ⟨hw, hf⟩
  · exact hf
  · rcases hf with hf | hf
    · have := (rom_request _ _ hw hr).2.2.1
      simp_all
    · exact hf

/-- The cycle in which busy falls leaves the memory interface idle (R212, R266). -/
theorem MemInterface.idle_of_not_busy {mi : MemInterface} {req : CpuRequest} {pready : Bool} (h : mi.busy req pready = false) :
    mi.nextFsm req pready = .op1A := by
  cases hf : mi.fsm <;> simp_all [MemInterface.busy, MemInterface.nextFsm]

/-- An enabled control unit moves to the ROM word of the position before its new count. -/
theorem ControlUnit.tick_rom {cu t : ControlUnit} {inum : Option (BitVec 8)} {busy : Bool} (he : cu.enable busy = true)
    (h : cu.tick inum busy = some t) : Sys2Proof.Machine.rom (t.uCycle - 1#8) = some t.rom := by
  simp only [ControlUnit.tick, he, if_true] at h
  split at h
  · cases h
  · obtain ⟨w, hw, rfl⟩ := Option.map_eq_some_iff.mp h
    rw [← hw]
    congr 1
    simp only [ControlUnit.nextCount, ControlUnit.uAddr]
    split
    · rfl
    · split <;> simp

/-- Every cycle keeps the hart sequenced. -/
theorem Micro.sequenced_tick {m t : Micro} {pready : Bool} (hs : m.sequenced) (h : m.tick pready = some t) : t.sequenced := by
  have hmi := (Micro.tick_eq h).2.2.1
  simp only [Micro.tick, Option.map_eq_some_iff] at h
  obtain ⟨cu, hcu, rfl⟩ := h
  simp only [MemInterface.out] at hcu
  by_cases he : m.cu.enable (m.mi.busy m.request pready) = true
  · right
    refine ⟨ControlUnit.tick_rom he hcu, ?_⟩
    by_cases hr : (m.request.rd || m.request.wr) = true
    · left
      rcases hs with ⟨hc, _⟩ | ⟨hw, _⟩
      · simp [Micro.request, hc, ControlUnit.reset, romRD, romWR] at hr
      · obtain ⟨h1, h2, h3, v, hv, hv'⟩ := rom_request _ _ hw hr
        simp only [ControlUnit.tick, he, h1, h2, if_true, Bool.false_and, Bool.false_eq_true, if_false, ControlUnit.uAddr,
          Option.map_eq_some_iff] at hcu
        obtain ⟨w, hw', rfl⟩ := hcu
        simp_all
    · right
      change (m.mi.cycle m.hart.mem m.request pready).1.fsm = .op1A
      change m.mi.nextFsm m.request pready = .op1A
      by_cases hwait : romWaitMEM m.cu.rom = true
      · apply MemInterface.idle_of_not_busy
        simpa [ControlUnit.enable, hwait] using he
      · have hf : m.mi.fsm = .op1A := by
          rcases hs with ⟨_, hf⟩ | ⟨_, hf⟩
          · exact hf
          · exact hf.resolve_left hwait
        simp [MemInterface.nextFsm, hf, hr]
  · have hc : cu = m.cu := by
      simp only [ControlUnit.tick, he] at hcu
      simpa using hcu.symm
    subst hc
    right
    rcases hs with ⟨hc, _⟩ | ⟨hw, _⟩
    · simp [ControlUnit.enable, hc, ControlUnit.reset, romWaitMEM] at he
    · refine ⟨hw, .inl ?_⟩
      simp [ControlUnit.enable] at he
      exact he.1

/-- The first cycle of a fetch is sequenced, and so is a hart held in reset. -/
theorem Micro.sequenced_atFetch {m : Micro} (h : m.atFetch) : m.sequenced := by
  obtain ⟨h1, h2, h3⟩ := h
  exact .inr ⟨by rw [h1, h2]; rfl, .inr h3⟩

theorem Micro.sequenced_rst (m : Micro) : m.rst.sequenced := .inl ⟨rfl, rfl⟩

end Sys2Proof.Machine
end

