-- ==== Sys2Proof/Laws/Ops.lean ====
section
/-! SUPPORT. One lemma per shared operation that says everything it can do; later proofs cite these instead of unfolding. -/

namespace Sys2Proof.Machine

/-! ### Replies -/

@[simp] theorem bind_ok {α β : Type} (v : α) (k : α → Reply β) : (Reply.ok v).bind k = k v := rfl
@[simp] theorem bind_stuck {α β : Type} (l : State) (k : α → Reply β) : (Reply.stuck l : Reply α).bind k = .stuck l := rfl
@[simp] theorem bind_device {α β : Type} (a : Word) (k : α → Reply β) : (Reply.device a : Reply α).bind k = .device a := rfl
@[simp] theorem toResult_ok {α : Type} (v : α) (k : α → Result) : (Reply.ok v).toResult k = k v := rfl
@[simp] theorem toResult_stuck {α : Type} (l : State) (k : α → Result) : (Reply.stuck l : Reply α).toResult k = .fault (.stuck l) := rfl
@[simp] theorem toResult_device {α : Type} (a : Word) (k : α → Result) :
    (Reply.device a : Reply α).toResult k = .refused (.deviceAccess a) := rfl

/-- A request that completed went through all its parts. -/
theorem bind_eq_ok {α β : Type} {r : Reply α} {k : α → Reply β} {v : β} (h : r.bind k = .ok v) : ∃ u, r = .ok u ∧ k u = .ok v := by
  cases r with
  | ok u => exact ⟨u, rfl, h⟩
  | stuck l => simp at h
  | device a => simp at h

/-- An instruction that completed had its request completed. -/
theorem toResult_eq_next {α : Type} {r : Reply α} {k : α → Result} {t : State} (h : r.toResult k = .next t) :
    ∃ u, r = .ok u ∧ k u = .next t := by
  cases r with
  | ok u => exact ⟨u, rfl, h⟩
  | stuck l => simp [Reply.toResult] at h
  | device a => simp [Reply.toResult] at h

/-! ### The bus -/

/-- An operation is answered as memory exactly when every byte of it is memory. -/
theorem busAnswer_eq_memory (m : MemMap) (as : List Word) :
    busAnswer m as = .memory ↔ ∀ a ∈ as, m.kindAt a.toNat = some .memory := by
  induction as with
  | nil => simp [busAnswer]
  | cons a rest ih =>
    simp only [busAnswer, List.forall_mem_cons, ← ih]
    cases hk : m.kindAt a.toNat with
    | none => simp
    | some k => cases k <;> cases busAnswer m rest <;> simp

/-- An operation is not answered exactly when some byte of it is outside MemMap. -/
theorem busAnswer_eq_nobody (m : MemMap) (as : List Word) : busAnswer m as = .nobody ↔ ∃ a ∈ as, m.kindAt a.toNat = none := by
  induction as with
  | nil => simp [busAnswer]
  | cons a rest ih =>
    simp only [busAnswer, List.exists_mem_cons_iff, ← ih]
    cases hk : m.kindAt a.toNat with
    | none => simp
    | some k => cases k <;> cases busAnswer m rest <;> simp

/-- A read operation that completed read the bytes at its addresses, all of them memory. -/
theorem busRead_eq_ok {s : State} {as : List Word} {bs : List Byte} (h : s.busRead as = .ok bs) :
    bs = as.map s.byte ∧ ∀ a ∈ as, s.cfg.memMap.kindAt a.toNat = some .memory := by
  unfold State.busRead at h
  split at h
  · next hb => exact ⟨(Reply.ok.inj h).symm, (busAnswer_eq_memory _ _).mp hb⟩
  · simp at h
  · simp at h

/-- A write operation that completed set its bytes, all of them memory, and changed nothing else. -/
theorem busWrite_eq_ok {s t : State} {cells : List (Word × Byte)} (h : s.busWrite cells = .ok t) :
    t = { s with mem := s.mem.setBytes cells } ∧ ∀ a ∈ cells.map Prod.fst, s.cfg.memMap.kindAt a.toNat = some .memory := by
  unfold State.busWrite at h
  split at h
  · next hb => exact ⟨(Reply.ok.inj h).symm, (busAnswer_eq_memory _ _).mp hb⟩
  · simp at h
  · simp at h

/-- A read operation on memory completes. -/
theorem busRead_of_memory {s : State} {as : List Word} (h : ∀ a ∈ as, s.cfg.memMap.kindAt a.toNat = some .memory) :
    s.busRead as = .ok (as.map s.byte) := by
  unfold State.busRead
  rw [(busAnswer_eq_memory _ _).mpr h]

/-- A write operation on memory completes. -/
theorem busWrite_of_memory {s : State} {cells : List (Word × Byte)} (h : ∀ a ∈ cells.map Prod.fst, s.cfg.memMap.kindAt a.toNat = some .memory) :
    s.busWrite cells = .ok { s with mem := s.mem.setBytes cells } := by
  unfold State.busWrite
  rw [(busAnswer_eq_memory _ _).mpr h]

/-! ### MemRead and MemWrite -/

@[simp] theorem length_accessAddrs (a : Word) (n : Nat) : (accessAddrs a n).length = n := by simp [accessAddrs]
@[simp] theorem length_leBytes (n : Nat) (v : Word) : (leBytes n v).length = n := by simp [leBytes]

@[simp] theorem storeCells_addrs (a : Word) (n : Nat) (v : Word) : (storeCells a n v).map Prod.fst = accessAddrs a n := by
  simp [storeCells, List.map_fst_zip]

/-- `MemRead` on memory reads the bytes at its addresses, little-endian, whatever the alignment. -/
theorem memRead_of_memory {s : State} {a : Word} {n : Nat} (h : s.answersMemory a n) :
    s.memRead a n = .ok (leWord ((accessAddrs a n).map s.byte)) := by
  unfold State.memRead
  rw [busRead_of_memory fun b hb => h b (List.mem_of_mem_take hb), bind_ok,
    busRead_of_memory fun b hb => h b (List.mem_of_mem_drop hb), bind_ok, ← List.map_append, List.take_append_drop]

/-- A `MemRead` that completed. -/
theorem memRead_eq_ok {s : State} {a : Word} {n : Nat} {v : Word} (h : s.memRead a n = .ok v) :
    v = leWord ((accessAddrs a n).map s.byte) ∧ s.answersMemory a n := by
  obtain ⟨lo, h1, h2⟩ := bind_eq_ok h
  obtain ⟨hi, h3, h4⟩ := bind_eq_ok h2
  have hm : s.answersMemory a n := by
    intro b hb
    rw [← List.take_append_drop (firstOpBytes a n) (accessAddrs a n), List.mem_append] at hb
    exact hb.elim ((busRead_eq_ok h1).2 b) ((busRead_eq_ok h3).2 b)
  rw [memRead_of_memory hm] at h
  exact ⟨(Reply.ok.inj h).symm, hm⟩

/-- `MemWrite` on memory sets its bytes and changes nothing else. -/
theorem memWrite_of_memory {s : State} {a : Word} {n : Nat} (v : Word) (h : s.answersMemory a n) :
    s.memWrite a n v = .ok { s with mem := s.mem.setBytes (storeCells a n v) } := by
  have hm : ∀ b ∈ (storeCells a n v).map Prod.fst, s.cfg.memMap.kindAt b.toNat = some .memory := by simpa using h
  unfold State.memWrite
  rw [busWrite_of_memory fun b hb => hm b (List.map_subset _ (List.take_subset _ _) hb), bind_ok,
    busWrite_of_memory (s := { s with mem := s.mem.setBytes ((storeCells a n v).take (firstOpBytes a n)) }) fun b hb =>
      hm b (List.map_subset _ (List.drop_subset _ _) hb)]
  simp only [← setBytes_append, List.take_append_drop]

/-- A `MemWrite` that completed. -/
theorem memWrite_eq_ok {s t : State} {a : Word} {n : Nat} {v : Word} (h : s.memWrite a n v = .ok t) :
    t = { s with mem := s.mem.setBytes (storeCells a n v) } ∧ s.answersMemory a n := by
  obtain ⟨u, h1, h2⟩ := bind_eq_ok h
  obtain ⟨rfl, k1⟩ := busWrite_eq_ok h1
  have k2 := (busWrite_eq_ok h2).2
  have hm : s.answersMemory a n := by
    intro b hb
    rw [← storeCells_addrs a n v, ← List.take_append_drop (firstOpBytes a n) (storeCells a n v), List.map_append, List.mem_append] at hb
    exact hb.elim (k1 b) (k2 b)
  rw [memWrite_of_memory v hm] at h
  exact ⟨(Reply.ok.inj h).symm, hm⟩

/-! ### How instructions end -/

/-- `writeBack` always completes. -/
theorem writeBack_eq_next (s : State) (rd : RegNum) (v : Word) : s.writeBack rd v = .next ((s.setReg rd v).advance) := rfl

/-- `raise` always stops, at the instruction's own pc. -/
theorem raise_eq_fault (s : State) (e : Exception) : s.raise e = .fault (.trap e s.pc) := rfl

/-- A transfer that completed went to its target, a multiple of 4 unless FETCH_MISALIGNED = split. -/
theorem transfer_eq_next {s t u : State} {target : Word} (h : s.transfer target t = .next u) :
    u = t.setPc target ∧ (s.cfg.fetchMisaligned = .trap → target.extractLsb' 0 2 = 0#2) := by
  unfold State.transfer at h
  split at h
  · simp [State.raise] at h
  · next hc =>
    refine ⟨(Host.Outcome.next.inj h).symm, fun ht => ?_⟩
    by_contra hne
    exact hc ⟨ht, hne⟩

/-- A transfer that stopped raised InstructionAddressMisaligned. -/
theorem transfer_eq_fault {s t : State} {target : Word} {f : Fault} (h : s.transfer target t = .fault f) :
    f = .trap (.instructionAddressMisaligned target) s.pc ∧ s.cfg.fetchMisaligned = .trap ∧ target.extractLsb' 0 2 ≠ 0#2 := by
  unfold State.transfer at h
  split at h
  · next hc => exact ⟨(Host.Outcome.fault.inj h).symm, hc⟩
  · simp at h

/-- A branch that completed either advanced, when not taken, or went to its target. -/
theorem branch_eq_next {s u : State} {taken : Bool} {off : BitVec 13} (h : s.branch taken off = .next u) :
    (taken = false ∧ u = s.advance) ∨
      (taken = true ∧ u = s.setPc (s.pc + immB off) ∧ (s.cfg.fetchMisaligned = .trap → (s.pc + immB off).extractLsb' 0 2 = 0#2)) := by
  cases taken with
  | false => exact .inl ⟨rfl, (Host.Outcome.next.inj h).symm⟩
  | true => exact .inr ⟨rfl, transfer_eq_next h⟩

/-- A load that completed wrote the extended value to rd and advanced. -/
theorem load_eq_next {s t : State} {rd rs1 : RegNum} {imm : BitVec 12} {n : Nat} {ext : Word → Word} (h : s.load rd rs1 imm n ext = .next t) :
    t = (s.setReg rd (ext (leWord ((accessAddrs (s.effAddr rs1 (immI imm)) n).map s.byte)))).advance ∧
      s.answersMemory (s.effAddr rs1 (immI imm)) n := by
  obtain ⟨v, h1, h2⟩ := toResult_eq_next h
  obtain ⟨rfl, hm⟩ := memRead_eq_ok h1
  exact ⟨(Host.Outcome.next.inj h2).symm, hm⟩

/-- A store that completed set its bytes and advanced. -/
theorem store_eq_next {s t : State} {rs2 rs1 : RegNum} {imm : BitVec 12} {n : Nat} (h : s.store rs2 rs1 imm n = .next t) :
    t = State.advance { s with mem := s.mem.setBytes (storeCells (s.effAddr rs1 (immS imm)) n (s.reg rs2)) } ∧
      s.answersMemory (s.effAddr rs1 (immS imm)) n := by
  obtain ⟨v, h1, h2⟩ := toResult_eq_next h
  obtain ⟨rfl, hm⟩ := memWrite_eq_ok h1
  exact ⟨(Host.Outcome.next.inj h2).symm, hm⟩

/-- A word that ran to a next state is an instruction, and the state is that instruction's. -/
theorem run_eq_next {s t : State} {w : Word} (h : s.run w = .next t) :
    ∃ i, decode s.cfg.regCount s.cfg.decodeMode w = .instr i ∧ exec i s = .next t := by
  unfold State.run at h
  split at h
  · next i hd => exact ⟨i, hd, h⟩
  · simp [State.raise] at h
  · simp at h

/-- Everything a step that completed did: the hart did not hang, the fetch was answered, the word was an instruction, and it completed. -/
theorem step_eq_next {s t : State} (h : step s = .next t) :
    s.hung = false ∧ ∃ w i, s.fetch = .ok w ∧ decode s.cfg.regCount s.cfg.decodeMode w = .instr i ∧ exec i s = .next t := by
  unfold step at h
  split at h
  · simp at h
  · next hh =>
    obtain ⟨w, h1, h2⟩ := toResult_eq_next h
    obtain ⟨i, h3, h4⟩ := run_eq_next h2
    exact ⟨by simpa using hh, w, i, h1, h3, h4⟩

end Sys2Proof.Machine
end

