-- ==== Sys2Proof/Laws/PerInstr.lean ====
section
/-! SUPPORT. Per instruction: its encoded word is selected by its own row of the opcode table. -/

namespace Sys2Proof.Laws.EncodeMatchesRow

/-- The word `encode` gives matches, under the strict mask, the row of spec/opcode_table.json that has the instruction's mnemonic (R80, R81). -/
def Statement (i : Instr) : Prop := ∃ r ∈ opcodeTable, r.mnemonic = i.mnemonic ∧ r.selects (encode i)

theorem lui (rd : RegNum) (imm20 : BitVec 20) : Statement (.lui rd imm20) :=
  ⟨⟨"LUI", 0x00000037#32, 0x0000007F#32, 0x00000034#32, 0x0000007C#32, 0x14#8⟩, by decide, rfl, (mask_encU ..).trans (by decide)⟩

theorem auipc (rd : RegNum) (imm20 : BitVec 20) : Statement (.auipc rd imm20) :=
  ⟨⟨"AUIPC", 0x00000017#32, 0x0000007F#32, 0x00000014#32, 0x0000007C#32, 0x10#8⟩, by decide, rfl, (mask_encU ..).trans (by decide)⟩

theorem jal (rd : RegNum) (offset : BitVec 21) : Statement (.jal rd offset) :=
  ⟨⟨"JAL", 0x0000006F#32, 0x0000007F#32, 0x0000006C#32, 0x0000007C#32, 0x1C#8⟩, by decide, rfl, (mask_encJ ..).trans (by decide)⟩

theorem jalr (rd rs1 : RegNum) (imm : BitVec 12) : Statement (.jalr rd rs1 imm) :=
  ⟨⟨"JALR", 0x00000067#32, 0x0000707F#32, 0x00000064#32, 0x0000007C#32, 0x18#8⟩, by decide, rfl, (mask_encI ..).trans (by decide)⟩

theorem beq (rs1 rs2 : RegNum) (offset : BitVec 13) : Statement (.beq rs1 rs2 offset) :=
  ⟨⟨"BEQ", 0x00000063#32, 0x0000707F#32, 0x00000060#32, 0x0000707C#32, 0x20#8⟩, by decide, rfl, (mask_encB ..).trans (by decide)⟩

theorem bne (rs1 rs2 : RegNum) (offset : BitVec 13) : Statement (.bne rs1 rs2 offset) :=
  ⟨⟨"BNE", 0x00001063#32, 0x0000707F#32, 0x00001060#32, 0x0000707C#32, 0x24#8⟩, by decide, rfl, (mask_encB ..).trans (by decide)⟩

theorem blt (rs1 rs2 : RegNum) (offset : BitVec 13) : Statement (.blt rs1 rs2 offset) :=
  ⟨⟨"BLT", 0x00004063#32, 0x0000707F#32, 0x00004060#32, 0x0000707C#32, 0x28#8⟩, by decide, rfl, (mask_encB ..).trans (by decide)⟩

theorem bge (rs1 rs2 : RegNum) (offset : BitVec 13) : Statement (.bge rs1 rs2 offset) :=
  ⟨⟨"BGE", 0x00005063#32, 0x0000707F#32, 0x00005060#32, 0x0000707C#32, 0x2C#8⟩, by decide, rfl, (mask_encB ..).trans (by decide)⟩

theorem bltu (rs1 rs2 : RegNum) (offset : BitVec 13) : Statement (.bltu rs1 rs2 offset) :=
  ⟨⟨"BLTU", 0x00006063#32, 0x0000707F#32, 0x00006060#32, 0x0000707C#32, 0x30#8⟩, by decide, rfl, (mask_encB ..).trans (by decide)⟩

theorem bgeu (rs1 rs2 : RegNum) (offset : BitVec 13) : Statement (.bgeu rs1 rs2 offset) :=
  ⟨⟨"BGEU", 0x00007063#32, 0x0000707F#32, 0x00007060#32, 0x0000707C#32, 0x34#8⟩, by decide, rfl, (mask_encB ..).trans (by decide)⟩

theorem lb (rd rs1 : RegNum) (imm : BitVec 12) : Statement (.lb rd rs1 imm) :=
  ⟨⟨"LB", 0x00000003#32, 0x0000707F#32, 0x00000000#32, 0x0000707C#32, 0x08#8⟩, by decide, rfl, (mask_encI ..).trans (by decide)⟩

theorem lh (rd rs1 : RegNum) (imm : BitVec 12) : Statement (.lh rd rs1 imm) :=
  ⟨⟨"LH", 0x00001003#32, 0x0000707F#32, 0x00001000#32, 0x0000707C#32, 0x08#8⟩, by decide, rfl, (mask_encI ..).trans (by decide)⟩

theorem lw (rd rs1 : RegNum) (imm : BitVec 12) : Statement (.lw rd rs1 imm) :=
  ⟨⟨"LW", 0x00002003#32, 0x0000707F#32, 0x00002000#32, 0x0000207C#32, 0x08#8⟩, by decide, rfl, (mask_encI ..).trans (by decide)⟩

theorem lbu (rd rs1 : RegNum) (imm : BitVec 12) : Statement (.lbu rd rs1 imm) :=
  ⟨⟨"LBU", 0x00004003#32, 0x0000707F#32, 0x00004000#32, 0x0000707C#32, 0x08#8⟩, by decide, rfl, (mask_encI ..).trans (by decide)⟩

theorem lhu (rd rs1 : RegNum) (imm : BitVec 12) : Statement (.lhu rd rs1 imm) :=
  ⟨⟨"LHU", 0x00005003#32, 0x0000707F#32, 0x00005000#32, 0x0000707C#32, 0x08#8⟩, by decide, rfl, (mask_encI ..).trans (by decide)⟩

theorem sb (rs2 rs1 : RegNum) (imm : BitVec 12) : Statement (.sb rs2 rs1 imm) :=
  ⟨⟨"SB", 0x00000023#32, 0x0000707F#32, 0x00000020#32, 0x0000307C#32, 0x0C#8⟩, by decide, rfl, (mask_encS ..).trans (by decide)⟩

theorem sh (rs2 rs1 : RegNum) (imm : BitVec 12) : Statement (.sh rs2 rs1 imm) :=
  ⟨⟨"SH", 0x00001023#32, 0x0000707F#32, 0x00001020#32, 0x0000307C#32, 0x0C#8⟩, by decide, rfl, (mask_encS ..).trans (by decide)⟩

theorem sw (rs2 rs1 : RegNum) (imm : BitVec 12) : Statement (.sw rs2 rs1 imm) :=
  ⟨⟨"SW", 0x00002023#32, 0x0000707F#32, 0x00002020#32, 0x0000207C#32, 0x0C#8⟩, by decide, rfl, (mask_encS ..).trans (by decide)⟩

theorem addi (rd rs1 : RegNum) (imm : BitVec 12) : Statement (.addi rd rs1 imm) :=
  ⟨⟨"ADDI", 0x00000013#32, 0x0000707F#32, 0x00000010#32, 0x0000707C#32, 0x40#8⟩, by decide, rfl, (mask_encI ..).trans (by decide)⟩

theorem slti (rd rs1 : RegNum) (imm : BitVec 12) : Statement (.slti rd rs1 imm) :=
  ⟨⟨"SLTI", 0x00002013#32, 0x0000707F#32, 0x00002010#32, 0x0000707C#32, 0x48#8⟩, by decide, rfl, (mask_encI ..).trans (by decide)⟩

theorem sltiu (rd rs1 : RegNum) (imm : BitVec 12) : Statement (.sltiu rd rs1 imm) :=
  ⟨⟨"SLTIU", 0x00003013#32, 0x0000707F#32, 0x00003010#32, 0x0000707C#32, 0x4C#8⟩, by decide, rfl, (mask_encI ..).trans (by decide)⟩

theorem xori (rd rs1 : RegNum) (imm : BitVec 12) : Statement (.xori rd rs1 imm) :=
  ⟨⟨"XORI", 0x00004013#32, 0x0000707F#32, 0x00004010#32, 0x0000707C#32, 0x50#8⟩, by decide, rfl, (mask_encI ..).trans (by decide)⟩

theorem ori (rd rs1 : RegNum) (imm : BitVec 12) : Statement (.ori rd rs1 imm) :=
  ⟨⟨"ORI", 0x00006013#32, 0x0000707F#32, 0x00006010#32, 0x0000707C#32, 0x5C#8⟩, by decide, rfl, (mask_encI ..).trans (by decide)⟩

theorem andi (rd rs1 : RegNum) (imm : BitVec 12) : Statement (.andi rd rs1 imm) :=
  ⟨⟨"ANDI", 0x00007013#32, 0x0000707F#32, 0x00007010#32, 0x0000707C#32, 0x60#8⟩, by decide, rfl, (mask_encI ..).trans (by decide)⟩

theorem slli (rd rs1 : RegNum) (shamt : BitVec 5) : Statement (.slli rd rs1 shamt) :=
  ⟨⟨"SLLI", 0x00001013#32, 0xFE00707F#32, 0x00001010#32, 0x0000707C#32, 0x44#8⟩, by decide, rfl, (mask_encR ..).trans (by decide)⟩

theorem srli (rd rs1 : RegNum) (shamt : BitVec 5) : Statement (.srli rd rs1 shamt) :=
  ⟨⟨"SRLI", 0x00005013#32, 0xFE00707F#32, 0x00005010#32, 0x4000707C#32, 0x54#8⟩, by decide, rfl, (mask_encR ..).trans (by decide)⟩

theorem srai (rd rs1 : RegNum) (shamt : BitVec 5) : Statement (.srai rd rs1 shamt) :=
  ⟨⟨"SRAI", 0x40005013#32, 0xFE00707F#32, 0x40005010#32, 0x4000707C#32, 0x58#8⟩, by decide, rfl, (mask_encR ..).trans (by decide)⟩

theorem add (rd rs1 rs2 : RegNum) : Statement (.add rd rs1 rs2) :=
  ⟨⟨"ADD", 0x00000033#32, 0xFE00707F#32, 0x00000030#32, 0x4000707C#32, 0x64#8⟩, by decide, rfl, (mask_encR ..).trans (by decide)⟩

theorem sub (rd rs1 rs2 : RegNum) : Statement (.sub rd rs1 rs2) :=
  ⟨⟨"SUB", 0x40000033#32, 0xFE00707F#32, 0x40000030#32, 0x4000707C#32, 0x68#8⟩, by decide, rfl, (mask_encR ..).trans (by decide)⟩

theorem sll (rd rs1 rs2 : RegNum) : Statement (.sll rd rs1 rs2) :=
  ⟨⟨"SLL", 0x00001033#32, 0xFE00707F#32, 0x00001030#32, 0x0000707C#32, 0x6C#8⟩, by decide, rfl, (mask_encR ..).trans (by decide)⟩

theorem slt (rd rs1 rs2 : RegNum) : Statement (.slt rd rs1 rs2) :=
  ⟨⟨"SLT", 0x00002033#32, 0xFE00707F#32, 0x00002030#32, 0x0000707C#32, 0x70#8⟩, by decide, rfl, (mask_encR ..).trans (by decide)⟩

theorem sltu (rd rs1 rs2 : RegNum) : Statement (.sltu rd rs1 rs2) :=
  ⟨⟨"SLTU", 0x00003033#32, 0xFE00707F#32, 0x00003030#32, 0x0000707C#32, 0x74#8⟩, by decide, rfl, (mask_encR ..).trans (by decide)⟩

theorem xor (rd rs1 rs2 : RegNum) : Statement (.xor rd rs1 rs2) :=
  ⟨⟨"XOR", 0x00004033#32, 0xFE00707F#32, 0x00004030#32, 0x0000707C#32, 0x78#8⟩, by decide, rfl, (mask_encR ..).trans (by decide)⟩

theorem srl (rd rs1 rs2 : RegNum) : Statement (.srl rd rs1 rs2) :=
  ⟨⟨"SRL", 0x00005033#32, 0xFE00707F#32, 0x00005030#32, 0x4000707C#32, 0x7C#8⟩, by decide, rfl, (mask_encR ..).trans (by decide)⟩

theorem sra (rd rs1 rs2 : RegNum) : Statement (.sra rd rs1 rs2) :=
  ⟨⟨"SRA", 0x40005033#32, 0xFE00707F#32, 0x40005030#32, 0x4000707C#32, 0x80#8⟩, by decide, rfl, (mask_encR ..).trans (by decide)⟩

theorem or (rd rs1 rs2 : RegNum) : Statement (.or rd rs1 rs2) :=
  ⟨⟨"OR", 0x00006033#32, 0xFE00707F#32, 0x00006030#32, 0x0000707C#32, 0x84#8⟩, by decide, rfl, (mask_encR ..).trans (by decide)⟩

theorem and (rd rs1 rs2 : RegNum) : Statement (.and rd rs1 rs2) :=
  ⟨⟨"AND", 0x00007033#32, 0xFE00707F#32, 0x00007030#32, 0x0000707C#32, 0x88#8⟩, by decide, rfl, (mask_encR ..).trans (by decide)⟩

theorem fence (fm pred succ : BitVec 4) (rs1 rd : RegNum) : Statement (.fence fm pred succ rs1 rd) :=
  ⟨⟨"FENCE", 0x0000000F#32, 0x0000707F#32, 0x0000000C#32, 0x0000707C#32, 0x04#8⟩, by decide, rfl, (mask_encI ..).trans (by decide)⟩

theorem ecall : Statement (.ecall) :=
  ⟨⟨"ECALL", 0x00000073#32, 0xFFFFFFFF#32, 0x00000070#32, 0x0010707C#32, 0x38#8⟩, by decide, rfl, rfl⟩

theorem ebreak : Statement (.ebreak) :=
  ⟨⟨"EBREAK", 0x00100073#32, 0xFFFFFFFF#32, 0x00100070#32, 0x0010707C#32, 0x3C#8⟩, by decide, rfl, rfl⟩

end Sys2Proof.Laws.EncodeMatchesRow
end

