-- ==== Sys2Proof/Tests/Slice0.lean ====
section
/-! SUPPORT. Tests: each row's word, and one step of each instruction, with the worked example of its rule; the checks of WellFormed; the RV32E and
cu_partial decodes; and, for every obligation with hypotheses, a state and operands that meet them. -/

namespace Sys2Proof.Tests

open Sys2Proof Sys2Proof.Machine

/-- A machine with configuration `c`, the word `w` at `pc`, and the listed registers and bytes. -/
def boot (c : Config) (pc w : Word) (rs : List (RegNum × Word)) (ms : List (Word × Byte)) : State :=
  let s := rs.foldl (fun s r => s.setReg r.1 r.2) { State.reset with pc := pc, cfg := c }
  { s with mem := (s.mem.setBytes ms).setBytes (storeCells pc 4 w) }

/-- A register and pc after an answer that is a next state. -/
def after (q : RegNum) (r : Result) : Option (Word × Word) := (Result.state? r).map fun t => (t.reg q, t.pc)

/-- Some bytes, and pc, after an answer that is a next state. -/
def bytesAfter (as : List Word) (r : Result) : Option (List Byte × Word) := (Result.state? r).map fun t => (as.map t.byte, t.pc)

/-! ### WellFormed: an ill-formed term for each check -/

theorem test_wf_rd : (Instr.addi 16 0 0#12).wellFormed .rv32e = false := by decide
theorem test_wf_rs1 : (Instr.addi 1 16 0#12).wellFormed .rv32e = false := by decide
theorem test_wf_rs2 : (Instr.add 0 0 31).wellFormed .rv32e = false := by decide
theorem test_wf_store_rs2 : (Instr.sw 31 0 0#12).wellFormed .rv32e = false := by decide
theorem test_wf_branch_odd : (Instr.beq 1 2 9#13).wellFormed .rv32i = false := by decide
theorem test_wf_jal_odd : (Instr.jal 1 9#21).wellFormed .rv32i = false := by decide
/-- The boundary terms pass: register 15 under RV32E, FENCE with any field (R90), the widest offsets. -/
theorem test_wf_accepts : (Instr.add 15 15 15).wellFormed .rv32e = true ∧ (Instr.fence 15 15 15 31 31).wellFormed .rv32e = true ∧
    (Instr.jal 31 0x100000#21).wellFormed .rv32i = true ∧ (Instr.bgeu 31 31 0xFFE#13).wellFormed .rv32i = true := by decide

/-! ### Decoding: the word of each rule's example (40_op_imm.md to 47_misc_system.md) -/

theorem test_decode_addi : decodeTableWord 32 0xFFF30293 = some (.addi 5 6 0xFFF#12) := by decide
theorem test_decode_slti : decodeTableWord 32 0xFFF32293 = some (.slti 5 6 0xFFF#12) := by decide
theorem test_decode_sltiu : decodeTableWord 32 0xFFF33293 = some (.sltiu 5 6 0xFFF#12) := by decide
theorem test_decode_andi : decodeTableWord 32 0x0F037293 = some (.andi 5 6 0x0F0#12) := by decide
theorem test_decode_ori : decodeTableWord 32 0xF0036293 = some (.ori 5 6 0xF00#12) := by decide
theorem test_decode_xori : decodeTableWord 32 0xFFF34293 = some (.xori 5 6 0xFFF#12) := by decide
theorem test_decode_slli : decodeTableWord 32 0x01F31293 = some (.slli 5 6 31#5) := by decide
theorem test_decode_srli : decodeTableWord 32 0x00435293 = some (.srli 5 6 4#5) := by decide
theorem test_decode_srai : decodeTableWord 32 0x40435293 = some (.srai 5 6 4#5) := by decide
theorem test_decode_lb : decodeTableWord 32 0xFFF30283 = some (.lb 5 6 0xFFF#12) := by decide
theorem test_decode_lh : decodeTableWord 32 0x00331283 = some (.lh 5 6 3#12) := by decide
theorem test_decode_lw : decodeTableWord 32 0x00832283 = some (.lw 5 6 8#12) := by decide
theorem test_decode_lbu : decodeTableWord 32 0x00034283 = some (.lbu 5 6 0#12) := by decide
theorem test_decode_lhu : decodeTableWord 32 0x00235283 = some (.lhu 5 6 2#12) := by decide
theorem test_decode_lui : decodeTableWord 32 0x123452B7 = some (.lui 5 0x12345#20) := by decide
theorem test_decode_auipc : decodeTableWord 32 0x00001297 = some (.auipc 5 1#20) := by decide
theorem test_decode_add : decodeTableWord 32 0x007302B3 = some (.add 5 6 7) := by decide
theorem test_decode_slt : decodeTableWord 32 0x007322B3 = some (.slt 5 6 7) := by decide
theorem test_decode_sltu : decodeTableWord 32 0x007332B3 = some (.sltu 5 6 7) := by decide
theorem test_decode_and : decodeTableWord 32 0x007372B3 = some (.and 5 6 7) := by decide
theorem test_decode_or : decodeTableWord 32 0x007362B3 = some (.or 5 6 7) := by decide
theorem test_decode_xor : decodeTableWord 32 0x007342B3 = some (.xor 5 6 7) := by decide
theorem test_decode_sll : decodeTableWord 32 0x007312B3 = some (.sll 5 6 7) := by decide
theorem test_decode_srl : decodeTableWord 32 0x007352B3 = some (.srl 5 6 7) := by decide
theorem test_decode_sra : decodeTableWord 32 0x407352B3 = some (.sra 5 6 7) := by decide
theorem test_decode_sub : decodeTableWord 32 0x407302B3 = some (.sub 5 6 7) := by decide
theorem test_decode_jalr : decodeTableWord 32 0x000280E7 = some (.jalr 1 5 0#12) := by decide
theorem test_decode_jal : decodeTableWord 32 0x008000EF = some (.jal 1 8#21) := by decide
theorem test_decode_beq : decodeTableWord 32 0x00730463 = some (.beq 6 7 8#13) := by decide
theorem test_decode_bne : decodeTableWord 32 0xFE731CE3 = some (.bne 6 7 0x1FF8#13) := by decide
theorem test_decode_blt : decodeTableWord 32 0x7E734FE3 = some (.blt 6 7 4094#13) := by decide
theorem test_decode_bge : decodeTableWord 32 0x80735063 = some (.bge 6 7 0x1000#13) := by decide
theorem test_decode_bltu : decodeTableWord 32 0x00736863 = some (.bltu 6 7 16#13) := by decide
theorem test_decode_bgeu : decodeTableWord 32 0x00737863 = some (.bgeu 6 7 16#13) := by decide
theorem test_decode_sb : decodeTableWord 32 0xFE730FA3 = some (.sb 7 6 0xFFF#12) := by decide
theorem test_decode_sh : decodeTableWord 32 0x007311A3 = some (.sh 7 6 3#12) := by decide
theorem test_decode_sw : decodeTableWord 32 0x00732423 = some (.sw 7 6 8#12) := by decide
theorem test_decode_fence : decodeTableWord 32 0x0FF0000F = some (.fence 0 0xF 0xF 0 0) := by decide
theorem test_decode_ecall : decodeTableWord 32 0x00000073 = some (.ecall) := by decide
theorem test_decode_ebreak : decodeTableWord 32 0x00100073 = some (.ebreak) := by decide

/-! ### One step of each instruction: the example of its rule -/

/-- R101. -/
theorem test_step_addi :
    after 5 (step (boot Config.default 0x100#32 0xFFF30293#32 [(6, 0x0#32)] [])) = some (0xFFFFFFFF#32, 0x104#32) := by
  decide
/-- R102. -/
theorem test_step_slti :
    after 5 (step (boot Config.default 0x100#32 0xFFF32293#32 [(6, 0xFFFFFFFE#32)] [])) = some (0x1#32, 0x104#32) := by
  decide
/-- R103. -/
theorem test_step_sltiu :
    after 5 (step (boot Config.default 0x100#32 0xFFF33293#32 [(6, 0x5#32)] [])) = some (0x1#32, 0x104#32) := by
  decide
/-- R104. -/
theorem test_step_andi :
    after 5 (step (boot Config.default 0x100#32 0x0F037293#32 [(6, 0x12345678#32)] [])) = some (0x70#32, 0x104#32) := by
  decide
/-- R105. -/
theorem test_step_ori :
    after 5 (step (boot Config.default 0x100#32 0xF0036293#32 [(6, 0x12#32)] [])) = some (0xFFFFFF12#32, 0x104#32) := by
  decide
/-- R106. -/
theorem test_step_xori :
    after 5 (step (boot Config.default 0x100#32 0xFFF34293#32 [(6, 0xF0F0F0F#32)] [])) = some (0xF0F0F0F0#32, 0x104#32) := by
  decide
/-- R107. -/
theorem test_step_slli :
    after 5 (step (boot Config.default 0x100#32 0x01F31293#32 [(6, 0x3#32)] [])) = some (0x80000000#32, 0x104#32) := by
  decide
/-- R108. -/
theorem test_step_srli :
    after 5 (step (boot Config.default 0x100#32 0x00435293#32 [(6, 0x80000010#32)] [])) = some (0x8000001#32, 0x104#32) := by
  decide
/-- R109. -/
theorem test_step_srai :
    after 5 (step (boot Config.default 0x100#32 0x40435293#32 [(6, 0x80000010#32)] [])) = some (0xF8000001#32, 0x104#32) := by
  decide
/-- R111. -/
theorem test_step_lb :
    after 5 (step (boot Config.default 0x100#32 0xFFF30283#32 [(6, 0x1001#32)] [(0x1000#32, 0x80#8)])) = some (0xFFFFFF80#32, 0x104#32) := by
  decide
/-- R112. -/
theorem test_step_lh :
    after 5 (step (boot Config.default 0x100#32 0x00331283#32 [(6, 0x1000#32)] [(0x1003#32, 0xCD#8), (0x1004#32, 0xAB#8)])) = some (0xFFFFABCD#32, 0x104#32) := by
  decide
/-- R113. -/
theorem test_step_lw :
    after 5 (step (boot Config.default 0x100#32 0x00832283#32 [(6, 0x1000#32)] [(0x1008#32, 0x78#8), (0x1009#32, 0x56#8), (0x100A#32, 0x34#8), (0x100B#32, 0x12#8)])) = some (0x12345678#32, 0x104#32) := by
  decide
/-- R114. -/
theorem test_step_lbu :
    after 5 (step (boot Config.default 0x100#32 0x00034283#32 [(6, 0x1000#32)] [(0x1000#32, 0x80#8)])) = some (0x80#32, 0x104#32) := by
  decide
/-- R115. -/
theorem test_step_lhu :
    after 5 (step (boot Config.default 0x100#32 0x00235283#32 [(6, 0x1000#32)] [(0x1002#32, 0xCD#8), (0x1003#32, 0xAB#8)])) = some (0xABCD#32, 0x104#32) := by
  decide
/-- R121. -/
theorem test_step_lui :
    after 5 (step (boot Config.default 0x100#32 0x123452B7#32 [] [])) = some (0x12345000#32, 0x104#32) := by
  decide
/-- R122. -/
theorem test_step_auipc :
    after 5 (step (boot Config.default 0x100#32 0x00001297#32 [] [])) = some (0x1100#32, 0x104#32) := by
  decide
/-- R126. -/
theorem test_step_add :
    after 5 (step (boot Config.default 0x100#32 0x007302B3#32 [(6, 0xFFFFFFFF#32), (7, 0x2#32)] [])) = some (0x1#32, 0x104#32) := by
  decide
/-- R127. -/
theorem test_step_slt :
    after 5 (step (boot Config.default 0x100#32 0x007322B3#32 [(6, 0xFFFFFFFF#32), (7, 0x1#32)] [])) = some (0x1#32, 0x104#32) := by
  decide
/-- R128. -/
theorem test_step_sltu :
    after 5 (step (boot Config.default 0x100#32 0x007332B3#32 [(5, 0x9#32), (6, 0xFFFFFFFF#32), (7, 0x1#32)] [])) = some (0x0#32, 0x104#32) := by
  decide
/-- R129. -/
theorem test_step_and :
    after 5 (step (boot Config.default 0x100#32 0x007372B3#32 [(6, 0xFF00FF00#32), (7, 0xFF00FF0#32)] [])) = some (0xF000F00#32, 0x104#32) := by
  decide
/-- R130. -/
theorem test_step_or :
    after 5 (step (boot Config.default 0x100#32 0x007362B3#32 [(6, 0xFF00FF00#32), (7, 0xFF00FF0#32)] [])) = some (0xFFF0FFF0#32, 0x104#32) := by
  decide
/-- R131. -/
theorem test_step_xor :
    after 5 (step (boot Config.default 0x100#32 0x007342B3#32 [(6, 0xFF00FF00#32), (7, 0xFF00FF0#32)] [])) = some (0xF0F0F0F0#32, 0x104#32) := by
  decide
/-- R132. -/
theorem test_step_sll :
    after 5 (step (boot Config.default 0x100#32 0x007312B3#32 [(6, 0x1#32), (7, 0x21#32)] [])) = some (0x2#32, 0x104#32) := by
  decide
/-- R133. -/
theorem test_step_srl :
    after 5 (step (boot Config.default 0x100#32 0x007352B3#32 [(6, 0x80000000#32), (7, 0x1F#32)] [])) = some (0x1#32, 0x104#32) := by
  decide
/-- R134. -/
theorem test_step_sra :
    after 5 (step (boot Config.default 0x100#32 0x407352B3#32 [(6, 0x80000000#32), (7, 0x1F#32)] [])) = some (0xFFFFFFFF#32, 0x104#32) := by
  decide
/-- R135. -/
theorem test_step_sub :
    after 5 (step (boot Config.default 0x100#32 0x407302B3#32 [(6, 0x3#32), (7, 0x5#32)] [])) = some (0xFFFFFFFE#32, 0x104#32) := by
  decide
/-- R141. -/
theorem test_step_jalr :
    after 1 (step (boot Config.default 0x100#32 0x000280E7#32 [(5, 0x201#32)] [])) = some (0x104#32, 0x200#32) := by
  decide
/-- R142. -/
theorem test_step_jal :
    after 1 (step (boot Config.default 0x100#32 0x008000EF#32 [] [])) = some (0x104#32, 0x108#32) := by
  decide
/-- R146. -/
theorem test_step_beq :
    after 6 (step (boot Config.default 0x100#32 0x00730463#32 [(6, 0x5#32), (7, 0x5#32)] [])) = some (0x5#32, 0x108#32) := by
  decide
/-- R147. -/
theorem test_step_bne :
    after 6 (step (boot Config.default 0x100#32 0xFE731CE3#32 [(6, 0x5#32), (7, 0x6#32)] [])) = some (0x5#32, 0xF8#32) := by
  decide
/-- R148. -/
theorem test_step_blt :
    Result.trap? (step (boot Config.default 0x100#32 0x7E734FE3#32 [(6, 0xFFFFFFFF#32), (7, 0x0#32)] [])) = some (.instructionAddressMisaligned 0x000010FE#32, 0x100#32) := by
  decide
/-- R149. -/
theorem test_step_bge :
    after 6 (step (boot Config.default 0x2000#32 0x80735063#32 [(6, 0x0#32), (7, 0xFFFFFFFF#32)] [])) = some (0x0#32, 0x1000#32) := by
  decide
/-- R150. -/
theorem test_step_bltu :
    after 6 (step (boot Config.default 0x100#32 0x00736863#32 [(6, 0x1#32), (7, 0xFFFFFFFF#32)] [])) = some (0x1#32, 0x110#32) := by
  decide
/-- R151. -/
theorem test_step_bgeu :
    after 7 (step (boot Config.default 0x100#32 0x00737863#32 [(6, 0xFFFFFFFF#32), (7, 0x1#32)] [])) = some (0x1#32, 0x110#32) := by
  decide
/-- R156. -/
theorem test_step_sb :
    bytesAfter [0xFFF#32, 0x1000#32, 0x1001#32] (step (boot Config.default 0x100#32 0xFE730FA3#32 [(6, 0x1001#32), (7, 0x123456AB#32)] [])) = some ([0x0#8, 0xAB#8, 0x0#8], 0x104#32) := by
  decide
/-- R157. -/
theorem test_step_sh :
    bytesAfter [0x1002#32, 0x1003#32, 0x1004#32, 0x1005#32] (step (boot Config.default 0x100#32 0x007311A3#32 [(6, 0x1000#32), (7, 0x1234ABCD#32)] [])) = some ([0x0#8, 0xCD#8, 0xAB#8, 0x0#8], 0x104#32) := by
  decide
/-- R158. -/
theorem test_step_sw :
    bytesAfter [0x1008#32, 0x1009#32, 0x100A#32, 0x100B#32] (step (boot Config.default 0x100#32 0x00732423#32 [(6, 0x1000#32), (7, 0x12345678#32)] [])) = some ([0x78#8, 0x56#8, 0x34#8, 0x12#8], 0x104#32) := by
  decide
/-- R160. -/
theorem test_step_fence :
    after 1 (step (boot Config.default 0x100#32 0x0FF0000F#32 [(1, 0x3#32)] [])) = some (0x3#32, 0x104#32) := by
  decide
/-- R161. -/
theorem test_step_ecall :
    Result.trap? (step (boot Config.default 0x100#32 0x00000073#32 [] [])) = some (.environmentCall, 0x100#32) := by
  decide
/-- R162. -/
theorem test_step_ebreak :
    Result.trap? (step (boot Config.default 0x100#32 0x00100073#32 [] [])) = some (.breakpoint 0x00000100#32, 0x100#32) := by
  decide

/-! ### Corners: traps, wraps, x0, FETCH_MISALIGNED, RV32E, cu_partial, MemMap -/

/-- The configurations the tests use beside the default. -/
def rv32eConfig : Config := { Config.default with regCount := .rv32e }
def cuConfig : Config := { Config.default with decodeMode := .cuPartial }
def splitConfig : Config := { Config.default with fetchMisaligned := .split }
/-- 0x100 to 0x103, 0x1000 to 0x1003 and 0x1FFC to 0x1FFF are memory, 0x2000 to 0x2003 a device, nothing else answers. -/
def holeConfig : Config :=
  { Config.default with memMap := [⟨0x1000, 4, .memory⟩, ⟨0x100, 4, .memory⟩, ⟨0x1FFC, 4, .memory⟩, ⟨0x2000, 4, .device⟩] }
/-- A hart at `pc` on that bus, with `a` in x6. -/
def holeHart (pc a : Word) : State := boot holeConfig pc 0#32 [(6, a)] []

/-- R148: the branch not taken does not raise. -/
theorem test_blt_not_taken : after 6 (step (boot Config.default 0x100#32 0x7E734FE3#32 [] [])) = some (0#32, 0x104#32) := by decide
/-- R127, C4: 0x80000000 is less than 1, though the difference is not negative. -/
theorem test_slt_overflow :
    after 5 (step (boot Config.default 0x100#32 0x007322B3#32 [(6, 0x80000000#32), (7, 1#32)] [])) = some (1#32, 0x104#32) := by decide
/-- VB16: a word read at 0xFFFFFFFE wraps to 0 and 1. -/
theorem test_lw_wraps :
    after 5 (step (boot Config.default 0x100#32 0xFFE02283#32 []
      [(0xFFFFFFFE#32, 0xAA#8), (0xFFFFFFFF#32, 0xBB#8), (0#32, 0xCC#8), (1#32, 0xDD#8)])) = some (0xDDCCBBAA#32, 0x104#32) := by decide
/-- R141: the target comes from the old x[rs1] when rd = rs1. -/
theorem test_jalr_same_register :
    after 5 (step (boot Config.default 0x100#32 0x000282E7#32 [(5, 0x200#32)] [])) = some (0x104#32, 0x200#32) := by decide
/-- P4 step 7, under trap: x7 is not written. -/
theorem test_jalr_misaligned_traps :
    Result.trap? (step (boot Config.default 0x18#32 0x000303E7#32 [(6, 0x1A#32)] [])) =
      some (.instructionAddressMisaligned 0x1A#32, 0x18#32) := by decide
/-- P4 step 7, under split. -/
theorem test_jalr_misaligned_splits :
    after 7 (step (boot splitConfig 0x18#32 0x000303E7#32 [(6, 0x1A#32)] [])) = some (0x1C#32, 0x1A#32) := by decide
/-- R20: a write to x0 is ignored. -/
theorem test_x0_stays_zero : after 0 (step (boot Config.default 0x100#32 0x12345037#32 [] [])) = some (0#32, 0x104#32) := by decide
/-- R83: the all-zero word. -/
theorem test_zero_word_traps :
    Result.trap? (step (boot Config.default 0x100#32 0#32 [] [])) = some (.illegalInstruction 0#32, 0x100#32) := by decide
/-- VN1. -/
theorem test_rv32e_rd : decode .rv32e .strict 0x00000813#32 = .illegal := by decide
/-- VN2. -/
theorem test_rv32e_rs1 : decode .rv32e .strict 0x00080013#32 = .illegal := by decide
/-- VN3. -/
theorem test_rv32e_rs2 : decode .rv32e .strict 0x01F00033#32 = .illegal := by decide
/-- VN5: bits 24:20 are an immediate here. -/
theorem test_rv32e_immediate : decode .rv32e .strict 0x01F00793#32 = .instr (.addi 15 0 31#12) := by decide
/-- R82: MRET runs as ECALL, WFI as EBREAK, MUL x5, x6, x7 as ADD. -/
theorem test_cu_partial : decode .rv32i .cuPartial 0x30200073#32 = .instr .ecall ∧ decode .rv32i .cuPartial 0x10500073#32 = .instr .ebreak ∧
    decode .rv32i .cuPartial 0x027302B3#32 = .instr (.add 5 6 7) := by decide
/-- R52, R247: a fetch nobody answers. -/
theorem test_fetch_stuck : step (boot holeConfig 0x104#32 0x00000013#32 [] []) =
    .fault (.stuck (boot holeConfig 0x104#32 0x00000013#32 [] []).hang) := by rfl
/-- R261. -/
theorem test_running_reset : (State.rst (boot Config.default 0x100#32 0x00000013#32 [(5, 9#32)] [])).reg 5 = 9#32 ∧
    (State.rst (boot Config.default 0x100#32 0x00000013#32 [(5, 9#32)] [])).pc = 0#32 := by decide
/-- VM8: a word write at 0x1003 is lane 3 of word 0x400 and lanes 0 to 2 of word 0x401. -/
theorem test_strobes : byteStrb 0b10#2 (alignmentOf 0x1003#32) = 0b01111000#8 ∧ wordAddr 0x1003#32 = 0x400#30 ∧
    wdata64 0xAABBCCDD#32 (alignmentOf 0x1003#32) = 0x00AABBCCDD000000#64 := by decide
/-- `withFetchWord` stores the word where the next step fetches. -/
theorem test_with_fetch_word : after 5 (step (State.reset.withFetchWord 32 0x123452B7)) = some (0x12345000#32, 4#32) := by decide

/-! ### Witnesses: the hypotheses of each obligation are met -/

/-- Every address of the default MemMap is memory. -/
theorem allMemory_answers (a : Word) : MemMap.allMemory.kindAt a.toNat = some .memory := by
  have := a.isLt
  simp [MemMap.allMemory, MemMap.kindAt]
  omega

theorem witness_DecodeOfEncode :
    (Instr.sw 31 0 0x800#12).wellFormed .rv32i = true ∧ (Instr.jal 15 0x100000#21).wellFormed .rv32e = true ∧
    (Instr.beq 0 15 0x1000#13).wellFormed .rv32e = true ∧ (Instr.fence 15 0 15 31 16).wellFormed .rv32e = true := by decide

theorem witness_EncodeOfStrictDecode : decode .rv32e .strict 0x00F00793#32 = .instr (.addi 15 0 15#12) ∧
    decode .rv32i .strict 0x00000813#32 = .instr (.addi 16 0 0#12) := by decide

theorem witness_StrictDecodeIsOpcodeTable : (∃ r ∈ opcodeTable, r.selects 0x41F55293#32) ∧ ∀ r ∈ opcodeTable, ¬ r.selects 0xFFFFFFFF#32 := by
  decide

theorem witness_CuDecodeIsCuTable : ∃ r ∈ opcodeTable, r.cuSelects 0x02731234#32 := by decide

theorem witness_CuPartialExtendsStrict : decode .rv32e .strict 0x40550533#32 = .instr (.sub 10 10 5) := by decide

/-- One word for each class of R83's list, and the state of the first clause. -/
theorem witness_ReservedWordsAreIllegal :
    (boot Config.default 0x100#32 0#32 [] []).fetch = .ok 0#32 ∧ (boot Config.default 0x100#32 0#32 [] []).hung = false ∧
    (∀ r ∈ opcodeTable, ¬ r.selects 0#32) ∧ (0#32).extractLsb' 0 2 ≠ 0b11#2 ∧ majorOf (opcode62Of 0xFFFFFFFF#32) = none ∧
    majorOf (opcode62Of 0x0000000B#32) = some .custom0 ∧ funct3Of 0x00033283#32 = 0b011#3 ∧ (funct3Of 0x00003023#32).toNat = 3 ∧
    funct3Of 0x00002063#32 = 0b010#3 ∧ funct3Of 0x00001067#32 = 0b001#3 ∧ funct7Of 0x02031293#32 ≠ 0#7 ∧
    funct7Of 0x20035293#32 = 0b0010000#7 ∧ funct7Of 0x02730033#32 = 0b0000001#7 ∧ funct7Of 0x40007033#32 ≠ 0#7 ∧
    majorOf (opcode62Of 0x30200073#32) = some .system ∧
    decodeStrict 0x00000813#32 = some (.addi 16 0 0#12) ∧ ∃ r ∈ (Instr.addi 16 0 0#12).regs, 16 ≤ r.toNat := by decide

theorem witness_CustomOpcodesAreIllegal :
    (boot cuConfig 0x100#32 0x0000000B#32 [] []).fetch = .ok 0x0000000B#32 ∧ opcode62Of 0x0000000B#32 = 0b00010#5 ∧
    opcode62Of 0x0000002B#32 = 0b01010#5 ∧ opcode62Of 0x0000005B#32 = 0b10110#5 ∧ opcode62Of 0x0000007B#32 = 0b11110#5 := by decide

theorem witness_CuPartialRefusesUnnumberedWords :
    (boot cuConfig 0x100#32 0xFFFFFFFF#32 [] []).fetch = .ok 0xFFFFFFFF#32 ∧ majorOf (opcode62Of 0xFFFFFFFF#32) = none ∧
    majorOf (opcode62Of 0x00002063#32) = some .branch ∧ funct3Of 0x00002063#32 = 0b010#3 ∧
    majorOf (opcode62Of 0x0000100F#32) = some .miscMem ∧ majorOf (opcode62Of 0x00001073#32) = some .system ∧
    funct3Of 0x00001073#32 = 0b001#3 := by decide

theorem witness_CuPartialRunsPartialMatches :
    majorOf (opcode62Of 0x00001067#32) = some .jalr ∧ majorOf (opcode62Of 0x30200073#32) = some .system ∧ funct3Of 0x30200073#32 = 0#3 ∧
    majorOf (opcode62Of 0x02000033#32) = some .op ∧ majorOf (opcode62Of 0x00006003#32) = some .load ∧ funct3Of 0x00006003#32 = 0b110#3 ∧
    majorOf (opcode62Of 0x00003023#32) = some .store ∧ funct3Of 0x00003023#32 = 0b011#3 ∧ funct3Of 0x00004023#32 = 0b100#3 ∧
    funct3Of 0x00005023#32 = 0b101#3 := by decide

/-- Words of OP and of the OP-IMM shifts that strict mode rejects: inst[31:25] = 0000001, and 0100001. -/
theorem test_cu_partial_shifts : decodeStrict 0x427352B3#32 = none ∧ decodeCu 0x427352B3#32 = .instr (.sra 5 6 7) ∧
    decodeCu 0x027352B3#32 = .instr (.srl 5 6 7) ∧ decodeStrict 0x42435293#32 = none ∧ decodeCu 0x42435293#32 = .instr (.srai 5 6 4#5) ∧
    decodeCu 0x02435293#32 = .instr (.srli 5 6 4#5) ∧ decodeCu 0x02431293#32 = .instr (.slli 5 6 4#5) := by decide

theorem witness_Rv32eRejectsHighRegisters : decode .rv32i .strict 0x00000813#32 = .instr (.addi 16 0 0#12) ∧
    (∃ r ∈ (Instr.addi 16 0 0#12).regs, 16 ≤ r.toNat) ∧ (∀ r ∈ (Instr.addi 15 0 0#12).regs, r.toNat < 16) ∧
    decode .rv32i .cuPartial 0x00002063#32 = .noInstructionNumber := by decide

/-- The wrap at the top of the address space, and a misaligned access. -/
theorem witness_memory_accesses : State.reset.answersMemory 0xFFFFFFFE#32 4 ∧ State.reset.answersMemory 1#32 2 ∧
    State.reset.answersMemory 0xFFFFFFFF#32 1 ∧ State.reset.mem.wf = true :=
  ⟨fun b _ => allMemory_answers b, fun b _ => allMemory_answers b, fun b _ => allMemory_answers b, rfl⟩

theorem witness_NarrowReadOfWideWrite : ∃ t, State.reset.memWrite 0xFFFFFFFE#32 4 0x11223344#32 = .ok t ∧ 3 + 1 ≤ 4 ∧ 2 + 2 ≤ 4 := ⟨_, rfl, by decide⟩

theorem witness_CanonicalMemoryIsUnique : Memory.wf [(0, 1#8), (2 ^ 32 - 1, 2#8)] = true := by decide

theorem firstUnanswered_of {s : State} {a : Word} {n : Nat}
    (h : (((accessAddrs a n).take (firstOpBytes a n)).any fun b => decide (s.cfg.memMap.kindAt b.toNat = none)) = true) : s.firstUnanswered a n := by
  simpa [State.firstUnanswered] using h

theorem secondUnanswered_of {s : State} {a : Word} {n : Nat}
    (h : (((accessAddrs a n).drop (firstOpBytes a n)).any fun b => decide (s.cfg.memMap.kindAt b.toNat = none)) = true) : s.secondUnanswered a n := by
  simpa [State.secondUnanswered] using h

theorem firstIsMemory_of {s : State} {a : Word} {n : Nat}
    (h : (((accessAddrs a n).take (firstOpBytes a n)).all fun b => decide (s.cfg.memMap.kindAt b.toNat = some .memory)) = true) : s.firstIsMemory a n := by
  simpa [State.firstIsMemory] using h

/-- Every clause: a fetch, loads and stores whose first operation is unanswered, and a fetch and loads whose second is. -/
theorem witness_UnansweredAccessIsStuck :
    (holeHart 0x104#32 0#32).readUnanswered 0x104#32 4 ∧ (holeHart 0x102#32 0#32).readUnanswered 0x102#32 4 ∧
    (let s := holeHart 0x100#32 0x1003#32
     s.readUnanswered (s.effAddr 6 (immI 1#12)) 1 ∧ s.readUnanswered (s.effAddr 6 (immI 0#12)) 2 ∧ s.readUnanswered (s.effAddr 6 (immI 0#12)) 4) ∧
    let s := holeHart 0x100#32 0xFFF#32
    s.firstUnanswered (s.effAddr 6 (immS 0#12)) 1 ∧ s.firstUnanswered (s.effAddr 6 (immS 0#12)) 2 ∧ s.firstUnanswered (s.effAddr 6 (immS 0#12)) 4 :=
  ⟨.inl (firstUnanswered_of (by decide)), .inr ⟨firstIsMemory_of (by decide), secondUnanswered_of (by decide)⟩,
   ⟨.inl (firstUnanswered_of (by decide)), .inr ⟨firstIsMemory_of (by decide), secondUnanswered_of (by decide)⟩,
    .inr ⟨firstIsMemory_of (by decide), secondUnanswered_of (by decide)⟩⟩,
   firstUnanswered_of (by decide), firstUnanswered_of (by decide), firstUnanswered_of (by decide)⟩

/-- SH and SW at 0x1003, of which one byte is memory. -/
theorem witness_SplitStoreLeavesFirstOperation :
    let s := holeHart 0x100#32 0x1003#32
    s.effAddr 6 (immS 0#12) = 0x1003#32 ∧ s.firstIsMemory 0x1003#32 2 ∧ s.secondUnanswered 0x1003#32 2 ∧ s.firstIsMemory 0x1003#32 4 ∧
      s.secondUnanswered 0x1003#32 4 ∧ s.mem.wf = true :=
  ⟨by decide, firstIsMemory_of (by decide), secondUnanswered_of (by decide), firstIsMemory_of (by decide), secondUnanswered_of (by decide), by decide⟩

theorem witness_StuckStaysStuck : ∃ left, step (boot holeConfig 0x104#32 0x00000013#32 [] []) = .fault (.stuck left) := ⟨_, rfl⟩

theorem deviceAt_of {m : MemMap} {as : List Word} {b : Word} (pre post : List Word)
    (h : (decide (as = pre ++ b :: post) && pre.all (fun c => decide (m.kindAt c.toNat = some .memory)) && decide (m.kindAt b.toNat = some .device) &&
      post.all (fun c => decide (m.kindAt c.toNat ≠ none))) = true) : deviceAt m as b := by
  simp only [Bool.and_eq_true, List.all_eq_true, decide_eq_true_eq] at h
  exact ⟨pre, post, h.1.1.1, h.1.1.2, h.1.2, h.2⟩

/-- A fetch at the device and one that runs into it; accesses of each width at it; a half and a word that run into it. -/
theorem witness_DeviceAccessIsRefused :
    (holeHart 0x2000#32 0#32).reachesDevice 0x2000#32 4 0x2000#32 ∧ (holeHart 0x1FFE#32 0#32).reachesDevice 0x1FFE#32 4 0x2000#32 ∧
    (let s := holeHart 0x100#32 0x2003#32
     s.reachesDevice (s.effAddr 6 (immI 0#12)) 1 0x2003#32 ∧ s.reachesDevice (s.effAddr 6 (immS 0#12)) 1 0x2003#32 ∧
     s.reachesDevice (s.effAddr 6 (immI 0xFFF#12)) 2 0x2002#32 ∧ s.reachesDevice (s.effAddr 6 (immS 0xFFF#12)) 2 0x2002#32) ∧
    let s := holeHart 0x100#32 0x1FFF#32
    s.reachesDevice (s.effAddr 6 (immI 0#12)) 2 0x2000#32 ∧ s.reachesDevice (s.effAddr 6 (immI 0#12)) 4 0x2000#32 ∧
      s.reachesDevice (s.effAddr 6 (immS 0#12)) 4 0x2000#32 :=
  ⟨.inl (deviceAt_of [] [0x2001#32, 0x2002#32, 0x2003#32] (by decide)), .inr ⟨firstIsMemory_of (by decide), deviceAt_of [] [0x2001#32] (by decide)⟩,
   ⟨.inl (deviceAt_of [] [] (by decide)), .inl (deviceAt_of [] [] (by decide)), .inl (deviceAt_of [] [0x2003#32] (by decide)),
    .inl (deviceAt_of [] [0x2003#32] (by decide))⟩,
   .inr ⟨firstIsMemory_of (by decide), deviceAt_of [] [] (by decide)⟩,
   .inr ⟨firstIsMemory_of (by decide), deviceAt_of [] [0x2001#32, 0x2002#32] (by decide)⟩,
   .inr ⟨firstIsMemory_of (by decide), deviceAt_of [] [0x2001#32, 0x2002#32] (by decide)⟩⟩

/-- SB, SH and SW complete at 0x200; a fetch at it, and one two bytes below, meet the stored bytes. -/
theorem witness_StoreIsSeenByLaterFetch :
    let s := boot Config.default 0x100#32 0#32 [(6, 0x00000013#32)] []
    (∃ t, exec (.sb 6 0 0x200#12) s = .next t) ∧ (∃ t, exec (.sh 6 0 0x200#12) s = .next t) ∧ (∃ t, exec (.sw 6 0 0x200#12) s = .next t ∧
      { t with pc := 0x200#32 }.pc = s.effAddr 0 (immS 0x200#12) ∧ { t with pc := 0x200#32 }.answersMemory 0x200#32 4 ∧
      { t with pc := 0x1FE#32 }.pc + BitVec.ofNat 32 2 = s.effAddr 0 (immS 0x200#12) + BitVec.ofNat 32 0 ∧ s.mem.wf = true) :=
  ⟨⟨_, rfl⟩, ⟨_, rfl⟩, ⟨_, rfl, by decide, fun b _ => allMemory_answers b, by decide, by decide⟩⟩

theorem witness_HintsOnlyAdvancePc : (Instr.addi 0 10 5#12).dest = some 0#5 ∧ (Instr.lui 0 1#20).dest = some 0#5 ∧
    (Instr.sra 0 1 2).dest = some 0#5 ∧ (Instr.auipc 0 0#20).dest = some 0#5 := by decide

/-- A word at 0x1001, of two bus operations, and a byte at the last address. -/
theorem witness_loads_and_stores :
    (boot Config.default 0x100#32 0#32 [(6, 0x1000#32)] []).answersMemory
      ((boot Config.default 0x100#32 0#32 [(6, 0x1000#32)] []).effAddr 6 (immI 1#12)) 4 ∧
    State.reset.answersMemory (State.reset.effAddr 6 (immI 0xFFF#12)) 1 ∧ State.reset.answersMemory (State.reset.effAddr 6 (immS 0xFFF#12)) 2 :=
  ⟨fun b _ => allMemory_answers b, fun b _ => allMemory_answers b, fun b _ => allMemory_answers b⟩

/-- A target that may be reached and one that may not, at the boundary of a multiple of 4; under split any. -/
theorem witness_JalJumpsAndLinks : State.reset.mayReach (State.reset.pc + (4#21).signExtend 32) ∧
    ¬ State.reset.mayReach (State.reset.pc + (2#21).signExtend 32) ∧
    (boot splitConfig 0x100#32 0#32 [] []).mayReach (0x102#32) := by decide

theorem witness_JalrJumpsAndLinks :
    (State.reset.cfg.fetchMisaligned = .trap → (State.reset.reg 0 + (0x201#12).signExtend 32).getLsbD 1 = false) ∧
    State.reset.cfg.fetchMisaligned = .trap ∧ (State.reset.reg 0 + (0x202#12).signExtend 32).getLsbD 1 = true := by decide

/-- Operands on both sides of each condition, equal ones among them. -/
theorem witness_branches :
    let s := boot Config.default 0x100#32 0#32 [(6, 0xFFFFFFFF#32), (7, 1#32), (8, 1#32)] []
    s.reg 7 = s.reg 8 ∧ s.reg 6 ≠ s.reg 7 ∧ (s.reg 6).toInt < (s.reg 7).toInt ∧ (s.reg 8).toInt ≤ (s.reg 7).toInt ∧
      (s.reg 7).toNat < (s.reg 6).toNat ∧ (s.reg 8).toNat ≤ (s.reg 7).toNat ∧ s.mayReach (s.pc + (0x1000#13).signExtend 32) ∧
      ¬ s.mayReach (s.pc + (0xFFE#13).signExtend 32) := by decide

theorem witness_StepIsCleanOnMemory : State.reset.hung = false ∧ State.reset.cfg.decodeMode = .strict ∧
    ∀ a : Word, State.reset.cfg.memMap.kindAt a.toNat = some .memory := ⟨rfl, rfl, allMemory_answers⟩

theorem witness_StepRunsDecodedInstruction : (boot Config.default 0x100#32 0x007302B3#32 [] []).fetch = .ok 0x007302B3#32 ∧
    decode .rv32i .strict 0x007302B3#32 = .instr (.add 5 6 7) ∧ (boot Config.default 0x100#32 0x007302B3#32 [] []).hung = false := by decide

theorem witness_StepKeepsInvariant : (boot Config.default 0x100#32 0xFFDFF06F#32 [] []).Inv ∧
    ∃ t, step (boot Config.default 0x100#32 0xFFDFF06F#32 [] []) = .next t := ⟨by decide, ⟨_, rfl⟩⟩

theorem witness_ResetHasInvariant : Config.default.WF ∧ Memory.wf [(7, 9#8)] = true := by decide

theorem witness_completing_instructions : (∃ t, exec (.jal 1 8#21) State.reset = .next t ∧ goesTo State.reset (.jal 1 8#21) 8#32) ∧
    (∃ t, exec (.beq 0 0 8#13) State.reset = .next t ∧ branchHolds State.reset (.beq 0 0 8#13)) ∧
    ∃ t, exec (.sb 0 0 0#12) State.reset = .next t ∧ isStore (.sb 0 0 0#12) = true :=
  ⟨⟨_, rfl, rfl⟩, ⟨_, rfl, rfl⟩, ⟨_, rfl, rfl⟩⟩

theorem witness_Rv32eIgnoresHighRegisters : (boot rv32eConfig 0x100#32 0x00F00793#32 [] []).cfg.regCount = .rv32e ∧ 16 ≤ (16#5).toNat ∧
    portOf .rv32e 15#5 = 15#5 ∧ portOf .rv32i 16#5 = 16#5 := by decide

/-- Each number of landed operations, at a word store of two: 0x1003 is the first, 0x1004 to 0x1006 the second (R47, R262). -/
theorem witness_ResetDuringStoreLandsPerOperation :
    let s := boot Config.default 0x100#32 0x00000013#32 [] []
    s.answersMemory 0x1003#32 4 ∧
    (fun landed : Nat => [0x1003#32, 0x1004#32].map (s.resetDuringStore landed 0x1003#32 4 0x44332211#32).byte) 0 = [0x00#8, 0x00#8] ∧
    (fun landed : Nat => [0x1003#32, 0x1004#32].map (s.resetDuringStore landed 0x1003#32 4 0x44332211#32).byte) 1 = [0x11#8, 0x00#8] ∧
    (fun landed : Nat => [0x1003#32, 0x1004#32].map (s.resetDuringStore landed 0x1003#32 4 0x44332211#32).byte) 2 = [0x11#8, 0x22#8] :=
  ⟨fun b _ => allMemory_answers b, by decide, by decide, by decide⟩

theorem witness_AluTableGivesResults : decodeStrict 0x41F55293#32 = some (.srai 5 10 31#5) ∧ aluRow (.srai 5 10 31#5) = some ⟨.rs1, .immI, .sra, .operation⟩ ∧
    majorOf (opcode62Of 0x41F55293#32) = some .opImm ∧ decodeStrict 0x010000EF#32 = some (.jal 1 16#21) ∧
    decodeStrict 0x028100E7#32 = some (.jalr 1 2 40#12) ∧ decodeStrict 0x0032A483#32 = some (.lw 9 5 3#12) ∧
    decodeStrict 0x0062A2A3#32 = some (.sw 6 5 5#12) := by decide

theorem witness_WritePcLogicSetsPc : (Instr.addi 5 6 1#12).mnemonic ∉ ["JALR", "JAL", "BEQ", "BNE", "BLT", "BGE", "BLTU", "BGEU"] ∧ decodeStrict 0xFE731CE3#32 = some (.bne 6 7 0x1FF8#13) ∧
    ∃ t, exec (.bne 6 7 0x1FF8#13) (boot Config.default 0x100#32 0#32 [(6, 5#32)] []) = .next t := ⟨by decide, by decide, ⟨_, rfl⟩⟩

theorem witness_InstructionNumbersMatchTable : (∃ r ∈ opcodeTable, r.cuSelects 0x00100073#32 ∧ r.inum = 0x3C#8) ∧
    inumOf 0xFFFFFFFF#32 = none := by decide

/-- The three cases of the counter, each with a next word, an INUM the ROM does not have, and the stall. -/
theorem witness_AddressCounterAdvances :
    (ControlUnit.tick ⟨0x02#8, 0x40000011#32⟩ (some 0x08#8) false).isSome = true ∧ romEOF 0x40000011#32 = true ∧ romEOI 0x40000011#32 = false ∧
    (ControlUnit.tick ⟨0x05#8, 0x80000000#32⟩ none false).isSome = true ∧ romEOI 0x80000000#32 = true ∧
    (ControlUnit.tick ⟨0x0A#8, 0x00001004#32⟩ none true).isSome = true ∧ romWaitMEM 0x00001004#32 = false ∧
    (ControlUnit.mk 0x02#8 0x40000011#32).nextCount 0x64#8 = 0x65#8 ∧ (ControlUnit.mk 0x02#8 0x40000011#32).enable false = true ∧
    (ControlUnit.mk 0x0B#8 0x00000001#32).enable true = false := by decide

/-- R261, R262, R266: the edge that releases a reset delivers position 0x00, the next one goes on to 0x01, which requests nothing; a cycle held in reset changes nothing
more. -/
theorem test_reset_control_unit : ControlUnit.reset.tick none true = some ⟨0x01#8, 0x00000006#32⟩ ∧
    ControlUnit.tick ⟨0x01#8, 0x00000006#32⟩ none true = some ⟨0x02#8, 0x40000011#32⟩ ∧ romRD 0x40000011#32 = false ∧
    ControlUnit.clocked ⟨0x0B#8, 0x00000001#32⟩ false none true = some ControlUnit.reset := by decide

/-- An idle memory interface, whose registers hold what they will. -/
def idleInterface : MemInterface := ⟨0#30, 0#2, 0#8, false, 0#64, 0#64, 0#2, false, false, .op1A⟩

theorem witness_MemInterface : idleInterface.fsm = .op1A ∧ (CpuRequest.mk false true 0xFFFFFFFF#32 0b11#2 false 0#32).wr = true ∧
    (CpuRequest.mk true false 0xFFFFFFFF#32 0b01#2 false 0#32).rd = true ∧ (CpuRequest.mk true false 0xFFFFFFFF#32 0b01#2 false 0#32).wr = false := by decide

/-- R204 to R208: a word write at 0x1003 on the bus, one wait state in its second operation. -/
theorem test_write_bus :
    let req : CpuRequest := ⟨false, true, 0x1003#32, 0b10#2, false, 0xAABBCCDD#32⟩
    let idle : CpuRequest := ⟨false, false, 0#32, 0#2, false, 0#32⟩
    (idleInterface.run [] (requestCycles req idle 0 1)).2.2.map MiOut.bus =
      [⟨0x1000#32, 0b1000#4, 0xDD000000#32, true, false⟩, ⟨0x1000#32, 0b1000#4, 0xDD000000#32, true, true⟩,
       ⟨0x1004#32, 0b0111#4, 0x00AABBCC#32, true, false⟩, ⟨0x1004#32, 0b0111#4, 0x00AABBCC#32, true, true⟩,
       ⟨0x1004#32, 0b0111#4, 0x00AABBCC#32, true, true⟩] := by decide

/-- R216: the source's unaligned word read, through the block. -/
theorem test_read_example :
    let req : CpuRequest := ⟨true, false, 0x3#32, 0b10#2, false, 0#32⟩
    let idle : CpuRequest := ⟨false, false, 0#32, 0#2, false, 0#32⟩
    ((idleInterface.run ((Memory.setBytes [] (storeCells 0#32 4 0x1234ABCD#32)).setBytes (storeCells 4#32 4 0x56789EF0#32))
      (requestCycles req idle 0 0)).2.2.getLast?).map MiOut.rdata = some 0x789EF012#32 := by decide

/-- The hart at the first cycle of the fetch of `w` at 0x100, the register file delivering what it will. -/
def microWitness (w : Word) : Micro where
  cu := ⟨0x01#8, 0x00000006#32⟩
  mi := idleInterface
  ir := 0#32
  rs1 := 0xDEADBEEF#32
  rs2 := 0xDEADBEEF#32
  hart := boot Config.default 0x100#32 w [(5, 0x1000#32)] [(0x1003#32, 0x77#8)]

/-- A LOAD and a STORE of two operations, a byte each, and FENCE. -/
theorem witness_MicroRunsFenceLoadStore : (microWitness 0x0032A483#32).atFetch ∧ (microWitness 0x0032A483#32).hart.hung = false ∧
    (microWitness 0x0032A483#32).hart.pc.extractLsb' 0 2 = 0#2 ∧ (microWitness 0x0032A483#32).hart.fetch = .ok 0x0032A483#32 ∧
    decode .rv32i .strict 0x0032A483#32 = .instr (.lw 9 5 3#12) ∧ decode .rv32i .strict 0x0062A2A3#32 = .instr (.sw 6 5 5#12) ∧
    decode .rv32i .strict 0x00B295A3#32 = .instr (.sh 11 5 11#12) ∧ decode .rv32i .strict 0x00028023#32 = .instr (.sb 0 5 0#12) ∧
    decode .rv32i .strict 0x0032C403#32 = .instr (.lbu 8 5 3#12) ∧ decode .rv32i .strict 0x00729583#32 = .instr (.lh 11 5 7#12) ∧
    decode .rv32i .strict 0x0FF0000F#32 = .instr (.fence 0 0xF 0xF 0 0) := by decide

theorem witness_MicroRunsFenceLoadStore_memory (a : Word) : (microWitness 0x0032A483#32).hart.cfg.memMap.kindAt a.toNat = some .memory :=
  allMemory_answers a

/-- The cycle layer runs it: 8 cycles, at a fetch again. -/
theorem test_micro_load : ((Micro.ticks 8 (microWitness 0x0032A483#32)).map fun m => (m.hart.pc, m.hart.reg 9, m.mi.fsm, m.cu.uCycle)) =
    some (0x104#32, 0x77#32, .op1A, 0x01#8) := by decide

/-- R193, R265: while row 0x08 is at work IR holds the LOAD and its operand is not there yet; a cycle later it is. -/
theorem test_micro_operand_latency :
    ((Micro.ticks 2 (microWitness 0x0032A483#32)).map fun m => (m.ir, m.cu.rom, m.rs1)) = some (0x0032A483#32, 0#32, 0#32) ∧
    ((Micro.ticks 3 (microWitness 0x0032A483#32)).map fun m => (m.cu.rom, m.rs1)) = some (0x00001004#32, 0x1000#32) := by decide

/-- The other start of the statement, and a run from it: the release of the reset and FENCE in 3 cycles. -/
theorem test_micro_from_reset :
    let m : Micro := { cu := ControlUnit.reset, mi := { idleInterface with fsm := .op2A }.rst, ir := 0#32, rs1 := 0#32, rs2 := 0#32, hart := State.reset.withFetchWord 32 0x0FF0000F }
    m.cu = ControlUnit.reset ∧ m.mi.fsm = .op1A ∧ (Micro.ticks 4 m).map (fun t => (t.hart.pc, t.mi.fsm, t.cu.uCycle)) = some (4#32, .op1A, 0x01#8) := by
  decide

end Sys2Proof.Tests
end

section
/-! Forward rules of a step (R9): the converses of `run_eq_next` and `step_eq_next`, for every outcome of the instruction. -/

namespace Sys2Proof.Machine

/-- A hart that does not hang runs the word its fetch is answered with. -/
theorem step_of_fetch_ok {s : State} {w : Word} (hhung : s.hung = false) (hfetch : s.fetch = .ok w) : step s = s.run w := by
  simp [step, hhung, hfetch]

/-- A word that decodes to an instruction runs as that instruction. -/
theorem run_of_decode_instr {s : State} {w : Word} {i : Instr} (hdecode : decode s.cfg.regCount s.cfg.decodeMode w = .instr i) :
    s.run w = exec i s := by
  simp [State.run, hdecode]

/-- Settles O44: the fetch hands its word to `State.run`, which hands the decoded instruction to `exec`. -/
theorem stepRunsDecodedInstruction : Obligations.StepRunsDecodedInstruction := by
  intro s w i hhung hfetch hdecode
  calc step s = s.run w := step_of_fetch_ok hhung hfetch
    _ = exec i s := run_of_decode_instr hdecode

end Sys2Proof.Machine
end

section
/-! Memory in canonical form is determined by its bytes (R28, log 3). -/

namespace Sys2Proof.Machine

/-- The first listed address of a memory reads as its byte. -/
theorem byteAt_cons_self (a : Nat) (v : Byte) (rest : Memory) : Memory.byteAt ((a, v) :: rest) a = v := by
  simp [Memory.byteAt]

/-- Past the first listed address a memory reads as the rest of the list. -/
theorem byteAt_cons_of_ne {a b : Nat} (v : Byte) (rest : Memory) (h : a ≠ b) : Memory.byteAt ((a, v) :: rest) b = rest.byteAt b := by
  simp [Memory.byteAt, h]

/-- A canonical memory that lists `a` differs at `a` from one that lists only higher addresses. -/
theorem byteAt_ne_of_lt {lo lo' a : Nat} {v : Byte} {rest m' : Memory} (hm : Memory.wfFrom lo ((a, v) :: rest) = true)
    (hm' : Memory.wfFrom lo' m' = true) (h : a < lo') : Memory.byteAt ((a, v) :: rest) a ≠ m'.byteAt a := by
  obtain ⟨-, -, hv, -⟩ := wfFrom_cons.mp hm
  rwa [byteAt_cons_self, byteAt_of_lt hm' h]

/-- Canonical lists that read the same at every address below 2^32 are equal. -/
theorem wfFrom_ext {m m' : Memory} {lo lo' : Nat} (hm : Memory.wfFrom lo m = true) (hm' : Memory.wfFrom lo' m' = true)
    (hread : ∀ a < 2 ^ 32, m.byteAt a = m'.byteAt a) : m = m' := by
  induction m generalizing m' lo lo' with
  | nil =>
    cases m' with
    | nil => rfl
    | cons c' rest' =>
      obtain ⟨b, w⟩ := c'
      have hb := (wfFrom_cons.mp hm').2.1
      have hnil : Memory.wfFrom (b + 1) [] = true := rfl
      exact absurd (hread b hb).symm (byteAt_ne_of_lt hm' hnil (Nat.lt_succ_self b))
  | cons c rest ih =>
    obtain ⟨a, v⟩ := c
    obtain ⟨-, ha, hv, hrest⟩ := wfFrom_cons.mp hm
    cases m' with
    | nil =>
      have hnil : Memory.wfFrom (a + 1) [] = true := rfl
      exact absurd (hread a ha) (byteAt_ne_of_lt hm hnil (Nat.lt_succ_self a))
    | cons c' rest' =>
      obtain ⟨b, w⟩ := c'
      obtain ⟨-, hb, hw, hrest'⟩ := wfFrom_cons.mp hm'
      have hab : a = b := by
        rcases Nat.lt_trichotomy a b with hlt | heq | hgt
        · exact absurd (hread a ha) (byteAt_ne_of_lt hm (wfFrom_cons.mpr ⟨le_refl b, hb, hw, hrest'⟩) hlt)
        · exact heq
        · exact absurd (hread b hb).symm (byteAt_ne_of_lt hm' (wfFrom_cons.mpr ⟨le_refl a, ha, hv, hrest⟩) hgt)
      subst hab
      have hvw : v = w := by simpa only [byteAt_cons_self] using hread a ha
      have hrests : rest = rest' := ih hrest hrest' fun k hk => by
        by_cases hka : k ≤ a
        · rw [byteAt_of_lt hrest (by omega), byteAt_of_lt hrest' (by omega)]
        · simpa only [byteAt_cons_of_ne _ _ (show a ≠ k by omega)] using hread k hk
      rw [hvw, hrests]

/-- Settles O16: every address below 2^32 is a 32-bit address, so `wfFrom_ext` applies. -/
theorem canonicalMemoryIsUnique : Obligations.CanonicalMemoryIsUnique := by
  intro m m' hm hm' hread
  refine wfFrom_ext hm hm' fun a ha => ?_
  simpa only [BitVec.toNat_ofNat, Nat.mod_eq_of_lt ha] using hread (BitVec.ofNat 32 a)

end Sys2Proof.Machine
end

section
/-! What an instruction that completes does to the state, said once (`exec_effect`); the frame, the pc and the invariant follow from it. -/

namespace Sys2Proof.Machine

section
variable {i : Instr} {s t : State}

/-- From `s` to `t` instruction `i` has had one of five effects: a result in rd, no effect but on pc, a store, a jump with its link, a taken branch. -/
inductive Effect (i : Instr) (s : State) : State → Prop where
  /-- A value goes to rd, and pc to pc + 4. -/
  | result (rd : RegNum) (v : Word) (hdest : i.dest = some rd) (hgo : ∀ target, ¬ goesTo s i target) : Effect i s (s.setReg rd v).advance
  /-- pc goes to pc + 4: FENCE and a branch not taken. -/
  | advance (hgo : ∀ target, ¬ goesTo s i target) : Effect i s s.advance
  /-- Some bytes of memory are set, and pc goes to pc + 4. -/
  | store (cells : List (Word × Byte)) (hstore : isStore i = true) (hgo : ∀ target, ¬ goesTo s i target) :
      Effect i s (State.advance { s with mem := s.mem.setBytes cells })
  /-- The link value goes to rd, and pc to a target it may reach. -/
  | jump (rd : RegNum) (target : Word) (hdest : i.dest = some rd) (hgo : goesTo s i target) (hreach : s.mayReach target) :
      Effect i s ((s.setReg rd (s.pc + 4#32)).setPc target)
  /-- pc goes to a target it may reach. -/
  | branch (target : Word) (hgo : goesTo s i target) (hreach : s.mayReach target) : Effect i s (s.setPc target)

/-! ### The shared courses of instructions have these effects -/

theorem effect_of_writeBack {rd : RegNum} {v : Word} (hdest : i.dest = some rd) (hgo : ∀ target, ¬ goesTo s i target)
    (h : s.writeBack rd v = .next t) : Effect i s t := by
  cases h
  exact .result rd v hdest hgo

theorem effect_of_load {rd rs1 : RegNum} {imm : BitVec 12} {n : Nat} {ext : Word → Word} (hdest : i.dest = some rd)
    (hgo : ∀ target, ¬ goesTo s i target) (h : s.load rd rs1 imm n ext = .next t) : Effect i s t := by
  obtain ⟨rfl, -⟩ := load_eq_next h
  exact .result rd _ hdest hgo

theorem effect_of_store {rs2 rs1 : RegNum} {imm : BitVec 12} {n : Nat} (hstore : isStore i = true)
    (hgo : ∀ target, ¬ goesTo s i target) (h : s.store rs2 rs1 imm n = .next t) : Effect i s t := by
  obtain ⟨rfl, -⟩ := store_eq_next h
  exact .store _ hstore hgo

theorem effect_of_jump {rd : RegNum} {target : Word} (hdest : i.dest = some rd) (hgo : goesTo s i target)
    (h : s.transfer target (s.setReg rd (s.pc + 4#32)) = .next t) : Effect i s t := by
  obtain ⟨rfl, hreach⟩ := transfer_eq_next h
  exact .jump rd target hdest hgo hreach

theorem effect_of_branch {taken : Bool} {off : BitVec 13} (hgo : ∀ target, goesTo s i target ↔ taken = true ∧ target = s.pc + immB off)
    (h : s.branch taken off = .next t) : Effect i s t := by
  rcases branch_eq_next h with ⟨hnot, rfl⟩ | ⟨htaken, rfl, hreach⟩
  · exact .advance fun target hg => absurd ((hgo target).mp hg).1 (by simp [hnot])
  · exact .branch _ ((hgo _).mpr ⟨htaken, rfl⟩) hreach

/-- The inversion of `exec`: an instruction that completed had one of the five effects. -/
theorem exec_effect (h : exec i s = .next t) : Effect i s t := by
  cases i
  case jal rd off => exact effect_of_jump rfl rfl h
  case jalr rd rs1 imm => exact effect_of_jump rfl rfl h
  case beq | bne | blt | bge | bltu | bgeu => exact effect_of_branch (fun _ => by simp [goesTo, branchHolds, flagsOf, immB]) h
  case lb | lh | lw | lbu | lhu => exact effect_of_load rfl (fun _ => id) h
  case sb | sh | sw => exact effect_of_store rfl (fun _ => id) h
  case fence => cases h; exact .advance fun _ => id
  case ecall | ebreak => cases h
  all_goals exact effect_of_writeBack rfl (fun _ => id) h

/-! ### The frame of an instruction -/

/-- No effect changes another register than rd. -/
theorem Effect.reg_of_ne_dest (h : Effect i s t) {q : RegNum} (hq : i.dest ≠ some q) : t.reg q = s.reg q := by
  have hne {rd : RegNum} (hdest : i.dest = some rd) : q ≠ rd := fun e => hq (e ▸ hdest)
  cases h with
  | result rd v hdest => rw [advance_reg, reg_setReg_of_ne _ _ _ _ (hne hdest)]
  | advance => rfl
  | store => rfl
  | jump rd target hdest => rw [setPc_reg, reg_setReg_of_ne _ _ _ _ (hne hdest)]
  | branch => rfl

/-- Only the effect of a store changes memory. -/
theorem Effect.mem_of_not_store (h : Effect i s t) (hstore : isStore i = false) : t.mem = s.mem := by
  cases h with
  | result => simp
  | advance => rfl
  | store cells hs => simp [hs] at hstore
  | jump => simp
  | branch => rfl

/-- No effect changes the parameters or hangs the hart. -/
theorem Effect.sameMachine (h : Effect i s t) : s.sameMachine t := by
  cases h with
  | result => exact ⟨by simp, by simp⟩
  | advance => exact ⟨rfl, rfl⟩
  | store => exact ⟨rfl, rfl⟩
  | jump => exact ⟨by simp, by simp⟩
  | branch => exact ⟨rfl, rfl⟩

/-! ### The pc an instruction leaves -/

/-- An instruction transfers control to one target at most. -/
theorem goesTo_unique {a b : Word} (ha : goesTo s i a) (hb : goesTo s i b) : a = b := by
  cases i
  case jal | jalr => exact ha.trans hb.symm
  case beq | bne | blt | bge | bltu | bgeu => exact ha.2.trans hb.2.symm
  all_goals exact ha.elim

/-- An instruction that goes to no target advances pc; one that goes to a target, which it may reach, leaves it in pc. -/
theorem Effect.pc (h : Effect i s t) :
    ((∀ target, ¬ goesTo s i target) ∧ t.pc = s.pc + 4#32) ∨ (goesTo s i t.pc ∧ s.mayReach t.pc) := by
  cases h with
  | result rd v hdest hgo => exact .inl ⟨hgo, by simp⟩
  | advance hgo => exact .inl ⟨hgo, rfl⟩
  | store cells hstore hgo => exact .inl ⟨hgo, rfl⟩
  | jump rd target hdest hgo hreach => exact .inr ⟨hgo, hreach⟩
  | branch target hgo hreach => exact .inr ⟨hgo, hreach⟩

end

/-- Settles O48, from the frame of each effect. -/
theorem instructionsChangeOnlyTheirDestination : Obligations.InstructionsChangeOnlyTheirDestination := by
  intro i s t h
  have heff := exec_effect h
  exact ⟨fun _ => heff.reg_of_ne_dest, reg_zero t, heff.mem_of_not_store, heff.sameMachine⟩

/-- Settles O47: the target a completed instruction goes to is unique, and without one pc advances. -/
theorem onlyJumpsAndBranchesSetPc : Obligations.OnlyJumpsAndBranchesSetPc := by
  intro i s t h
  rcases (exec_effect h).pc with ⟨hnone, hpc⟩ | ⟨hgo, -⟩
  · exact ⟨fun target hg => absurd hg (hnone target), fun _ => hpc⟩
  · exact ⟨fun _ hg => goesTo_unique hgo hg, fun hnone => absurd hgo (hnone t.pc)⟩

end Sys2Proof.Machine
end

section
/-! The offsets a decoded instruction can have are even (R75, R77), in both decode modes. -/

namespace Sys2Proof

section
variable {w : Word} {i : Instr}

/-- The register check lets an instruction through exactly when its registers exist. -/
theorem checkRegs_eq_instr {n : RegCount} {d : Decoded} : checkRegs n d = .instr i ↔ d = .instr i ∧ i.regsExist n = true := by
  cases d with
  | instr j =>
    have hcheck : checkRegs n (.instr j) = if j.regsExist n then .instr j else .illegal := rfl
    rw [hcheck]
    split
    · next hj => simpa using fun e : j = i => e ▸ hj
    · next hj => simpa using fun e : j = i => by simpa [e] using hj
  | illegal => simp [checkRegs]
  | noInstructionNumber => simp [checkRegs]

/-- `decodedOr` answers an instruction where there is one. -/
theorem decodedOr_eq_instr {o : Option Instr} : decodedOr o = .instr i ↔ o = some i := by
  cases o <;> simp [decodedOr]

theorem decodeBranch_offsetEven (h : decodeBranch w = some i) : i.offsetEven = true := by
  unfold decodeBranch at h
  split at h <;> cases h <;> simp only [Instr.offsetEven, immBOf_even, Bool.not_false]

theorem decodeLoad_offsetEven (h : decodeLoad w = some i) : i.offsetEven = true := by
  unfold decodeLoad at h
  split at h <;> cases h <;> rfl

theorem decodeStore_offsetEven (h : decodeStore w = some i) : i.offsetEven = true := by
  unfold decodeStore at h
  split at h <;> cases h <;> rfl

theorem decodeOpImmPlain_offsetEven (h : decodeOpImmPlain w = some i) : i.offsetEven = true := by
  unfold decodeOpImmPlain at h
  split at h <;> cases h <;> rfl

theorem decodeShiftStrict_offsetEven (h : decodeShiftStrict w = some i) : i.offsetEven = true := by
  unfold decodeShiftStrict at h
  split at h <;> cases h <;> rfl

theorem decodeOpStrict_offsetEven (h : decodeOpStrict w = some i) : i.offsetEven = true := by
  unfold decodeOpStrict at h
  split at h <;> cases h <;> rfl

theorem decodeMiscMem_offsetEven (h : decodeMiscMem w = some i) : i.offsetEven = true := by
  unfold decodeMiscMem at h
  split at h <;> cases h
  rfl

theorem decodeShiftCu_offsetEven (h : decodeShiftCu w = some i) : i.offsetEven = true := by
  unfold decodeShiftCu at h
  split_ifs at h <;> cases h <;> rfl

theorem decodeOpCu_offsetEven (h : decodeOpCu w = some i) : i.offsetEven = true := by
  unfold decodeOpCu at h
  repeat' split at h
  all_goals cases h; rfl

theorem decodeStrictUnder_offsetEven {m : Major} (h : decodeStrictUnder m w = some i) : i.offsetEven = true := by
  cases m
  case jal => cases h; simp only [Instr.offsetEven, immJOf_even, Bool.not_false]
  case branch => exact decodeBranch_offsetEven h
  case load => exact decodeLoad_offsetEven h
  case store => exact decodeStore_offsetEven h
  case op => exact decodeOpStrict_offsetEven h
  case miscMem => exact decodeMiscMem_offsetEven h
  case opImm =>
    simp only [decodeStrictUnder] at h
    split at h
    · exact decodeShiftStrict_offsetEven h
    · exact decodeOpImmPlain_offsetEven h
  case jalr | system =>
    simp only [decodeStrictUnder] at h
    split_ifs at h <;> cases h <;> rfl
  case custom0 | custom1 | custom2 | custom3 => cases h
  case lui | auipc => cases h; rfl

theorem decodeStrict_offsetEven (h : decodeStrict w = some i) : i.offsetEven = true := by
  unfold decodeStrict at h
  split at h
  · obtain ⟨m, -, hm⟩ := Option.bind_eq_some_iff.mp h
    exact decodeStrictUnder_offsetEven hm
  · cases h

theorem decodeCuUnder_offsetEven {m : Major} (h : decodeCuUnder m w = .instr i) : i.offsetEven = true := by
  cases m
  case jal => cases h; simp only [Instr.offsetEven, immJOf_even, Bool.not_false]
  case branch => exact decodeBranch_offsetEven (decodedOr_eq_instr.mp h)
  case op => exact decodeOpCu_offsetEven (decodedOr_eq_instr.mp h)
  case miscMem => exact decodeMiscMem_offsetEven (decodedOr_eq_instr.mp h)
  case load =>
    simp only [decodeCuUnder] at h
    split at h
    · cases h; rfl
    · exact decodeLoad_offsetEven (decodedOr_eq_instr.mp h)
  case opImm =>
    have hi := decodedOr_eq_instr.mp h
    split at hi
    · exact decodeShiftCu_offsetEven hi
    · exact decodeOpImmPlain_offsetEven hi
  case store | system =>
    simp only [decodeCuUnder] at h
    split_ifs at h <;> cases h <;> rfl
  case custom0 | custom1 | custom2 | custom3 => cases h
  case lui | auipc | jalr => cases h; rfl

theorem decodeCu_offsetEven (h : decodeCu w = .instr i) : i.offsetEven = true := by
  unfold decodeCu at h
  split at h
  · exact decodeCuUnder_offsetEven h
  · cases h

/-- Whatever the mode and the register count, a decoded instruction has an even offset. -/
theorem decode_offsetEven {n : RegCount} {mode : DecodeMode} (h : decode n mode w = .instr i) : i.offsetEven = true := by
  obtain ⟨hraw, -⟩ := checkRegs_eq_instr.mp h
  cases mode with
  | strict =>
    cases hd : decodeStrict w with
    | none => simp [hd] at hraw
    | some j =>
      simp only [hd, Decoded.instr.injEq] at hraw
      exact decodeStrict_offsetEven (hraw ▸ hd)
  | cuPartial => exact decodeCu_offsetEven hraw

end

end Sys2Proof
end

section
/-! Every step keeps the invariant (R20, R24, R28). -/

namespace Sys2Proof.Machine

section
variable {i : Instr} {s t : State}

/-! ### Alignment of addresses -/

/-- An address is even when its bit 0 is clear. -/
theorem lowBit_eq_zero_iff (a : Word) : a.extractLsb' 0 1 = 0#1 ↔ a.getLsbD 0 = false := by
  constructor
  · intro h; simpa using congrArg (BitVec.getLsbD · 0) h
  · intro h
    apply BitVec.eq_of_getLsbD_eq
    intro k hk
    obtain rfl : k = 0 := by omega
    simpa using h

/-- The sum of even addresses is even. -/
theorem even_add {a b : Word} (ha : a.getLsbD 0 = false) (hb : b.getLsbD 0 = false) : (a + b).getLsbD 0 = false := by
  rw [BitVec.getLsbD_add (by decide), ha, hb, BitVec.carry_zero]
  rfl

/-- An even offset is an even displacement. -/
theorem even_signExtend {n : Nat} (hn : 0 < n) {x : BitVec n} (h : x.getLsbD 0 = false) : (x.signExtend 32).getLsbD 0 = false := by
  rw [BitVec.getLsbD_signExtend, if_pos hn, h, Bool.and_false]

/-- The address after one that is a multiple of 4 is a multiple of 4. -/
theorem aligned_add_four {a : Word} (h : a.extractLsb' 0 2 = 0#2) : (a + 4#32).extractLsb' 0 2 = 0#2 := by
  have hmod : a.toNat % 4 = 0 := by simpa using congrArg BitVec.toNat h
  apply BitVec.eq_of_toNat_eq
  simp
  omega

/-- From an even pc an instruction with an even offset goes to an even target; JALR clears bit 0. -/
theorem goesTo_even {target : Word} (hpc : s.pc.getLsbD 0 = false) (hoff : i.offsetEven = true) (h : goesTo s i target) :
    target.getLsbD 0 = false := by
  cases i
  case jalr => rw [show target = _ from h]; simp
  case jal rd off =>
    rw [show target = _ from h]
    exact even_add hpc (even_signExtend (by decide) (by simpa only [Instr.offsetEven, Bool.not_eq_true'] using hoff))
  case beq _ _ off | bne _ _ off | blt _ _ off | bge _ _ off | bltu _ _ off | bgeu _ _ off =>
    rw [h.2]
    exact even_add hpc (even_signExtend (by decide) (by simpa only [Instr.offsetEven, Bool.not_eq_true'] using hoff))
  all_goals exact h.elim

/-! ### Each part of the invariant -/

/-- Every effect keeps memory canonical. -/
theorem Effect.mem_wf (h : Effect i s t) (hmem : s.mem.wf = true) : t.mem.wf = true := by
  cases h with
  | result => simpa
  | advance => exact hmem
  | store cells => exact wf_setBytes cells hmem
  | jump => simpa
  | branch => exact hmem

/-- No effect writes the x0 slot. -/
theorem Effect.slot0 (h : Effect i s t) : t.x[0] = s.x[0] := by
  cases h with
  | result => simp
  | advance => rfl
  | store => rfl
  | jump => simp
  | branch => rfl

/-- An instruction with an even offset keeps pc even. -/
theorem Effect.pc_even (h : Effect i s t) (hoff : i.offsetEven = true) (hpc : s.pc.getLsbD 0 = false) : t.pc.getLsbD 0 = false := by
  rcases h.pc with ⟨-, hnext⟩ | ⟨hgo, -⟩
  · rw [hnext]; exact even_add hpc rfl
  · exact goesTo_even hpc hoff hgo

/-- Under FETCH_MISALIGNED = trap every effect keeps pc a multiple of 4. -/
theorem Effect.pc_aligned (h : Effect i s t) (htrap : s.cfg.fetchMisaligned = .trap) (hpc : s.pc.extractLsb' 0 2 = 0#2) :
    t.pc.extractLsb' 0 2 = 0#2 := by
  rcases h.pc with ⟨-, hnext⟩ | ⟨-, hreach⟩
  · rw [hnext]; exact aligned_add_four hpc
  · exact hreach htrap

/-- An instruction with an even offset that completes keeps the invariant. -/
theorem Effect.inv (h : Effect i s t) (hoff : i.offsetEven = true) (hinv : s.Inv) : t.Inv := by
  obtain ⟨hmem, hx0, heven, haligned, hwf, hhung⟩ := hinv
  obtain ⟨hcfg, hsame⟩ := h.sameMachine
  refine ⟨h.mem_wf hmem, h.slot0.trans hx0, ?_, ?_, ?_, hsame.trans hhung⟩
  · exact (lowBit_eq_zero_iff _).mpr (h.pc_even hoff ((lowBit_eq_zero_iff _).mp heven))
  · rw [hcfg]; exact fun htrap => h.pc_aligned htrap (haligned htrap)
  · rw [hcfg]; exact hwf

end

/-- Settles O45: a step that completes is a decoded instruction's effect, and a decoded offset is even. -/
theorem stepKeepsInvariant : Obligations.StepKeepsInvariant := by
  intro s t hinv h
  obtain ⟨-, w, i, -, hdecode, hexec⟩ := step_eq_next h
  exact (exec_effect hexec).inv (decode_offsetEven hdecode) hinv

/-! ### The invariant after reset -/

/-- The state after reset has the invariant, for every well-formed configuration and canonical memory. -/
theorem resetWith_inv (c : Config) (x : Vector Word 32) (mem : Memory) (hc : c.WF) (hmem : mem.wf = true) :
    (State.resetWith c x mem).Inv := by
  have heven : c.resetPc.extractLsb' 0 1 = 0#1 := by
    rw [lowBit_eq_zero_iff]
    simpa using congrArg (BitVec.getLsbD · 0) hc
  exact ⟨hmem, by simp [State.resetWith], heven, fun _ => hc, hc, rfl⟩

/-- Settles O46: `State.reset` by evaluation, `State.resetWith` by `resetWith_inv`. -/
theorem resetHasInvariant : Obligations.ResetHasInvariant := by
  exact ⟨by decide, fun c x mem hc hmem => ⟨resetWith_inv c x mem hc hmem, rfl, rfl⟩⟩

end Sys2Proof.Machine
end

section
/-! The registers of RV32E (R21, R90, R3): a word that names one of x16 to x31 is reserved, and nothing else touches their slots. -/

namespace Sys2Proof

section
variable {i : Instr}

/-- All registers of the encoding exist with 32 of them. -/
theorem regsExist_rv32i (i : Instr) : i.regsExist .rv32i = true := by
  simp only [Instr.regsExist, List.all_eq_true, regExists, decide_eq_true_eq]
  exact fun r _ => r.isLt

/-- With 16 registers those of an instruction exist when all its fields are below 16. -/
theorem regsExist_rv32e : i.regsExist .rv32e = true ↔ ∀ r ∈ i.regs, r.toNat < 16 := by
  simp only [Instr.regsExist, List.all_eq_true, regExists]
  exact forall₂_congr fun _ _ => decide_eq_true_iff

/-- With 32 registers the register check changes nothing. -/
theorem checkRegs_rv32i (d : Decoded) : checkRegs .rv32i d = d := by
  cases d with
  | instr i => exact checkRegs_eq_instr.mpr ⟨rfl, regsExist_rv32i i⟩
  | illegal => rfl
  | noInstructionNumber => rfl

/-- An instruction with a register that does not exist is rejected. -/
theorem checkRegs_instr_of_not {n : RegCount} (h : ¬ i.regsExist n = true) : checkRegs n (.instr i) = .illegal := if_neg h

/-- What is no instruction passes the register check as it is. -/
theorem checkRegs_of_not_instr {n : RegCount} {d : Decoded} (h : ∀ i, d ≠ .instr i) : checkRegs n d = d := by
  cases d with
  | instr i => exact absurd rfl (h i)
  | illegal => rfl
  | noInstructionNumber => rfl

/-- Decoding with 16 registers is decoding with 32 and checking the registers against 16. -/
theorem decode_rv32e (mode : DecodeMode) (w : Word) : decode .rv32e mode w = checkRegs .rv32e (decode .rv32i mode w) := by
  simp only [decode, checkRegs_rv32i]

end

/-- Settles O11: `decode_rv32e` and the register check case by case. -/
theorem rv32eRejectsHighRegisters : Obligations.Rv32eRejectsHighRegisters := by
  intro mode w
  rw [decode_rv32e]
  refine ⟨fun i hi => ⟨fun hlow => ?_, fun ⟨r, hr, hhigh⟩ => ?_⟩, fun d hd hnot => ?_⟩
  · rw [hi]
    exact checkRegs_eq_instr.mpr ⟨rfl, regsExist_rv32e.mpr hlow⟩
  · rw [hi]
    exact checkRegs_instr_of_not fun h => absurd (regsExist_rv32e.mp h r hr) (by omega)
  · rw [hd]
    exact checkRegs_of_not_instr hnot

end Sys2Proof

namespace Sys2Proof.Machine

/-! ### Writing a register commutes with every operation that does not name it -/

section
variable (s : State) (q : RegNum) (v : Word)

/-- Writes to two different registers commute. -/
theorem setReg_comm {r : RegNum} (u : Word) (h : q ≠ r) : (s.setReg q v).setReg r u = (s.setReg r u).setReg q v := by
  have hn : q.toNat ≠ r.toNat := fun e => h (BitVec.eq_of_toNat_eq e)
  unfold State.setReg
  split_ifs
  · rfl
  · rfl
  · rfl
  · simp [Vector.set_comm _ _ hn]

theorem setPc_setReg (t : Word) : (s.setReg q v).setPc t = (s.setPc t).setReg q v := by
  unfold State.setReg; split <;> rfl

theorem advance_setReg : (s.setReg q v).advance = s.advance.setReg q v := by
  simp only [State.advance, setReg_pc, setPc_setReg]

theorem hang_setReg : (s.setReg q v).hang = s.hang.setReg q v := by
  unfold State.setReg; split <;> rfl

theorem withMem_setReg (m : Memory) : { s.setReg q v with mem := m } = State.setReg { s with mem := m } q v := by
  unfold State.setReg; split <;> rfl

end

/-- A reply with a function applied to the state it hangs in and another to its value. -/
def Reply.mapStates {α : Type} (f : State → State) (g : α → α) : Reply α → Reply α
  | .ok v => .ok (g v)
  | .stuck left => .stuck (f left)
  | .device a => .device a

section
variable {α β : Type} {f : State → State} {g : α → α}

theorem bind_mapStates {g' : β → β} {k k' : α → Reply β} (r : Reply α) (h : ∀ a, k' (g a) = (k a).mapStates f g') :
    (r.mapStates f g).bind k' = (r.bind k).mapStates f g' := by
  cases r with
  | ok a => exact h a
  | stuck => rfl
  | device => rfl

theorem toResult_mapStates {k k' : α → Result} (r : Reply α) (h : ∀ a, k' (g a) = Result.mapState f (k a)) :
    (r.mapStates f g).toResult k' = Result.mapState f (r.toResult k) := by
  cases r with
  | ok a => exact h a
  | stuck => rfl
  | device => rfl

end

section
variable (s : State) (q : RegNum) (v : Word)

/-! ### Requests to memory do not see the registers -/

theorem busRead_setReg (as : List Word) : (s.setReg q v).busRead as = (s.busRead as).mapStates (·.setReg q v) id := by
  have hbyte : (s.setReg q v).byte = s.byte := funext fun a => setReg_byte s q v a
  simp only [State.busRead, setReg_cfg, hbyte, hang_setReg]
  cases busAnswer s.cfg.memMap as <;> rfl

theorem busWrite_setReg (cells : List (Word × Byte)) :
    (s.setReg q v).busWrite cells = (s.busWrite cells).mapStates (·.setReg q v) (·.setReg q v) := by
  simp only [State.busWrite, withMem_setReg]
  simp only [setReg_cfg, setReg_mem, hang_setReg]
  cases busAnswer s.cfg.memMap (cells.map Prod.fst) <;> rfl

theorem memRead_setReg (a : Word) (n : Nat) : (s.setReg q v).memRead a n = (s.memRead a n).mapStates (·.setReg q v) id := by
  simp only [State.memRead, busRead_setReg]
  exact bind_mapStates _ fun lo => bind_mapStates _ fun hi => rfl

theorem memWrite_setReg (a : Word) (n : Nat) (u : Word) :
    (s.setReg q v).memWrite a n u = (s.memWrite a n u).mapStates (·.setReg q v) (·.setReg q v) := by
  simp only [State.memWrite, busWrite_setReg]
  exact bind_mapStates _ fun t => busWrite_setReg t q v _

theorem fetch_setReg : (s.setReg q v).fetch = s.fetch.mapStates (·.setReg q v) id := by
  simp only [State.fetch, setReg_pc, memRead_setReg]

/-! ### The shared courses of instructions -/

theorem raise_setReg (e : Exception) : (s.setReg q v).raise e = Result.mapState (·.setReg q v) (s.raise e) := by
  simp only [State.raise, setReg_pc, Result.mapState]

theorem transfer_setReg (t : State) (target : Word) :
    (s.setReg q v).transfer target (t.setReg q v) = Result.mapState (·.setReg q v) (s.transfer target t) := by
  simp only [State.transfer, setReg_cfg, raise_setReg, setPc_setReg]
  split <;> rfl

theorem branch_setReg (taken : Bool) (off : BitVec 13) :
    (s.setReg q v).branch taken off = Result.mapState (·.setReg q v) (s.branch taken off) := by
  simp only [State.branch, setReg_pc, transfer_setReg, advance_setReg]
  split <;> rfl

variable {q}

theorem writeBack_setReg {rd : RegNum} (u : Word) (h : q ≠ rd) :
    (s.setReg q v).writeBack rd u = Result.mapState (·.setReg q v) (s.writeBack rd u) := by
  simp only [State.writeBack, setReg_comm s q v u h, advance_setReg, Result.mapState]

theorem link_setReg {rd : RegNum} (target u : Word) (h : q ≠ rd) :
    (s.setReg q v).transfer target ((s.setReg q v).setReg rd u) = Result.mapState (·.setReg q v) (s.transfer target (s.setReg rd u)) := by
  rw [setReg_comm s q v _ h, transfer_setReg]

theorem load_setReg {rd rs1 : RegNum} (imm : BitVec 12) (n : Nat) (ext : Word → Word) (hrd : q ≠ rd) (hrs1 : q ≠ rs1) :
    (s.setReg q v).load rd rs1 imm n ext = Result.mapState (·.setReg q v) (s.load rd rs1 imm n ext) := by
  simp only [State.load, State.effAddr, reg_setReg_of_ne s q v _ hrs1.symm, memRead_setReg]
  exact toResult_mapStates _ fun u => writeBack_setReg s v (ext u) hrd

theorem store_setReg {rs2 rs1 : RegNum} (imm : BitVec 12) (n : Nat) (hrs2 : q ≠ rs2) (hrs1 : q ≠ rs1) :
    (s.setReg q v).store rs2 rs1 imm n = Result.mapState (·.setReg q v) (s.store rs2 rs1 imm n) := by
  simp only [State.store, State.effAddr, reg_setReg_of_ne s q v _ hrs1.symm, reg_setReg_of_ne s q v _ hrs2.symm, memWrite_setReg]
  exact toResult_mapStates _ fun t => congrArg Host.Outcome.next (advance_setReg t q v)

/-- An instruction neither reads nor writes a register it does not name. -/
theorem exec_setReg {i : Instr} (h : q ∉ i.regs) : exec i (s.setReg q v) = Result.mapState (·.setReg q v) (exec i s) := by
  cases i <;> simp only [Instr.regs, List.mem_cons, List.not_mem_nil, or_false, not_or] at h
  case lui => exact writeBack_setReg s v _ h
  case auipc => simp only [exec, execAuipc, setReg_pc, writeBack_setReg s v _ h]
  case addi | slti | sltiu | xori | ori | andi | slli | srli | srai =>
    obtain ⟨hrd, hrs1⟩ := h
    simp only [exec, execAddi, execSlti, execSltiu, execXori, execOri, execAndi, execSlli, execSrli, execSrai,
      reg_setReg_of_ne s q v _ (Ne.symm hrs1), writeBack_setReg s v _ hrd]
  case add | sub | sll | slt | sltu | xor | srl | sra | or | and =>
    obtain ⟨hrd, hrs1, hrs2⟩ := h
    simp only [exec, execAdd, execSub, execSll, execSlt, execSltu, execXor, execSrl, execSra, execOr, execAnd,
      reg_setReg_of_ne s q v _ (Ne.symm hrs1), reg_setReg_of_ne s q v _ (Ne.symm hrs2), writeBack_setReg s v _ hrd]
  case lb | lh | lw | lbu | lhu => exact load_setReg s v _ _ _ h.1 h.2
  case sb | sh | sw => exact store_setReg s v _ _ h.2 h.1
  case beq | bne | blt | bge | bltu | bgeu =>
    obtain ⟨hrs1, hrs2⟩ := h
    simp only [exec, execBeq, execBne, execBlt, execBge, execBltu, execBgeu, reg_setReg_of_ne s q v _ (Ne.symm hrs1),
      reg_setReg_of_ne s q v _ (Ne.symm hrs2), branch_setReg]
  case jal => simp only [exec, execJal, setReg_pc, link_setReg s v _ _ h]
  case jalr =>
    obtain ⟨hrd, hrs1⟩ := h
    simp only [exec, execJalr, setReg_pc, reg_setReg_of_ne s q v _ (Ne.symm hrs1), link_setReg s v _ _ hrd]
  case fence => exact congrArg Host.Outcome.next (advance_setReg s q v)
  case ecall => exact raise_setReg s q v _
  case ebreak => simp only [exec, execEbreak, setReg_pc, raise_setReg]

/-- Under RV32E a word that runs names no register of 16 or more. -/
theorem notMem_regs_of_decode_rv32e {mode : DecodeMode} {w : Word} {i : Instr} (hq : 16 ≤ q.toNat) (h : decode .rv32e mode w = .instr i) :
    q ∉ i.regs := by
  obtain ⟨-, hexist⟩ := checkRegs_eq_instr.mp h
  exact fun hmem => absurd (regsExist_rv32e.mp hexist q hmem) (by omega)

theorem run_setReg_of_rv32e (w : Word) (hrv : s.cfg.regCount = .rv32e) (hq : 16 ≤ q.toNat) :
    (s.setReg q v).run w = Result.mapState (·.setReg q v) (s.run w) := by
  simp only [State.run, setReg_cfg, hrv]
  split
  · next i hi => exact exec_setReg s v (notMem_regs_of_decode_rv32e hq hi)
  · exact raise_setReg s q v _
  · rfl

/-- Under RV32E a step commutes with a write to a slot of x16 to x31. -/
theorem step_setReg_of_rv32e (hrv : s.cfg.regCount = .rv32e) (hq : 16 ≤ q.toNat) :
    step (s.setReg q v) = Result.mapState (·.setReg q v) (step s) := by
  simp only [step, setReg_hung, fetch_setReg]
  split
  · rfl
  · exact toResult_mapStates _ fun w => run_setReg_of_rv32e s v w hrv hq

end

/-! ### The cycle layer -/

/-- The micro-architectural state with a value written to a slot of the register file from outside. -/
def Micro.setReg (m : Micro) (q : RegNum) (v : Word) : Micro := { m with hart := m.hart.setReg q v }

section
variable (m : Micro) {q : RegNum} (v : Word)

@[simp] theorem Micro.setReg_cu : (m.setReg q v).cu = m.cu := rfl
@[simp] theorem Micro.setReg_mi : (m.setReg q v).mi = m.mi := rfl
@[simp] theorem Micro.setReg_ir : (m.setReg q v).ir = m.ir := rfl
@[simp] theorem Micro.setReg_rs1 : (m.setReg q v).rs1 = m.rs1 := rfl
@[simp] theorem Micro.setReg_rs2 : (m.setReg q v).rs2 = m.rs2 := rfl
@[simp] theorem Micro.setReg_hart : (m.setReg q v).hart = m.hart.setReg q v := rfl

@[simp] theorem Micro.aluOp1_setReg : (m.setReg q v).aluOp1 = m.aluOp1 := by simp [Micro.aluOp1]
@[simp] theorem Micro.aluOp2_setReg : (m.setReg q v).aluOp2 = m.aluOp2 := rfl
@[simp] theorem Micro.aluResult_setReg : (m.setReg q v).aluResult = m.aluResult := by simp [Micro.aluResult]
@[simp] theorem Micro.wPC_setReg : (m.setReg q v).wPC = m.wPC := by simp [Micro.wPC]
@[simp] theorem Micro.nextPc_setReg : (m.setReg q v).nextPc = m.nextPc := by simp [Micro.nextPc]
@[simp] theorem Micro.request_setReg : (m.setReg q v).request = m.request := by
  have hpc : (m.setReg q v).hart.pc = m.hart.pc := setReg_pc ..
  unfold Micro.request
  rw [hpc, Micro.aluResult_setReg]
  rfl

variable {m}

/-- With 16 registers no port selects one of x16 to x31. -/
theorem ne_portOf_rv32e (field : RegNum) (hq : 16 ≤ q.toNat) : q ≠ portOf .rv32e field := by
  rintro rfl
  exact absurd (portOf_rv32e_lt field) (by omega)

theorem Micro.readPort_setReg (field : RegNum) (hrv : m.hart.cfg.regCount = .rv32e) (hq : 16 ≤ q.toNat) :
    (m.setReg q v).readPort field = m.readPort field := by
  simp only [Micro.readPort, Micro.setReg_hart, setReg_cfg, hrv, reg_setReg_of_ne _ _ v _ (ne_portOf_rv32e field hq).symm]

theorem Micro.writePort_setReg (field : RegNum) (u : Word) (hrv : m.hart.cfg.regCount = .rv32e) (hq : 16 ≤ q.toNat) :
    (m.setReg q v).writePort field u = (m.writePort field u).setReg q v := by
  simp only [Micro.writePort, Micro.setReg_hart, setReg_cfg, hrv, setReg_comm _ _ v u (ne_portOf_rv32e field hq)]

/-- Under RV32E a clock cycle commutes with a write to a slot of x16 to x31. -/
theorem Micro.tick_setReg_of_rv32e (pready : Bool) (hrv : m.hart.cfg.regCount = .rv32e) (hq : 16 ≤ q.toNat) :
    (m.setReg q v).tick pready = (m.tick pready).map (Micro.setReg · q v) := by
  simp only [Micro.tick, Micro.setReg_cu, Micro.setReg_mi, Micro.setReg_ir, Micro.setReg_hart, setReg_mem, Micro.request_setReg,
    Micro.nextPc_setReg, Micro.aluResult_setReg, Micro.readPort_setReg v _ hrv hq, Micro.writePort_setReg v _ _ hrv hq, Option.map_map]
  congr 1
  funext cu
  simp only [Function.comp_apply, Micro.setReg]
  split_ifs
  all_goals simp only [setPc_setReg, withMem_setReg]

end

/-- Settles O49: a step and a clock cycle commute with the write, and no port selects the slot. -/
theorem rv32eIgnoresHighRegisters : Obligations.Rv32eIgnoresHighRegisters := by
  refine ⟨fun s q v hrv hq => step_setReg_of_rv32e s v hrv hq, fun r => ⟨portOf_rv32e_lt r, fun hr => portOf_of_lt _ r hr, rfl⟩, ?_⟩
  exact fun m q v pready hrv hq => Micro.tick_setReg_of_rv32e v pready hrv hq

end Sys2Proof.Machine
end

section
/-! Little-endian words (R43): the bytes of `leWord`, and an access as a list of addresses and bytes. -/

namespace Sys2Proof

/-- Bit `j` of a little-endian word is bit `j % 8` of its byte `j / 8`, and clear past the last byte. -/
theorem getLsbD_leWord (bs : List Byte) {j : Nat} (hj : j < 32) : (leWord bs).getLsbD j = (bs.getD (j / 8) 0#8).getLsbD (j % 8) := by
  induction bs generalizing j with
  | nil => simp [leWord]
  | cons b rest ih =>
    have hcons : (leWord (b :: rest)).getLsbD j = ((leWord rest <<< 8).getLsbD j || (b.setWidth 32).getLsbD j) := BitVec.getLsbD_or
    rw [hcons, BitVec.getLsbD_shiftLeft, BitVec.getLsbD_setWidth]
    rcases Nat.lt_or_ge j 8 with hlow | hhigh
    · simp [hj, hlow, Nat.div_eq_of_lt hlow, Nat.mod_eq_of_lt hlow]
    · have hdiv : j / 8 = (j - 8) / 8 + 1 := by omega
      have hmod : j % 8 = (j - 8) % 8 := by omega
      rw [ih (by omega), hdiv, hmod, List.getD_cons_succ, BitVec.getLsbD_of_ge b j hhigh]
      simp [hj, hhigh]

/-- Byte `i` of a little-endian word is the `i`-th of the bytes it is made of. -/
theorem extractLsb'_leWord_map_range (f : Nat → Byte) {n i : Nat} (hn : n ≤ 4) (hi : i < n) :
    (leWord ((List.range n).map f)).extractLsb' (8 * i) 8 = f i := by
  apply BitVec.eq_of_getLsbD_eq
  intro j hj
  have hdiv : (8 * i + j) / 8 = i := by omega
  have hmod : (8 * i + j) % 8 = j := by omega
  rw [BitVec.getLsbD_extractLsb', getLsbD_leWord _ (by omega), hdiv, hmod]
  simp [hi, hj]

/-- A little-endian word of `n` bytes has no bit at `8n` or above. -/
theorem toNat_leWord_lt (bs : List Byte) : (leWord bs).toNat < 2 ^ (8 * bs.length) := by
  apply Nat.lt_pow_two_of_testBit
  intro j hj
  change (leWord bs).getLsbD j = false
  rcases Nat.lt_or_ge j 32 with hlt | hge
  · have hout : bs.length ≤ j / 8 := by omega
    simp [getLsbD_leWord bs hlt, hout]
  · exact BitVec.getLsbD_of_ge _ _ hge

/-- The word of `m` bytes of `v` from byte `k` on is `v` shifted right and cut off. -/
theorem leWord_bytes_from (v : Word) (k m : Nat) :
    leWord ((List.range m).map fun i => v.extractLsb' (8 * (k + i)) 8) = BitVec.ofNat 32 ((v.toNat >>> (8 * k)) % 2 ^ (8 * m)) := by
  apply BitVec.eq_of_getLsbD_eq
  intro j hj
  have hbit : 8 * (k + j / 8) + j % 8 = 8 * k + j := by omega
  rw [getLsbD_leWord _ hj, BitVec.getLsbD_ofNat, Nat.testBit_mod_two_pow, Nat.testBit_shiftRight, BitVec.testBit_toNat]
  rcases Nat.lt_or_ge (j / 8) m with hin | hout
  · have hjm : j < 8 * m := by omega
    simp [hin, hj, hjm, hbit, Nat.mod_lt]
  · have hjm : ¬ j < 8 * m := by omega
    simp [hout, hjm]

/-- Words with the same four bytes are equal. -/
theorem word_eq_of_bytes {v w : Word} (h : ∀ i < 4, v.extractLsb' (8 * i) 8 = w.extractLsb' (8 * i) 8) : v = w := by
  apply BitVec.eq_of_getLsbD_eq
  intro j hj
  have hbit : 8 * (j / 8) + j % 8 = j := by omega
  have hbyte := congrArg (BitVec.getLsbD · (j % 8)) (h (j / 8) (by omega))
  simpa [hbit, Nat.mod_lt] using hbyte

end Sys2Proof

namespace Sys2Proof.Machine

/-- What is read byte by byte at the addresses of an access. -/
theorem map_accessAddrs {α : Type} (a : Word) (n : Nat) (f : Word → α) :
    (accessAddrs a n).map f = (List.range n).map fun i => f (a + BitVec.ofNat 32 i) := by
  simp [accessAddrs]

/-- The addresses of an access are those its bytes have. -/
theorem mem_accessAddrs {a b : Word} {n : Nat} : b ∈ accessAddrs a n ↔ ∃ i < n, b = a + BitVec.ofNat 32 i := by
  simp [accessAddrs, eq_comm]

/-- Two bytes of an access have different addresses: an access does not go round the whole address space. -/
theorem add_ofNat_inj {a : Word} {i j : Nat} (hi : i < 2 ^ 32) (hj : j < 2 ^ 32)
    (h : a + BitVec.ofNat 32 i = a + BitVec.ofNat 32 j) : i = j := by
  have hij : BitVec.ofNat 32 i = BitVec.ofNat 32 j := (BitVec.add_right_inj a).mp h
  simpa only [BitVec.toNat_ofNat, Nat.mod_eq_of_lt hi, Nat.mod_eq_of_lt hj] using congrArg BitVec.toNat hij

theorem nodup_accessAddrs (a : Word) {n : Nat} (hn : n ≤ 4) : (accessAddrs a n).Nodup := by
  refine List.Nodup.map_on (fun i hi j hj h => ?_) List.nodup_range
  rw [List.mem_range] at hi hj
  exact add_ofNat_inj (by omega) (by omega) h

/-- The cells of a store, byte by byte (R44). -/
theorem storeCells_eq_map (a : Word) (n : Nat) (v : Word) :
    storeCells a n v = (List.range n).map fun i => (a + BitVec.ofNat 32 i, v.extractLsb' (8 * i) 8) := by
  rw [storeCells, accessAddrs, leBytes, List.zip_map']

end Sys2Proof.Machine
end

section
/-! What memory reads as after a write, and what is read back (R43, R44, R56). -/

namespace Sys2Proof.Machine

/-- An address that is set, once only, reads as its byte. -/
theorem byteAt_setBytes_of_mem {m : Memory} {cells : List (Word × Byte)} {a : Word} {v : Byte} (hm : m.wf = true)
    (hnodup : (cells.map Prod.fst).Nodup) (h : (a, v) ∈ cells) : (m.setBytes cells).byteAt a.toNat = v := by
  induction cells generalizing m with
  | nil => cases h
  | cons c rest ih =>
    obtain ⟨hfresh, hrest⟩ := List.nodup_cons.mp hnodup
    rw [setBytes_cons]
    rcases List.mem_cons.mp h with rfl | hin
    · rw [byteAt_setBytes_of_notMem _ _ _ hfresh]
      exact byteAt_setByte_self hm _ _
    · exact ih (wf_setByte c.1 c.2 hm) hrest hin

/-- The state after a write of the `n` low bytes of `v` at `a` that memory answers (`memWrite_of_memory`). -/
def State.written (s : State) (a : Word) (n : Nat) (v : Word) : State := { s with mem := s.mem.setBytes (storeCells a n v) }

section
variable {s t : State} {a b : Word} {n m i k : Nat} {v : Word}

/-- `MemWrite` completes exactly as `State.written` on memory. -/
theorem memWrite_eq_written (h : s.memWrite a n v = .ok t) : t = s.written a n v ∧ s.answersMemory a n := memWrite_eq_ok h

/-- Byte `i` of the location written reads as byte `i` of the value. -/
theorem byte_written_of_lt (hn : n ≤ 4) (hm : s.mem.wf = true) (hi : i < n) :
    (s.written a n v).byte (a + BitVec.ofNat 32 i) = v.extractLsb' (8 * i) 8 := by
  apply byteAt_setBytes_of_mem hm
  · rw [storeCells_addrs]
    exact nodup_accessAddrs a hn
  · rw [storeCells_eq_map]
    exact List.mem_map.mpr ⟨i, List.mem_range.mpr hi, rfl⟩

/-- Every other byte reads as before. -/
theorem byte_written_of_ne (h : ∀ i, i < n → b ≠ a + BitVec.ofNat 32 i) : (s.written a n v).byte b = s.byte b := by
  apply byteAt_setBytes_of_notMem
  rw [storeCells_addrs, mem_accessAddrs]
  exact fun ⟨i, hi, hb⟩ => h i hi hb

/-- Part of an access that memory answers is answered by memory. -/
theorem answersMemory_part (h : s.answersMemory a n) (hkm : k + m ≤ n) : s.answersMemory (a + BitVec.ofNat 32 k) m := by
  intro b hb
  obtain ⟨i, hi, rfl⟩ := mem_accessAddrs.mp hb
  apply h
  rw [mem_accessAddrs]
  exact ⟨k + i, by omega, by rw [BitVec.add_assoc, BitVec.ofNat_add]⟩

/-- A `MemRead` that memory answers, byte by byte. -/
theorem memRead_bytes (hn : n ≤ 4) (h : s.answersMemory a n) :
    ∃ v, s.memRead a n = .ok v ∧ (∀ i, i < n → v.extractLsb' (8 * i) 8 = s.byte (a + BitVec.ofNat 32 i)) ∧ v.toNat < 2 ^ (8 * n) := by
  refine ⟨_, memRead_of_memory h, fun i hi => ?_, ?_⟩
  · rw [map_accessAddrs]
    exact extractLsb'_leWord_map_range _ hn hi
  · simpa using toNat_leWord_lt ((accessAddrs a n).map s.byte)

/-- A read of part of the location just written. -/
theorem memRead_written (hn : n ≤ 4) (hm : s.mem.wf = true) (hmem : s.answersMemory a n) (hkm : k + m ≤ n) :
    (s.written a n v).memRead (a + BitVec.ofNat 32 k) m = .ok (BitVec.ofNat 32 ((v.toNat >>> (8 * k)) % 2 ^ (8 * m))) := by
  have hpart : (s.written a n v).answersMemory (a + BitVec.ofNat 32 k) m := answersMemory_part hmem hkm
  have hbytes : (accessAddrs (a + BitVec.ofNat 32 k) m).map (s.written a n v).byte =
      (List.range m).map fun i => v.extractLsb' (8 * (k + i)) 8 := by
    rw [map_accessAddrs]
    refine List.map_congr_left fun i hi => ?_
    have hlt := List.mem_range.mp hi
    rw [BitVec.add_assoc, ← BitVec.ofNat_add]
    exact byte_written_of_lt hn hm (by omega)
  rw [memRead_of_memory hpart, hbytes, leWord_bytes_from]

/-- The sizes of an access (R42) are at most 4. -/
theorem le_four_of_size (hn : n ∈ [1, 2, 4]) : n ≤ 4 := by
  simp only [List.mem_cons, List.not_mem_nil, or_false] at hn
  omega

end

/-- Settles O13, by `memRead_bytes`. -/
theorem memReadIsLittleEndian : Obligations.MemReadIsLittleEndian := by
  intro s a n hn h
  exact memRead_bytes (le_four_of_size hn) h

/-- Settles O14: on memory the write is `State.written`, whose bytes and frame are known. -/
theorem memWriteSetsExactlyItsBytes : Obligations.MemWriteSetsExactlyItsBytes := by
  intro s a n v hn hm h
  refine ⟨s.written a n v, memWrite_of_memory v h, fun i hi => byte_written_of_lt (le_four_of_size hn) hm hi, fun b hb => byte_written_of_ne hb,
    fun q => rfl, rfl, ⟨rfl, rfl⟩, wf_setBytes _ hm⟩

/-- Settles O15, by `memRead_written`. -/
theorem narrowReadOfWideWrite : Obligations.NarrowReadOfWideWrite := by
  intro s t a n m k v hn _ hkm hm h
  obtain ⟨rfl, hmem⟩ := memWrite_eq_written h
  exact memRead_written (le_four_of_size hn) hm hmem hkm

section
variable {s t u : State} {i : Instr} {rs2 rs1 : RegNum} {imm : BitVec 12} {n : Nat}

/-- SB, SH or SW that completed has written its bytes, and has otherwise only advanced pc. -/
theorem exec_store_eq_written
    (hi : i = .sb rs2 rs1 imm ∧ n = 1 ∨ i = .sh rs2 rs1 imm ∧ n = 2 ∨ i = .sw rs2 rs1 imm ∧ n = 4) (h : exec i s = .next t) :
    n ≤ 4 ∧ t = (s.written (s.effAddr rs1 (immS imm)) n (s.reg rs2)).advance := by
  rcases hi with ⟨rfl, rfl⟩ | ⟨rfl, rfl⟩ | ⟨rfl, rfl⟩
  · exact ⟨by decide, (store_eq_next h).1⟩
  · exact ⟨by decide, (store_eq_next h).1⟩
  · exact ⟨by decide, (store_eq_next h).1⟩

/-- States with the same memory read the same bytes. -/
theorem byte_congr (h : u.mem = t.mem) (b : Word) : u.byte b = t.byte b := by
  rw [State.byte, State.byte, h]

end

/-- Settles O22: the fetch reads the bytes of the written memory, with nothing between the store and it. -/
theorem storeIsSeenByLaterFetch : Obligations.StoreIsSeenByLaterFetch := by
  intro s t u i rs2 rs1 imm n hi hm h hmem _ hans
  obtain ⟨hn, rfl⟩ := exec_store_eq_written hi h
  obtain ⟨w, hfetch, hbytes, -⟩ := memRead_bytes (le_refl 4) hans
  have hread : ∀ b, u.byte b = (s.written (s.effAddr rs1 (immS imm)) n (s.reg rs2)).byte b := fun b => byte_congr hmem b
  have hstored : ∀ k j, k < 4 → j < n → u.pc + BitVec.ofNat 32 k = s.effAddr rs1 (immS imm) + BitVec.ofNat 32 j →
      w.extractLsb' (8 * k) 8 = (s.reg rs2).extractLsb' (8 * j) 8 := by
    intro k j hk hj haddr
    rw [hbytes k hk, hread, haddr, byte_written_of_lt hn hm hj]
  refine ⟨w, hfetch, hstored, fun k hk haway => ?_, fun hn4 hpc => ?_⟩
  · rw [hbytes k hk, hread, byte_written_of_ne haway]
  · exact word_eq_of_bytes fun k hk => hstored k k hk (by omega) (by rw [hpc])

end Sys2Proof.Machine
end

section
/-! Requests that nobody answers and requests that reach a device (R51, R52, R59; logs 7, 8, 9). -/

namespace Sys2Proof.Machine

/-- An operation with a device byte first among those that are not memory, and none in no region, is that device's. -/
theorem busAnswer_of_deviceAt {m : MemMap} {as : List Word} {b : Word} (h : deviceAt m as b) : busAnswer m as = .device b := by
  obtain ⟨pre, post, rfl, hpre, hb, hpost⟩ := h
  induction pre with
  | nil =>
    have hsome : busAnswer m post ≠ .nobody := by
      rw [Ne, busAnswer_eq_nobody]
      exact fun ⟨c, hc, hnone⟩ => hpost c hc hnone
    rw [List.nil_append, busAnswer, hb]
    cases hp : busAnswer m post
    case nobody => exact absurd hp hsome
    all_goals rfl
  | cons c rest ih =>
    obtain ⟨hc, hrest⟩ := List.forall_mem_cons.mp hpre
    rw [List.cons_append, busAnswer, hc, ih hrest]

section
variable {s : State} {as : List Word} {cells : List (Word × Byte)} {a b v : Word} {n : Nat}

/-! ### One operation -/

theorem busRead_of_unanswered (h : ∃ c ∈ as, s.cfg.memMap.kindAt c.toNat = none) : s.busRead as = .stuck s.hang := by
  rw [State.busRead, (busAnswer_eq_nobody _ _).mpr h]

theorem busWrite_of_unanswered (h : ∃ c ∈ cells.map Prod.fst, s.cfg.memMap.kindAt c.toNat = none) : s.busWrite cells = .stuck s.hang := by
  rw [State.busWrite, (busAnswer_eq_nobody _ _).mpr h]

theorem busRead_of_device (h : deviceAt s.cfg.memMap as b) : s.busRead as = .device b := by
  rw [State.busRead, busAnswer_of_deviceAt h]

theorem busWrite_of_device (h : deviceAt s.cfg.memMap (cells.map Prod.fst) b) : s.busWrite cells = .device b := by
  rw [State.busWrite, busAnswer_of_deviceAt h]

/-! ### A request of one or two operations -/

/-- The addresses of the first operation of a store. -/
theorem storeCells_take_addrs (a : Word) (n k : Nat) (v : Word) : ((storeCells a n v).take k).map Prod.fst = (accessAddrs a n).take k := by
  rw [List.map_take, storeCells_addrs]

/-- The addresses of the second operation of a store. -/
theorem storeCells_drop_addrs (a : Word) (n k : Nat) (v : Word) : ((storeCells a n v).drop k).map Prod.fst = (accessAddrs a n).drop k := by
  rw [List.map_drop, storeCells_addrs]

/-- A read that never completes hangs the hart, which is otherwise unchanged. -/
theorem memRead_of_unanswered (h : s.readUnanswered a n) : s.memRead a n = .stuck s.hang := by
  rcases h with hfirst | ⟨hfirst, hsecond⟩
  · rw [State.memRead, busRead_of_unanswered hfirst, bind_stuck]
  · rw [State.memRead, busRead_of_memory hfirst, bind_ok, busRead_of_unanswered hsecond, bind_stuck]

/-- A store whose first operation is unanswered hangs the hart, which is otherwise unchanged. -/
theorem memWrite_of_firstUnanswered (h : s.firstUnanswered a n) : s.memWrite a n v = .stuck s.hang := by
  rw [State.memWrite, busWrite_of_unanswered (by rwa [storeCells_take_addrs]), bind_stuck]

theorem memRead_of_device (h : s.reachesDevice a n b) : s.memRead a n = .device b := by
  rcases h with hfirst | ⟨hfirst, hsecond⟩
  · rw [State.memRead, busRead_of_device hfirst, bind_device]
  · rw [State.memRead, busRead_of_memory hfirst, bind_ok, busRead_of_device hsecond, bind_device]

/-- A store whose second operation reaches a device finds the same regions there after the first. -/
theorem memWrite_of_device (h : s.reachesDevice a n b) : s.memWrite a n v = .device b := by
  rcases h with hfirst | ⟨hfirst, hsecond⟩
  · rw [State.memWrite, busWrite_of_device (by rwa [storeCells_take_addrs]), bind_device]
  · rw [State.memWrite, busWrite_of_memory (by rwa [storeCells_take_addrs]), bind_ok]
    exact busWrite_of_device (by rwa [storeCells_drop_addrs])

/-! ### Fetch, load and store -/

variable {rd rs1 rs2 : RegNum} {imm : BitVec 12} {ext : Word → Word}

theorem step_of_fetch_stuck {left : State} (hhung : s.hung = false) (h : s.fetch = .stuck left) : step s = .fault (.stuck left) := by
  simp [step, hhung, h]

theorem step_of_fetch_device (hhung : s.hung = false) (h : s.fetch = .device b) : step s = .refused (.deviceAccess b) := by
  simp [step, hhung, h]

theorem load_of_unanswered (h : s.readUnanswered (s.effAddr rs1 (immI imm)) n) : s.load rd rs1 imm n ext = .fault (.stuck s.hang) := by
  rw [State.load, memRead_of_unanswered h, toResult_stuck]

theorem load_of_device (h : s.reachesDevice (s.effAddr rs1 (immI imm)) n b) : s.load rd rs1 imm n ext = .refused (.deviceAccess b) := by
  rw [State.load, memRead_of_device h, toResult_device]

theorem store_of_unanswered (h : s.firstUnanswered (s.effAddr rs1 (immS imm)) n) : s.store rs2 rs1 imm n = .fault (.stuck s.hang) := by
  rw [State.store, memWrite_of_firstUnanswered h, toResult_stuck]

theorem store_of_device (h : s.reachesDevice (s.effAddr rs1 (immS imm)) n b) : s.store rs2 rs1 imm n = .refused (.deviceAccess b) := by
  rw [State.store, memWrite_of_device h, toResult_device]

end

/-- Settles O18: each form is a fetch, a `State.load` or a `State.store`, whose request is stuck. -/
theorem unansweredAccessIsStuck : Obligations.UnansweredAccessIsStuck := by
  intro s
  refine ⟨fun hhung h => step_of_fetch_stuck hhung (memRead_of_unanswered h), ?lb, ?lh, ?lw, ?sb, ?sh, ?sw⟩
  case lb | lh => exact fun rd rs1 imm h => ⟨load_of_unanswered h, load_of_unanswered h⟩
  case lw => exact fun rd rs1 imm h => load_of_unanswered h
  case sb | sh | sw => exact fun rs2 rs1 imm h => store_of_unanswered h

/-- Settles O21: each form is a fetch, a `State.load` or a `State.store`, whose request reaches the device. -/
theorem deviceAccessIsRefused : Obligations.DeviceAccessIsRefused := by
  intro s b
  refine ⟨fun hhung h => step_of_fetch_device hhung (memRead_of_device h), ?lb, ?lh, ?lw, ?sb, ?sh, ?sw⟩
  case lb | lh => exact fun rd rs1 imm h => ⟨load_of_device h, load_of_device h⟩
  case lw => exact fun rd rs1 imm h => load_of_device h
  case sb | sh | sw => exact fun rs2 rs1 imm h => store_of_device h

end Sys2Proof.Machine
end

section
/-! An access as bus operations on aligned words: which lanes BYTESTRB strobes, and what stands in them (R46, R204 to R208). -/

namespace Sys2Proof.Machine

/-- How many bytes the first operation moves depends on the alignment only (R46). -/
theorem firstOpBytes_eq (a : Word) (n : Nat) : firstOpBytes a n = min n (4 - (alignmentOf a).toNat) := rfl

/-! ### The lanes that are strobed -/

/-- The low half of BYTESTRB strobes as many lanes as the first operation moves bytes, from the alignment on. -/
theorem lowStrobes_lanes : ∀ size al : BitVec 2,
    ((List.range 4).filter fun k => ((byteStrb size al).extractLsb' 0 4).getLsbD k) =
      (List.range (min (sizeBytes size) (4 - al.toNat))).map (al.toNat + ·) := by
  decide

/-- The high half of BYTESTRB strobes as many lanes as bytes are left for the second operation, from lane 0 on. -/
theorem highStrobes_lanes : ∀ size al : BitVec 2,
    ((List.range 4).filter fun k => ((byteStrb size al).extractLsb' 4 4).getLsbD k) =
      List.range (sizeBytes size - min (sizeBytes size) (4 - al.toNat)) := by
  decide

/-- SECOND_OP_REQUIRED says that the first operation leaves bytes over (R207). -/
theorem secondOpRequired_iff_min_lt : ∀ size al : BitVec 2,
    secondOpRequired (byteStrb size al) = true ↔ min (sizeBytes size) (4 - al.toNat) < sizeBytes size := by
  decide

/-! ### The address of a lane -/

/-- A lane's byte address, as a number. -/
theorem toNat_laneAddr (wa : BitVec 30) (k : Nat) : (laneAddr wa k).toNat = (4 * wa.toNat + k) % 2 ^ 32 := by
  have hword : (wa ++ 0#2).toNat = 4 * wa.toNat := by
    calc (wa ++ 0#2).toNat = wa.toNat <<< 2 ||| (0#2).toNat := BitVec.toNat_append wa 0#2
      _ = 4 * wa.toNat := by simp [Nat.shiftLeft_eq, Nat.mul_comm]
  rw [laneAddr, BitVec.toNat_add, hword, BitVec.toNat_ofNat, Nat.add_mod_mod]

/-- An address is its word address and its alignment. -/
theorem toNat_eq_wordAddr_alignmentOf (a : Word) : a.toNat = 4 * (wordAddr a).toNat + (alignmentOf a).toNat := by
  have h := a.isLt
  simp only [wordAddr, alignmentOf, BitVec.extractLsb'_toNat, Nat.shiftRight_eq_div_pow]
  omega

/-- Byte `i` of an access is in lane `alignment + i` of its word. -/
theorem laneAddr_wordAddr (a : Word) (i : Nat) : laneAddr (wordAddr a) ((alignmentOf a).toNat + i) = a + BitVec.ofNat 32 i := by
  apply BitVec.eq_of_toNat_eq
  have h := toNat_eq_wordAddr_alignmentOf a
  rw [toNat_laneAddr, BitVec.toNat_add, BitVec.toNat_ofNat]
  omega

/-- Lane `k` of the next word is lane `4 + k` of the word, round the end of the address space too (R58). -/
theorem laneAddr_next (wa : BitVec 30) (k : Nat) : laneAddr (wa + 1#30) k = laneAddr wa (4 + k) := by
  apply BitVec.eq_of_toNat_eq
  have h := wa.isLt
  simp only [toNat_laneAddr, BitVec.toNat_add, BitVec.toNat_ofNat]
  omega

/-! ### The data of a lane -/

/-- Byte `i` of the data stands in byte `alignment + i` of WDATA64 (R208). -/
theorem wdata64_byte (v : Word) (al : BitVec 2) {i : Nat} (hi : i < 4) :
    (wdata64 v al).extractLsb' (8 * (al.toNat + i)) 8 = v.extractLsb' (8 * i) 8 := by
  have hal := al.isLt
  apply BitVec.eq_of_getLsbD_eq
  intro j hj
  have hin : 8 * (al.toNat + i) + j < 64 := by omega
  have hge : ¬ 8 * (al.toNat + i) + j < 8 * al.toNat := by omega
  have hsub : 8 * (al.toNat + i) + j - 8 * al.toNat = 8 * i + j := by omega
  have hv : 8 * i + j < 64 := by omega
  simp only [wdata64, BitVec.getLsbD_extractLsb', BitVec.getLsbD_shiftLeft, BitVec.getLsbD_setWidth, hsub]
  simp [hin, hge, hv]

/-- Byte `k` of the low half of WDATA64. -/
theorem lowHalf_byte (d : BitVec 64) {k : Nat} (hk : k < 4) : (d.extractLsb' 0 32).extractLsb' (8 * k) 8 = d.extractLsb' (8 * k) 8 := by
  apply BitVec.eq_of_getLsbD_eq
  intro j hj
  have hin : 8 * k + j < 32 := by omega
  simp [hin]

/-- Byte `k` of the high half of WDATA64. -/
theorem highHalf_byte (d : BitVec 64) {k : Nat} (hk : k < 4) :
    (d.extractLsb' 32 32).extractLsb' (8 * k) 8 = d.extractLsb' (8 * (4 + k)) 8 := by
  apply BitVec.eq_of_getLsbD_eq
  intro j hj
  have hin : 8 * k + j < 32 := by omega
  have hadd : 32 + (8 * k + j) = 8 * (4 + k) + j := by omega
  simp [hin, hadd]

/-! ### The two operations -/

section
variable (a : Word) (size : BitVec 2) (v : Word)

/-- An access moves at most 4 bytes. -/
theorem sizeBytes_le_four : ∀ size : BitVec 2, sizeBytes size ≤ 4 := by decide

/-- The first operation of a store moves the lanes that the low half of BYTESTRB strobes. -/
theorem storeCells_take_eq_strobedCells :
    (storeCells a (sizeBytes size) v).take (firstOpBytes a (sizeBytes size)) =
      strobedCells (wordAddr a) ((byteStrb size (alignmentOf a)).extractLsb' 0 4) ((wdata64 v (alignmentOf a)).extractLsb' 0 32) := by
  rw [strobedCells, lowStrobes_lanes, List.map_map, firstOpBytes_eq, storeCells_eq_map, ← List.map_take, List.take_range,
    Nat.min_eq_left (Nat.min_le_left _ _)]
  refine List.map_congr_left fun i hi => ?_
  have hlt := List.mem_range.mp hi
  have hlane : (alignmentOf a).toNat + i < 4 := by omega
  simp only [Function.comp_apply]
  rw [laneAddr_wordAddr, lowHalf_byte _ hlane, wdata64_byte _ _ (by omega)]

/-- The second operation of a store moves the lanes of the next word that the high half of BYTESTRB strobes. -/
theorem storeCells_drop_eq_strobedCells :
    (storeCells a (sizeBytes size) v).drop (firstOpBytes a (sizeBytes size)) =
      strobedCells (wordAddr a + 1#30) ((byteStrb size (alignmentOf a)).extractLsb' 4 4) ((wdata64 v (alignmentOf a)).extractLsb' 32 32) := by
  have hsize := sizeBytes_le_four size
  rw [strobedCells, highStrobes_lanes, firstOpBytes_eq, storeCells_eq_map]
  refine List.ext_getElem (by simp) fun k hk _ => ?_
  have hlt : k < sizeBytes size - min (sizeBytes size) (4 - (alignmentOf a).toNat) := by simpa using hk
  have hfirst : min (sizeBytes size) (4 - (alignmentOf a).toNat) = 4 - (alignmentOf a).toNat := by omega
  have hlane : 4 + k = (alignmentOf a).toNat + (4 - (alignmentOf a).toNat + k) := by have := (alignmentOf a).isLt; omega
  simp only [List.getElem_drop, List.getElem_map, List.getElem_range, hfirst]
  rw [laneAddr_next, highHalf_byte _ (by omega), hlane, laneAddr_wordAddr, wdata64_byte _ _ (by omega)]

end

/-- Settles O17: the table of R46 by evaluation, the operations lane by lane. -/
theorem accessSplitsAsByteStrobes : Obligations.AccessSplitsAsByteStrobes := by
  refine ⟨fun al => rfl, by decide, by decide, fun a size v => ⟨?_, ?_, ?_⟩⟩
  · exact secondOpRequired_iff_min_lt size (alignmentOf a)
  · exact storeCells_take_eq_strobedCells a size v
  · exact storeCells_drop_eq_strobedCells a size v

end Sys2Proof.Machine
end

section
/-! The round trip of encoding and decoding (R72 to R82, R89, R90). -/

namespace Sys2Proof

section
variable {w : Word} {i : Instr}

/-! ### Single bits of a word, read from its fields -/

theorem bit12_eq (w : Word) : w[12] = (funct3Of w)[0] := by simp [funct3Of]
theorem bit13_eq (w : Word) : w[13] = (funct3Of w)[1] := by simp [funct3Of]
theorem bit30_eq (w : Word) : w[30] = (funct7Of w)[5] := by simp [funct7Of]

/-! ### The major opcode decides which table decodes a word -/

/-- The `opcode[6:2]` of a major opcode (R79). -/
def Major.code : Major → BitVec 5
  | .load => 0b00000#5 | .custom0 => 0b00010#5 | .miscMem => 0b00011#5 | .opImm => 0b00100#5 | .auipc => 0b00101#5
  | .store => 0b01000#5 | .custom1 => 0b01010#5 | .op => 0b01100#5 | .lui => 0b01101#5 | .custom2 => 0b10110#5
  | .branch => 0b11000#5 | .jalr => 0b11001#5 | .jal => 0b11011#5 | .system => 0b11100#5 | .custom3 => 0b11110#5

/-- `majorOf` reads back the code, and no other value has that major opcode. -/
theorem majorOf_eq_some {b : BitVec 5} {m : Major} : majorOf b = some m ↔ b = m.code := by
  revert b
  cases m <;> decide

/-- A strict decode is that of the word's major opcode, and the low two bits are 11. -/
theorem decodeStrict_eq_some :
    decodeStrict w = some i ↔
      w.extractLsb' 0 2 = 0b11#2 ∧ ∃ m : Major, opcode62Of w = m.code ∧ decodeStrictUnder m w = some i := by
  simp only [decodeStrict, Option.ite_none_right_eq_some, Option.bind_eq_some_iff, majorOf_eq_some]

/-- A partial decode is that of the word's major opcode. -/
theorem decodeCu_eq_instr : decodeCu w = .instr i ↔ ∃ m : Major, opcode62Of w = m.code ∧ decodeCuUnder m w = .instr i := by
  simp only [decodeCu, ← majorOf_eq_some]
  cases majorOf (opcode62Of w) <;> simp

theorem decodeCu_of_major {m : Major} (hm : majorOf (opcode62Of w) = some m) : decodeCu w = decodeCuUnder m w := by
  simp [decodeCu, hm]

/-- Strict decoding with the register check answers an instruction that decodes without it and whose registers exist. -/
theorem decode_strict_eq_instr {n : RegCount} : decode n .strict w = .instr i ↔ decodeStrict w = some i ∧ i.regsExist n = true := by
  rw [decode, checkRegs_eq_instr]
  cases decodeStrict w <;> simp

/-! ### The canonical word under its major opcode -/

/-- The major opcode of an instruction (R80). -/
def Instr.major : Instr → Major
  | .lui .. => .lui | .auipc .. => .auipc | .jal .. => .jal | .jalr .. => .jalr
  | .beq .. | .bne .. | .blt .. | .bge .. | .bltu .. | .bgeu .. => .branch
  | .lb .. | .lh .. | .lw .. | .lbu .. | .lhu .. => .load
  | .sb .. | .sh .. | .sw .. => .store
  | .addi .. | .slti .. | .sltiu .. | .xori .. | .ori .. | .andi .. | .slli .. | .srli .. | .srai .. => .opImm
  | .add .. | .sub .. | .sll .. | .slt .. | .sltu .. | .xor .. | .srl .. | .sra .. | .or .. | .and .. => .op
  | .fence .. => .miscMem
  | .ecall | .ebreak => .system

/-- The canonical word has the major opcode of its instruction. -/
theorem opcode62Of_encode (i : Instr) : opcode62Of (encode i) = i.major.code := by
  cases i
  case lui | auipc => exact opcode62Of_encU ..
  case jal => exact opcode62Of_encJ ..
  case beq | bne | blt | bge | bltu | bgeu => exact opcode62Of_encB ..
  case sb | sh | sw => exact opcode62Of_encS ..
  case slli | srli | srai | add | sub | sll | slt | sltu | xor | srl | sra | or | and => exact opcode62Of_encR ..
  case ecall | ebreak => rfl
  all_goals exact opcode62Of_encI ..

/-- The low two bits of a canonical word are 11. -/
theorem lowBits_encode (i : Instr) : (encode i).extractLsb' 0 2 = 0b11#2 := by
  cases i
  case lui | auipc => exact lowBits_encU ..
  case jal => exact lowBits_encJ ..
  case beq | bne | blt | bge | bltu | bgeu => exact lowBits_encB ..
  case sb | sh | sw => exact lowBits_encS ..
  case slli | srli | srai | add | sub | sll | slt | sltu | xor | srl | sra | or | and => exact lowBits_encR ..
  case ecall | ebreak => rfl
  all_goals exact lowBits_encI ..

/-- The parts of FENCE's 12-bit field are read back (R160). -/
theorem fenceFields_encI (fm pred succ : BitVec 4) (rs1 : RegNum) (f3 : BitVec 3) (rd : RegNum) (op : BitVec 7) :
    (encI (fm ++ pred ++ succ) rs1 f3 rd op).extractLsb' 28 4 = fm ∧
      (encI (fm ++ pred ++ succ) rs1 f3 rd op).extractLsb' 24 4 = pred ∧
      (encI (fm ++ pred ++ succ) rs1 f3 rd op).extractLsb' 20 4 = succ := by
  refine ⟨?_, ?_, ?_⟩
  all_goals
    apply BitVec.eq_of_getLsbD_eq
    intro k hk
    simp only [encI, BitVec.getLsbD_extractLsb', BitVec.getLsbD_append]
    interval_cases k <;> rfl

/-- The 12-bit field of FENCE is made of its three parts (R160). -/
theorem immIOf_eq_append (w : Word) : immIOf w = w.extractLsb' 28 4 ++ w.extractLsb' 24 4 ++ w.extractLsb' 20 4 := by
  apply BitVec.eq_of_getLsbD_eq
  intro k hk
  simp only [immIOf, BitVec.getLsbD_extractLsb', BitVec.getLsbD_append]
  interval_cases k <;> rfl

/-- In strict mode the table of its major opcode gives an instruction back from its canonical word. -/
theorem decodeStrictUnder_encode (h : i.offsetEven = true) : decodeStrictUnder i.major (encode i) = some i := by
  cases i
  case lui | auipc => simp [Instr.major, encode, decodeStrictUnder]
  case jal rd off =>
    have heven : off.getLsbD 0 = false := by simpa only [Instr.offsetEven, Bool.not_eq_true'] using h
    simp [Instr.major, encode, decodeStrictUnder, immJOf_encJ _ _ _ heven]
  case jalr => simp [Instr.major, encode, decodeStrictUnder]
  case beq rs1 rs2 off | bne rs1 rs2 off | blt rs1 rs2 off | bge rs1 rs2 off | bltu rs1 rs2 off | bgeu rs1 rs2 off =>
    have heven : off.getLsbD 0 = false := by simpa only [Instr.offsetEven, Bool.not_eq_true'] using h
    simp [Instr.major, encode, decodeStrictUnder, decodeBranch, immBOf_encB _ _ _ _ _ heven]
  case lb | lh | lw | lbu | lhu => simp [Instr.major, encode, decodeStrictUnder, decodeLoad]
  case sb | sh | sw => simp [Instr.major, encode, decodeStrictUnder, decodeStore]
  case addi | slti | sltiu | xori | ori | andi => simp [Instr.major, encode, decodeStrictUnder, decodeOpImmPlain]
  case slli | srli | srai => simp [Instr.major, encode, decodeStrictUnder, decodeShiftStrict]
  case add | sub | sll | slt | sltu | xor | srl | sra | or | and => simp [Instr.major, encode, decodeStrictUnder, decodeOpStrict]
  case fence fm pred succ rs1 rd =>
    obtain ⟨hfm, hpred, hsucc⟩ := fenceFields_encI fm pred succ rs1 0#3 rd 0x0F#7
    simp [Instr.major, encode, decodeStrictUnder, decodeMiscMem, hfm, hpred, hsucc]
  case ecall | ebreak => rfl

/-- The control unit's table of its major opcode gives an instruction back from its canonical word. -/
theorem decodeCuUnder_encode (h : i.offsetEven = true) : decodeCuUnder i.major (encode i) = .instr i := by
  have hstrict := decodeStrictUnder_encode h
  cases i
  case lui | auipc | jal => exact congrArg decodedOr hstrict
  case beq | bne | blt | bge | bltu | bgeu | fence => exact congrArg decodedOr hstrict
  case jalr => simp [Instr.major, encode, decodeCuUnder]
  case lb | lh | lw | lbu | lhu => simp [Instr.major, encode, decodeCuUnder, decodeLoad, bit13_eq, decodedOr]
  case sb | sh | sw => simp [Instr.major, encode, decodeCuUnder, bit13_eq, bit12_eq]
  case addi | slti | sltiu | xori | ori | andi => simp [Instr.major, encode, decodeCuUnder, decodeOpImmPlain, decodedOr]
  case slli | srli | srai => simp [Instr.major, encode, decodeCuUnder, decodeShiftCu, bit30_eq, decodedOr]
  case add | sub | sll | slt | sltu | xor | srl | sra | or | and =>
    simp [Instr.major, encode, decodeCuUnder, decodeOpCu, bit30_eq, decodedOr]
  case ecall | ebreak => rfl

theorem decodeStrict_encode (h : i.offsetEven = true) : decodeStrict (encode i) = some i :=
  decodeStrict_eq_some.mpr ⟨lowBits_encode i, i.major, opcode62Of_encode i, decodeStrictUnder_encode h⟩

theorem decodeCu_encode (h : i.offsetEven = true) : decodeCu (encode i) = .instr i :=
  decodeCu_eq_instr.mpr ⟨i.major, opcode62Of_encode i, decodeCuUnder_encode h⟩

end

/-- Settles O1: either decode without the register check gives the instruction back, and its registers exist. -/
theorem decodeOfEncode : Obligations.DecodeOfEncode := by
  intro n mode i hwf
  obtain ⟨hregs, heven⟩ : i.regsExist n = true ∧ i.offsetEven = true := by
    simpa only [Instr.wellFormed, Bool.and_eq_true] using hwf
  cases mode with
  | strict => exact decode_strict_eq_instr.mpr ⟨decodeStrict_encode heven, hregs⟩
  | cuPartial => exact checkRegs_eq_instr.mpr ⟨decodeCu_encode heven, hregs⟩

end Sys2Proof
end

section
/-! In strict mode a word that decodes is the canonical word of its instruction (R81, R89). -/

namespace Sys2Proof

section
variable {w : Word} {i : Instr}

theorem encode_of_decodeBranch (hop : w.extractLsb' 0 7 = 0x63#7) (h : decodeBranch w = some i) : encode i = w := by
  have hw := encB_fields w
  unfold decodeBranch at h
  split at h <;> cases h <;> next hf3 => rwa [hop, hf3] at hw

theorem encode_of_decodeLoad (hop : w.extractLsb' 0 7 = 0x03#7) (h : decodeLoad w = some i) : encode i = w := by
  have hw := encI_fields w
  unfold decodeLoad at h
  split at h <;> cases h <;> next hf3 => rwa [hop, hf3] at hw

theorem encode_of_decodeStore (hop : w.extractLsb' 0 7 = 0x23#7) (h : decodeStore w = some i) : encode i = w := by
  have hw := encS_fields w
  unfold decodeStore at h
  split at h <;> cases h <;> next hf3 => rwa [hop, hf3] at hw

theorem encode_of_decodeOpImmPlain (hop : w.extractLsb' 0 7 = 0x13#7) (h : decodeOpImmPlain w = some i) : encode i = w := by
  have hw := encI_fields w
  unfold decodeOpImmPlain at h
  split at h <;> cases h <;> next hf3 => rwa [hop, hf3] at hw

theorem encode_of_decodeShiftStrict (hop : w.extractLsb' 0 7 = 0x13#7) (h : decodeShiftStrict w = some i) : encode i = w := by
  have hw := encR_fields w
  unfold decodeShiftStrict at h
  split at h <;> cases h <;> next hf3 hf7 => rwa [hop, hf3, hf7] at hw

theorem encode_of_decodeOpStrict (hop : w.extractLsb' 0 7 = 0x33#7) (h : decodeOpStrict w = some i) : encode i = w := by
  have hw := encR_fields w
  unfold decodeOpStrict at h
  split at h <;> cases h <;> next hf7 hf3 => rwa [hop, hf3, hf7] at hw

theorem encode_of_decodeMiscMem (hop : w.extractLsb' 0 7 = 0x0F#7) (h : decodeMiscMem w = some i) : encode i = w := by
  have hw := encI_fields w
  unfold decodeMiscMem at h
  split at h <;> cases h
  next hf3 => rwa [hop, hf3, immIOf_eq_append] at hw

/-- What a major opcode's strict table decodes is encoded back, whole. -/
theorem encode_of_decodeStrictUnder {m : Major} (hop : w.extractLsb' 0 7 = m.code ++ 0b11#2) (h : decodeStrictUnder m w = some i) :
    encode i = w := by
  cases m
  case lui | auipc =>
    have hw := encU_fields w
    cases h
    rwa [hop] at hw
  case jal =>
    have hw := encJ_fields w
    cases h
    rwa [hop] at hw
  case jalr =>
    have hw := encI_fields w
    simp only [decodeStrictUnder, Option.ite_none_right_eq_some] at h
    obtain ⟨hf3, hi⟩ := h
    cases hi
    rwa [hop, hf3] at hw
  case branch => exact encode_of_decodeBranch hop h
  case load => exact encode_of_decodeLoad hop h
  case store => exact encode_of_decodeStore hop h
  case op => exact encode_of_decodeOpStrict hop h
  case miscMem => exact encode_of_decodeMiscMem hop h
  case opImm =>
    simp only [decodeStrictUnder] at h
    split at h
    · exact encode_of_decodeShiftStrict hop h
    · exact encode_of_decodeOpImmPlain hop h
  case system =>
    simp only [decodeStrictUnder] at h
    split_ifs at h with hecall hebreak <;> cases h
    · exact hecall.symm
    · exact hebreak.symm
  case custom0 | custom1 | custom2 | custom3 => cases h

theorem encode_of_decodeStrict (h : decodeStrict w = some i) : encode i = w := by
  obtain ⟨hlow, m, hm, hi⟩ := decodeStrict_eq_some.mp h
  exact encode_of_decodeStrictUnder (by rw [opcode_split, hm, hlow]) hi

end

/-- Settles O2: the encoding gives the word back, the register check the registers, and decoded offsets are even. -/
theorem encodeOfStrictDecode : Obligations.EncodeOfStrictDecode := by
  intro n w i h
  obtain ⟨hi, hregs⟩ := decode_strict_eq_instr.mp h
  have heven : i.offsetEven = true := decodeStrict_offsetEven hi
  exact ⟨encode_of_decodeStrict hi, by rw [Instr.wellFormed, hregs, heven]; rfl⟩

/-- Settles O6: the word is the canonical word of its instruction (O2), which decodes to it in either mode (O1). -/
theorem cuPartialExtendsStrict : Obligations.CuPartialExtendsStrict := by
  intro n w i h
  obtain ⟨rfl, hwf⟩ := encodeOfStrictDecode n w i h
  exact decodeOfEncode n .cuPartial i hwf

end Sys2Proof
end

section
/-! Masks: which fields of a word a row of the opcode table looks at (R81, R82). -/

namespace Sys2Proof

/-- The mask of the fields `(k, n)` listed, each `n` bits from bit `k` on. -/
def fieldsMask : List (Nat × Nat) → Word
  | [] => 0#32
  | (k, n) :: fields => (BitVec.allOnes n).setWidth 32 <<< k ||| fieldsMask fields

/-- Words that agree under a union of masks agree under each. -/
theorem and_or_eq_and_or_iff (a b m₁ m₂ : Word) : a &&& (m₁ ||| m₂) = b &&& (m₁ ||| m₂) ↔ a &&& m₁ = b &&& m₁ ∧ a &&& m₂ = b &&& m₂ := by
  constructor
  · intro h
    have hpart (m : Word) (hm : (m₁ ||| m₂) &&& m = m) : a &&& m = b &&& m := by
      rw [← hm, ← BitVec.and_assoc, ← BitVec.and_assoc, h]
    exact ⟨hpart m₁ (by ext; simp; tauto), hpart m₂ (by ext; simp; tauto)⟩
  · rintro ⟨h₁, h₂⟩
    have hdistrib (v : Word) : v &&& (m₁ ||| m₂) = (v &&& m₁) ||| (v &&& m₂) := by
      ext
      simp [Bool.and_or_distrib_left]
    rw [hdistrib, hdistrib, h₁, h₂]

/-- Words agree under the mask of one field exactly when they have the same field. -/
theorem and_field_eq_and_field_iff (a b : Word) (k n : Nat) :
    a &&& (BitVec.allOnes n).setWidth 32 <<< k = b &&& (BitVec.allOnes n).setWidth 32 <<< k ↔ a.extractLsb' k n = b.extractLsb' k n := by
  constructor
  · intro h
    apply BitVec.eq_of_getLsbD_eq
    intro j hj
    have hbit := congrArg (BitVec.getLsbD · (k + j)) h
    by_cases hin : k + j < 32
    · have hj32 : j < 32 := by omega
      simpa [hj, hin, hj32] using hbit
    · simp [hj, BitVec.getLsbD_of_ge _ _ (not_lt.mp hin)]
  · intro h
    apply BitVec.eq_of_getLsbD_eq
    intro p hp
    by_cases hfield : k ≤ p ∧ p < k + n
    · have hbit := congrArg (BitVec.getLsbD · (p - k)) h
      have hin : p - k < n := by omega
      have hpos : k + (p - k) = p := by omega
      simp only [BitVec.getLsbD_extractLsb', hin, hpos, decide_true, Bool.true_and] at hbit
      rw [BitVec.getLsbD_and, BitVec.getLsbD_and, hbit]
    · have hout : ¬ k ≤ p ∨ ¬ p - k < n := by omega
      rcases hout with hlow | hhigh
      · simp [hp, show p < k by omega]
      · simp [hp, hhigh]

/-- Words agree under a mask of fields exactly when they have the same fields. -/
theorem and_fieldsMask_eq_iff (a b : Word) (fields : List (Nat × Nat)) :
    a &&& fieldsMask fields = b &&& fieldsMask fields ↔ ∀ f ∈ fields, a.extractLsb' f.1 f.2 = b.extractLsb' f.1 f.2 := by
  induction fields with
  | nil => simp [fieldsMask]
  | cons f fields ih =>
    obtain ⟨k, n⟩ := f
    rw [fieldsMask, and_or_eq_and_or_iff, and_field_eq_and_field_iff, ih, List.forall_mem_cons]

/-- A mask and match select the words whose fields under the mask are those of the match. -/
theorem and_mask_eq_iff {mask m : Word} (fields : List (Nat × Nat)) (hmask : mask = fieldsMask fields) (hm : m &&& mask = m) (w : Word) :
    w &&& mask = m ↔ ∀ f ∈ fields, w.extractLsb' f.1 f.2 = m.extractLsb' f.1 f.2 := by
  conv_lhs => rw [← hm]
  rw [hmask]
  exact and_fieldsMask_eq_iff w m fields

/-- One-bit fields are the same when the bits are. -/
theorem extractLsb'_one_eq_iff (a b : Word) (k : Nat) : a.extractLsb' k 1 = b.extractLsb' k 1 ↔ a.getLsbD k = b.getLsbD k := by
  constructor
  · intro h
    simpa using congrArg (BitVec.getLsbD · 0) h
  · intro h
    apply BitVec.eq_of_getLsbD_eq
    intro j hj
    obtain rfl : j = 0 := by omega
    simpa using h

section
variable {w m : Word}

/-! ### The strict masks (R81) -/

/-- The mask of LUI, AUIPC and JAL. -/
theorem masked_opcode_iff (hm : m &&& 0x0000007F#32 = m) :
    w &&& 0x0000007F#32 = m ↔ w.extractLsb' 0 2 = m.extractLsb' 0 2 ∧ opcode62Of w = opcode62Of m := by
  rw [and_mask_eq_iff [(0, 2), (2, 5)] (by decide) hm]
  simp [opcode62Of]

/-- The mask of the instructions told apart by funct3. -/
theorem masked_funct3_iff (hm : m &&& 0x0000707F#32 = m) :
    w &&& 0x0000707F#32 = m ↔
      w.extractLsb' 0 2 = m.extractLsb' 0 2 ∧ opcode62Of w = opcode62Of m ∧ funct3Of w = funct3Of m := by
  rw [and_mask_eq_iff [(0, 2), (2, 5), (12, 3)] (by decide) hm]
  simp [opcode62Of, funct3Of]

/-- The mask of the instructions told apart by funct3 and funct7. -/
theorem masked_funct7_iff (hm : m &&& 0xFE00707F#32 = m) :
    w &&& 0xFE00707F#32 = m ↔
      w.extractLsb' 0 2 = m.extractLsb' 0 2 ∧ opcode62Of w = opcode62Of m ∧ funct3Of w = funct3Of m ∧ funct7Of w = funct7Of m := by
  rw [and_mask_eq_iff [(0, 2), (2, 5), (12, 3), (25, 7)] (by decide) hm]
  simp [opcode62Of, funct3Of, funct7Of]

/-! ### The control unit's masks (R82) -/

/-- The mask of LUI, AUIPC, JAL and JALR. -/
theorem cuMasked_opcode_iff (hm : m &&& 0x0000007C#32 = m) : w &&& 0x0000007C#32 = m ↔ opcode62Of w = opcode62Of m := by
  rw [and_mask_eq_iff [(2, 5)] (by decide) hm]
  simp [opcode62Of]

/-- The mask of the instructions told apart by funct3. -/
theorem cuMasked_funct3_iff (hm : m &&& 0x0000707C#32 = m) :
    w &&& 0x0000707C#32 = m ↔ opcode62Of w = opcode62Of m ∧ funct3Of w = funct3Of m := by
  rw [and_mask_eq_iff [(2, 5), (12, 3)] (by decide) hm]
  simp [opcode62Of, funct3Of]

/-- The mask of LW and SW: the high bit of the size code. -/
theorem cuMasked_wordSize_iff (hm : m &&& 0x0000207C#32 = m) :
    w &&& 0x0000207C#32 = m ↔ opcode62Of w = opcode62Of m ∧ w.getLsbD 13 = m.getLsbD 13 := by
  rw [and_mask_eq_iff [(2, 5), (13, 1)] (by decide) hm]
  simp only [List.forall_mem_cons, List.not_mem_nil, false_implies, implies_true, and_true, extractLsb'_one_eq_iff, opcode62Of]

/-- The mask of SB and SH: the size code. -/
theorem cuMasked_size_iff (hm : m &&& 0x0000307C#32 = m) :
    w &&& 0x0000307C#32 = m ↔ opcode62Of w = opcode62Of m ∧ w.getLsbD 13 = m.getLsbD 13 ∧ w.getLsbD 12 = m.getLsbD 12 := by
  rw [and_mask_eq_iff [(2, 5), (13, 1), (12, 1)] (by decide) hm]
  simp only [List.forall_mem_cons, List.not_mem_nil, false_implies, implies_true, and_true, extractLsb'_one_eq_iff, opcode62Of]

/-- The mask of the instructions told apart by funct3 and bit 30. -/
theorem cuMasked_bit30_iff (hm : m &&& 0x4000707C#32 = m) :
    w &&& 0x4000707C#32 = m ↔ opcode62Of w = opcode62Of m ∧ funct3Of w = funct3Of m ∧ w.getLsbD 30 = m.getLsbD 30 := by
  rw [and_mask_eq_iff [(2, 5), (12, 3), (30, 1)] (by decide) hm]
  simp only [List.forall_mem_cons, List.not_mem_nil, false_implies, implies_true, and_true, extractLsb'_one_eq_iff, opcode62Of, funct3Of]

/-- The mask of ECALL and EBREAK: funct3 and bit 20. -/
theorem cuMasked_bit20_iff (hm : m &&& 0x0010707C#32 = m) :
    w &&& 0x0010707C#32 = m ↔ opcode62Of w = opcode62Of m ∧ funct3Of w = funct3Of m ∧ w.getLsbD 20 = m.getLsbD 20 := by
  rw [and_mask_eq_iff [(2, 5), (12, 3), (20, 1)] (by decide) hm]
  simp only [List.forall_mem_cons, List.not_mem_nil, false_implies, implies_true, and_true, extractLsb'_one_eq_iff, opcode62Of, funct3Of]

end

end Sys2Proof
end

section
/-! The opcode table and the two decodes (R80 to R82, R89): a row selects a word exactly when the word decodes to its mnemonic. -/

namespace Sys2Proof

/-! ### The table -/

/-- The rows by group of major opcodes. -/
theorem mem_opcodeTable {r : OpcodeRow} :
    r ∈ opcodeTable ↔ r ∈ opcodeRowsUpper ∨ r ∈ opcodeRowsBranch ∨ r ∈ opcodeRowsMemory ∨ r ∈ opcodeRowsOpImm ∨ r ∈ opcodeRowsOp ∨
      r ∈ opcodeRowsSystem := by
  simp only [opcodeTable, List.mem_append, or_assoc]

/-- A mnemonic has one row. -/
theorem eq_of_mnemonic_eq {r₁ r₂ : OpcodeRow} (h₁ : r₁ ∈ opcodeTable) (h₂ : r₂ ∈ opcodeTable) (h : r₁.mnemonic = r₂.mnemonic) : r₁ = r₂ := by
  have hnodup : (opcodeTable.map OpcodeRow.mnemonic).Nodup := by decide
  exact List.inj_on_of_nodup_map hnodup h₁ h₂ h

section
variable {r : OpcodeRow} {w : Word} {i : Instr}

/-! ### A word that a row selects decodes to the row's mnemonic, in strict mode -/

/-- The strict decode answers an instruction of the mnemonic. -/
def DecodesStrictAs (w : Word) (mnemonic : String) : Prop := ∃ i, decodeStrict w = some i ∧ i.mnemonic = mnemonic

/-- The table of the word's major opcode answers for the strict decode. -/
theorem decodesStrictAs_of_under {m : Major} {mnemonic : String} (hlow : w.extractLsb' 0 2 = 0b11#2) (hop : opcode62Of w = m.code)
    (hi : decodeStrictUnder m w = some i) (hmnemonic : i.mnemonic = mnemonic) : DecodesStrictAs w mnemonic :=
  ⟨i, decodeStrict_eq_some.mpr ⟨hlow, m, hop, hi⟩, hmnemonic⟩

theorem decodesStrictAs_of_upperRow (hr : r ∈ opcodeRowsUpper) (h : r.selects w) : DecodesStrictAs w r.mnemonic := by
  simp only [opcodeRowsUpper, List.mem_cons, List.not_mem_nil, or_false] at hr
  rcases hr with rfl | rfl | rfl | rfl
  · obtain ⟨hlow, hop⟩ := (masked_opcode_iff (by decide)).mp h
    exact decodesStrictAs_of_under (m := .lui) hlow hop rfl rfl
  · obtain ⟨hlow, hop⟩ := (masked_opcode_iff (by decide)).mp h
    exact decodesStrictAs_of_under (m := .auipc) hlow hop rfl rfl
  · obtain ⟨hlow, hop⟩ := (masked_opcode_iff (by decide)).mp h
    exact decodesStrictAs_of_under (m := .jal) hlow hop rfl rfl
  · obtain ⟨hlow, hop, hf3⟩ := (masked_funct3_iff (by decide)).mp h
    exact decodesStrictAs_of_under (m := .jalr) hlow hop (if_pos hf3) rfl

theorem decodesStrictAs_of_branchRow (hr : r ∈ opcodeRowsBranch) (h : r.selects w) : DecodesStrictAs w r.mnemonic := by
  simp only [opcodeRowsBranch, List.mem_cons, List.not_mem_nil, or_false] at hr
  rcases hr with rfl | rfl | rfl | rfl | rfl | rfl
  all_goals
    obtain ⟨hlow, hop, hf3⟩ := (masked_funct3_iff (by decide)).mp h
    exact decodesStrictAs_of_under (m := .branch) hlow hop (by rw [decodeStrictUnder, decodeBranch, hf3]; rfl) rfl

theorem decodesStrictAs_of_memoryRow (hr : r ∈ opcodeRowsMemory) (h : r.selects w) : DecodesStrictAs w r.mnemonic := by
  simp only [opcodeRowsMemory, List.mem_cons, List.not_mem_nil, or_false] at hr
  rcases hr with rfl | rfl | rfl | rfl | rfl | hstore
  pick_goal 6
  · rcases hstore with rfl | rfl | rfl
    all_goals
      obtain ⟨hlow, hop, hf3⟩ := (masked_funct3_iff (by decide)).mp h
      exact decodesStrictAs_of_under (m := .store) hlow hop (by rw [decodeStrictUnder, decodeStore, hf3]; rfl) rfl
  all_goals
    obtain ⟨hlow, hop, hf3⟩ := (masked_funct3_iff (by decide)).mp h
    exact decodesStrictAs_of_under (m := .load) hlow hop (by rw [decodeStrictUnder, decodeLoad, hf3]; rfl) rfl

theorem decodesStrictAs_of_opImmRow (hr : r ∈ opcodeRowsOpImm) (h : r.selects w) : DecodesStrictAs w r.mnemonic := by
  simp only [opcodeRowsOpImm, List.mem_cons, List.not_mem_nil, or_false] at hr
  rcases hr with rfl | rfl | rfl | rfl | rfl | rfl | hshift
  pick_goal 7
  · rcases hshift with rfl | rfl | rfl
    all_goals
      obtain ⟨hlow, hop, hf3, hf7⟩ := (masked_funct7_iff (by decide)).mp h
      exact decodesStrictAs_of_under (m := .opImm) hlow hop (by rw [decodeStrictUnder, decodeShiftStrict, hf3, hf7]; rfl) rfl
  all_goals
    obtain ⟨hlow, hop, hf3⟩ := (masked_funct3_iff (by decide)).mp h
    exact decodesStrictAs_of_under (m := .opImm) hlow hop (by rw [decodeStrictUnder, decodeOpImmPlain, hf3]; rfl) rfl

theorem decodesStrictAs_of_opRow (hr : r ∈ opcodeRowsOp) (h : r.selects w) : DecodesStrictAs w r.mnemonic := by
  simp only [opcodeRowsOp, List.mem_cons, List.not_mem_nil, or_false] at hr
  rcases hr with rfl | rfl | rfl | rfl | rfl | rfl | rfl | rfl | rfl | rfl
  all_goals
    obtain ⟨hlow, hop, hf3, hf7⟩ := (masked_funct7_iff (by decide)).mp h
    exact decodesStrictAs_of_under (m := .op) hlow hop (by rw [decodeStrictUnder, decodeOpStrict, hf3, hf7]; rfl) rfl

theorem decodesStrictAs_of_systemRow (hr : r ∈ opcodeRowsSystem) (h : r.selects w) : DecodesStrictAs w r.mnemonic := by
  simp only [opcodeRowsSystem, List.mem_cons, List.not_mem_nil, or_false] at hr
  rcases hr with rfl | rfl | rfl
  · obtain ⟨hlow, hop, hf3⟩ := (masked_funct3_iff (by decide)).mp h
    exact decodesStrictAs_of_under (m := .miscMem) hlow hop (if_pos hf3) rfl
  · obtain rfl : w = 0x00000073#32 := (BitVec.and_allOnes (x := w)).symm.trans h
    exact ⟨.ecall, rfl, rfl⟩
  · obtain rfl : w = 0x00100073#32 := (BitVec.and_allOnes (x := w)).symm.trans h
    exact ⟨.ebreak, rfl, rfl⟩

theorem decodesStrictAs_of_selects (hr : r ∈ opcodeTable) (h : r.selects w) : DecodesStrictAs w r.mnemonic := by
  rcases mem_opcodeTable.mp hr with hr | hr | hr | hr | hr | hr
  · exact decodesStrictAs_of_upperRow hr h
  · exact decodesStrictAs_of_branchRow hr h
  · exact decodesStrictAs_of_memoryRow hr h
  · exact decodesStrictAs_of_opImmRow hr h
  · exact decodesStrictAs_of_opRow hr h
  · exact decodesStrictAs_of_systemRow hr h

/-! ### A word that decodes in strict mode is selected by the row of its mnemonic -/

open Laws in
/-- The canonical word of an instruction is selected by the row of its mnemonic. -/
theorem encode_matches_row : ∀ i : Instr, EncodeMatchesRow.Statement i
  | .lui .. => EncodeMatchesRow.lui .. | .auipc .. => EncodeMatchesRow.auipc .. | .jal .. => EncodeMatchesRow.jal ..
  | .jalr .. => EncodeMatchesRow.jalr .. | .beq .. => EncodeMatchesRow.beq .. | .bne .. => EncodeMatchesRow.bne ..
  | .blt .. => EncodeMatchesRow.blt .. | .bge .. => EncodeMatchesRow.bge .. | .bltu .. => EncodeMatchesRow.bltu ..
  | .bgeu .. => EncodeMatchesRow.bgeu .. | .lb .. => EncodeMatchesRow.lb .. | .lh .. => EncodeMatchesRow.lh ..
  | .lw .. => EncodeMatchesRow.lw .. | .lbu .. => EncodeMatchesRow.lbu .. | .lhu .. => EncodeMatchesRow.lhu ..
  | .sb .. => EncodeMatchesRow.sb .. | .sh .. => EncodeMatchesRow.sh .. | .sw .. => EncodeMatchesRow.sw ..
  | .addi .. => EncodeMatchesRow.addi .. | .slti .. => EncodeMatchesRow.slti .. | .sltiu .. => EncodeMatchesRow.sltiu ..
  | .xori .. => EncodeMatchesRow.xori .. | .ori .. => EncodeMatchesRow.ori .. | .andi .. => EncodeMatchesRow.andi ..
  | .slli .. => EncodeMatchesRow.slli .. | .srli .. => EncodeMatchesRow.srli .. | .srai .. => EncodeMatchesRow.srai ..
  | .add .. => EncodeMatchesRow.add .. | .sub .. => EncodeMatchesRow.sub .. | .sll .. => EncodeMatchesRow.sll ..
  | .slt .. => EncodeMatchesRow.slt .. | .sltu .. => EncodeMatchesRow.sltu .. | .xor .. => EncodeMatchesRow.xor ..
  | .srl .. => EncodeMatchesRow.srl .. | .sra .. => EncodeMatchesRow.sra .. | .or .. => EncodeMatchesRow.or ..
  | .and .. => EncodeMatchesRow.and .. | .fence .. => EncodeMatchesRow.fence .. | .ecall => EncodeMatchesRow.ecall
  | .ebreak => EncodeMatchesRow.ebreak

/-- A word that decodes in strict mode is its instruction's canonical word, so that instruction's row selects it. -/
theorem exists_row_of_decodeStrict (h : decodeStrict w = some i) : ∃ r ∈ opcodeTable, r.mnemonic = i.mnemonic ∧ r.selects w :=
  encode_of_decodeStrict h ▸ encode_matches_row i

theorem selects_of_decodesStrictAs (hr : r ∈ opcodeTable) (h : DecodesStrictAs w r.mnemonic) : r.selects w := by
  obtain ⟨i, hi, hmnemonic⟩ := h
  obtain ⟨r', hr', hmnemonic', hselects⟩ := exists_row_of_decodeStrict hi
  rwa [eq_of_mnemonic_eq hr hr' (hmnemonic.symm.trans hmnemonic'.symm)]

/-- No row selects a word exactly when the strict decode has no instruction for it. -/
theorem no_row_selects_iff : (∀ r ∈ opcodeTable, ¬ r.selects w) ↔ decodeStrict w = none := by
  constructor
  · intro hnone
    cases hi : decodeStrict w with
    | none => rfl
    | some i =>
      obtain ⟨r, hr, -, hselects⟩ := exists_row_of_decodeStrict hi
      exact absurd hselects (hnone r hr)
  · intro hnone r hr hselects
    obtain ⟨i, hi, -⟩ := decodesStrictAs_of_selects hr hselects
    simp [hnone] at hi

end

/-- Settles O3: row by row from a word to its mnemonic, and back through the canonical word. -/
theorem strictDecodeIsOpcodeTable : Obligations.StrictDecodeIsOpcodeTable :=
  ⟨fun _ _ hr => ⟨decodesStrictAs_of_selects hr, selects_of_decodesStrictAs hr⟩, fun _ => no_row_selects_iff⟩

end Sys2Proof
end

section
/-! The control unit's rows of the opcode table and the partial decode (R80, R82). -/

namespace Sys2Proof

section
variable {r : OpcodeRow} {w : Word} {i : Instr}

/-! ### A word that the control unit's masks select decodes to the row's mnemonic -/

/-- The partial decode answers an instruction of the mnemonic. -/
def DecodesCuAs (w : Word) (mnemonic : String) : Prop := ∃ i, decodeCu w = .instr i ∧ i.mnemonic = mnemonic

/-- The table of the word's major opcode answers for the partial decode. -/
theorem decodesCuAs_of_under {m : Major} {mnemonic : String} (hop : opcode62Of w = m.code) (hi : decodeCuUnder m w = .instr i)
    (hmnemonic : i.mnemonic = mnemonic) : DecodesCuAs w mnemonic :=
  ⟨i, decodeCu_eq_instr.mpr ⟨m, hop, hi⟩, hmnemonic⟩

theorem decodesCuAs_of_upperRow (hr : r ∈ opcodeRowsUpper) (h : r.cuSelects w) : DecodesCuAs w r.mnemonic := by
  simp only [opcodeRowsUpper, List.mem_cons, List.not_mem_nil, or_false] at hr
  rcases hr with rfl | rfl | rfl | rfl
  all_goals have hop := (cuMasked_opcode_iff (by decide)).mp h
  · exact decodesCuAs_of_under (m := .lui) hop rfl rfl
  · exact decodesCuAs_of_under (m := .auipc) hop rfl rfl
  · exact decodesCuAs_of_under (m := .jal) hop rfl rfl
  · exact decodesCuAs_of_under (m := .jalr) hop rfl rfl

theorem decodesCuAs_of_branchRow (hr : r ∈ opcodeRowsBranch) (h : r.cuSelects w) : DecodesCuAs w r.mnemonic := by
  simp only [opcodeRowsBranch, List.mem_cons, List.not_mem_nil, or_false] at hr
  rcases hr with rfl | rfl | rfl | rfl | rfl | rfl
  all_goals
    obtain ⟨hop, hf3⟩ := (cuMasked_funct3_iff (by decide)).mp h
    exact decodesCuAs_of_under (m := .branch) hop (by rw [decodeCuUnder, decodeBranch, hf3]; rfl) rfl

theorem decodesCuAs_of_memoryRow (hr : r ∈ opcodeRowsMemory) (h : r.cuSelects w) : DecodesCuAs w r.mnemonic := by
  simp only [opcodeRowsMemory, List.mem_cons, List.not_mem_nil, or_false] at hr
  rcases hr with rfl | rfl | rfl | rfl | rfl | hstore
  pick_goal 6
  · rcases hstore with rfl | rfl | rfl
    -- The row of SW looks at the high bit of the size code only, those of SB and SH at both (R82).
    pick_goal 3
    · obtain ⟨hop, h13⟩ := (cuMasked_wordSize_iff (by decide)).mp h
      exact decodesCuAs_of_under (m := .store) hop (if_pos h13) rfl
    all_goals
      obtain ⟨hop, h13, h12⟩ := (cuMasked_size_iff (by decide)).mp h
      exact decodesCuAs_of_under (m := .store) hop (by rw [decodeCuUnder, h13, h12]; rfl) rfl
  -- The row of LW looks at the high bit of the size code only (R82).
  pick_goal 3
  · obtain ⟨hop, h13⟩ := (cuMasked_wordSize_iff (by decide)).mp h
    exact decodesCuAs_of_under (m := .load) hop (if_pos h13) rfl
  all_goals
    obtain ⟨hop, hf3⟩ := (cuMasked_funct3_iff (by decide)).mp h
    have h13 := (BitVec.getLsbD_eq_getElem (by decide)).trans (bit13_eq w)
    exact decodesCuAs_of_under (m := .load) hop (by rw [decodeCuUnder, decodeLoad, h13, hf3]; rfl) rfl

theorem decodesCuAs_of_opImmRow (hr : r ∈ opcodeRowsOpImm) (h : r.cuSelects w) : DecodesCuAs w r.mnemonic := by
  simp only [opcodeRowsOpImm, List.mem_cons, List.not_mem_nil, or_false] at hr
  rcases hr with rfl | rfl | rfl | rfl | rfl | rfl | hshift
  pick_goal 7
  · rcases hshift with rfl | rfl | rfl
    · obtain ⟨hop, hf3⟩ := (cuMasked_funct3_iff (by decide)).mp h
      exact decodesCuAs_of_under (m := .opImm) hop (by rw [decodeCuUnder, decodeShiftCu, hf3]; rfl) rfl
    all_goals
      obtain ⟨hop, hf3, h30⟩ := (cuMasked_bit30_iff (by decide)).mp h
      exact decodesCuAs_of_under (m := .opImm) hop (by rw [decodeCuUnder, decodeShiftCu, hf3, h30]; rfl) rfl
  all_goals
    obtain ⟨hop, hf3⟩ := (cuMasked_funct3_iff (by decide)).mp h
    exact decodesCuAs_of_under (m := .opImm) hop (by rw [decodeCuUnder, decodeOpImmPlain, hf3]; rfl) rfl

theorem decodesCuAs_of_opRow (hr : r ∈ opcodeRowsOp) (h : r.cuSelects w) : DecodesCuAs w r.mnemonic := by
  simp only [opcodeRowsOp, List.mem_cons, List.not_mem_nil, or_false] at hr
  rcases hr with hadd | hsub | rfl | rfl | rfl | rfl | hsrl | hsra | rfl | rfl
  -- The rows of ADD, SUB, SRL and SRA look at bit 30 (R82).
  case inl | inr.inl | inr.inr.inr.inr.inr.inr.inl | inr.inr.inr.inr.inr.inr.inr.inl =>
    subst r
    obtain ⟨hop, hf3, h30⟩ := (cuMasked_bit30_iff (by decide)).mp h
    exact decodesCuAs_of_under (m := .op) hop (by rw [decodeCuUnder, decodeOpCu, hf3, h30]; rfl) rfl
  all_goals
    obtain ⟨hop, hf3⟩ := (cuMasked_funct3_iff (by decide)).mp h
    exact decodesCuAs_of_under (m := .op) hop (by rw [decodeCuUnder, decodeOpCu, hf3]; rfl) rfl

theorem decodesCuAs_of_systemRow (hr : r ∈ opcodeRowsSystem) (h : r.cuSelects w) : DecodesCuAs w r.mnemonic := by
  simp only [opcodeRowsSystem, List.mem_cons, List.not_mem_nil, or_false] at hr
  rcases hr with rfl | rfl | rfl
  · obtain ⟨hop, hf3⟩ := (cuMasked_funct3_iff (by decide)).mp h
    exact decodesCuAs_of_under (m := .miscMem) hop (by rw [decodeCuUnder, decodeMiscMem, hf3]; rfl) rfl
  all_goals
    obtain ⟨hop, hf3, h20⟩ := (cuMasked_bit20_iff (by decide)).mp h
    exact decodesCuAs_of_under (m := .system) hop (by rw [decodeCuUnder, hf3, h20]; rfl) rfl

theorem decodesCuAs_of_cuSelects (hr : r ∈ opcodeTable) (h : r.cuSelects w) : DecodesCuAs w r.mnemonic := by
  rcases mem_opcodeTable.mp hr with hr | hr | hr | hr | hr | hr
  · exact decodesCuAs_of_upperRow hr h
  · exact decodesCuAs_of_branchRow hr h
  · exact decodesCuAs_of_memoryRow hr h
  · exact decodesCuAs_of_opImmRow hr h
  · exact decodesCuAs_of_opRow hr h
  · exact decodesCuAs_of_systemRow hr h

/-! ### A word that decodes under the control unit's rules is selected by the row of its mnemonic -/

/-- The row of the instruction's mnemonic selects the word in the control unit's decode. -/
def RowCuSelects (i : Instr) (w : Word) : Prop := ∃ r ∈ opcodeTable, r.mnemonic = i.mnemonic ∧ r.cuSelects w

/-- The row is found by looking the mnemonic up in the table. -/
theorem rowCuSelects_of_find (hfind : opcodeTable.find? (·.mnemonic = i.mnemonic) = some r) (h : r.cuSelects w) : RowCuSelects i w :=
  ⟨r, List.mem_of_find?_eq_some hfind, by simpa using List.find?_some hfind, h⟩

theorem rowCuSelects_of_decodeBranch (hop : opcode62Of w = Major.branch.code) (h : decodeBranch w = some i) : RowCuSelects i w := by
  unfold decodeBranch at h
  split at h <;> cases h
  all_goals next hf3 => exact rowCuSelects_of_find rfl ((cuMasked_funct3_iff (by decide)).mpr ⟨hop, hf3⟩)

theorem rowCuSelects_of_decodeMiscMem (hop : opcode62Of w = Major.miscMem.code) (h : decodeMiscMem w = some i) : RowCuSelects i w := by
  unfold decodeMiscMem at h
  split at h <;> cases h
  next hf3 => exact rowCuSelects_of_find rfl ((cuMasked_funct3_iff (by decide)).mpr ⟨hop, hf3⟩)

theorem rowCuSelects_of_decodeOpImmPlain (hop : opcode62Of w = Major.opImm.code) (h : decodeOpImmPlain w = some i) : RowCuSelects i w := by
  unfold decodeOpImmPlain at h
  split at h <;> cases h
  all_goals next hf3 => exact rowCuSelects_of_find rfl ((cuMasked_funct3_iff (by decide)).mpr ⟨hop, hf3⟩)

theorem rowCuSelects_of_decodeShiftCu (hop : opcode62Of w = Major.opImm.code) (hf3 : funct3Of w = 0b001#3 ∨ funct3Of w = 0b101#3)
    (h : decodeShiftCu w = some i) : RowCuSelects i w := by
  unfold decodeShiftCu at h
  split_ifs at h with hleft h30 <;> cases h
  · exact rowCuSelects_of_find rfl ((cuMasked_funct3_iff (by decide)).mpr ⟨hop, hleft⟩)
  · exact rowCuSelects_of_find rfl ((cuMasked_bit30_iff (by decide)).mpr ⟨hop, hf3.resolve_left hleft, h30⟩)
  · exact rowCuSelects_of_find rfl
      ((cuMasked_bit30_iff (by decide)).mpr ⟨hop, hf3.resolve_left hleft, Bool.eq_false_iff.mpr h30⟩)

/-- The values of funct3 that bit 30 splits under OP, and the others. -/
theorem funct3_op_cases (w : Word) :
    (funct3Of w = 0b000#3 ∨ funct3Of w = 0b101#3) ∨ funct3Of w = 0b001#3 ∨ funct3Of w = 0b010#3 ∨ funct3Of w = 0b011#3 ∨
      funct3Of w = 0b100#3 ∨ funct3Of w = 0b110#3 ∨ funct3Of w = 0b111#3 := by
  generalize funct3Of w = f
  revert f
  decide

theorem rowCuSelects_of_decodeOpCu (hop : opcode62Of w = Major.op.code) (h : decodeOpCu w = some i) : RowCuSelects i w := by
  rcases funct3_op_cases w with hsplit | hf3 | hf3 | hf3 | hf3 | hf3 | hf3
  case inl =>
    rcases hsplit with hf3 | hf3 <;> cases h30 : w.getLsbD 30
    all_goals
      rw [decodeOpCu, hf3, h30] at h
      cases h
      exact rowCuSelects_of_find rfl ((cuMasked_bit30_iff (by decide)).mpr ⟨hop, hf3, h30⟩)
  all_goals
    rw [decodeOpCu, hf3] at h
    cases h
    exact rowCuSelects_of_find rfl ((cuMasked_funct3_iff (by decide)).mpr ⟨hop, hf3⟩)

/-- A size code 10 or 11 has its high bit set; the other values of funct3 have it clear. -/
theorem funct3_of_bit13_clear (h : w.getLsbD 13 = false) :
    funct3Of w = 0b000#3 ∨ funct3Of w = 0b001#3 ∨ funct3Of w = 0b100#3 ∨ funct3Of w = 0b101#3 := by
  rw [BitVec.getLsbD_eq_getElem (by decide), bit13_eq] at h
  revert h
  generalize funct3Of w = f
  revert f
  decide

theorem rowCuSelects_of_load (hop : opcode62Of w = Major.load.code) (h : decodeCuUnder .load w = .instr i) : RowCuSelects i w := by
  cases h13 : w.getLsbD 13 with
  | true =>
    rw [decodeCuUnder, if_pos h13] at h
    cases h
    exact rowCuSelects_of_find rfl ((cuMasked_wordSize_iff (by decide)).mpr ⟨hop, h13⟩)
  | false =>
    rcases funct3_of_bit13_clear h13 with hf3 | hf3 | hf3 | hf3
    all_goals
      rw [decodeCuUnder, decodeLoad, h13, hf3] at h
      cases h
      exact rowCuSelects_of_find rfl ((cuMasked_funct3_iff (by decide)).mpr ⟨hop, hf3⟩)

theorem rowCuSelects_of_store (hop : opcode62Of w = Major.store.code) (h : decodeCuUnder .store w = .instr i) : RowCuSelects i w := by
  simp only [decodeCuUnder] at h
  split_ifs at h with h13 h12 <;> cases h
  · exact rowCuSelects_of_find rfl ((cuMasked_wordSize_iff (by decide)).mpr ⟨hop, h13⟩)
  · exact rowCuSelects_of_find rfl ((cuMasked_size_iff (by decide)).mpr ⟨hop, Bool.eq_false_iff.mpr h13, h12⟩)
  · exact rowCuSelects_of_find rfl
      ((cuMasked_size_iff (by decide)).mpr ⟨hop, Bool.eq_false_iff.mpr h13, Bool.eq_false_iff.mpr h12⟩)

theorem rowCuSelects_of_system (hop : opcode62Of w = Major.system.code) (h : decodeCuUnder .system w = .instr i) : RowCuSelects i w := by
  simp only [decodeCuUnder] at h
  split_ifs at h with hf3 h20 <;> cases h
  · exact rowCuSelects_of_find rfl ((cuMasked_bit20_iff (by decide)).mpr ⟨hop, hf3, h20⟩)
  · exact rowCuSelects_of_find rfl ((cuMasked_bit20_iff (by decide)).mpr ⟨hop, hf3, Bool.eq_false_iff.mpr h20⟩)

theorem rowCuSelects_of_decodeCu (h : decodeCu w = .instr i) : RowCuSelects i w := by
  obtain ⟨m, hop, hi⟩ := decodeCu_eq_instr.mp h
  cases m
  case lui | auipc | jal | jalr =>
    cases hi
    exact rowCuSelects_of_find rfl ((cuMasked_opcode_iff (by decide)).mpr hop)
  case branch => exact rowCuSelects_of_decodeBranch hop (decodedOr_eq_instr.mp hi)
  case load => exact rowCuSelects_of_load hop hi
  case store => exact rowCuSelects_of_store hop hi
  case op => exact rowCuSelects_of_decodeOpCu hop (decodedOr_eq_instr.mp hi)
  case miscMem => exact rowCuSelects_of_decodeMiscMem hop (decodedOr_eq_instr.mp hi)
  case system => exact rowCuSelects_of_system hop hi
  case opImm =>
    have htable := decodedOr_eq_instr.mp hi
    split at htable
    · next hf3 => exact rowCuSelects_of_decodeShiftCu hop hf3 htable
    · exact rowCuSelects_of_decodeOpImmPlain hop htable
  case custom0 | custom1 | custom2 | custom3 => cases hi

theorem cuSelects_of_decodesCuAs (hr : r ∈ opcodeTable) (h : DecodesCuAs w r.mnemonic) : r.cuSelects w := by
  obtain ⟨i, hi, hmnemonic⟩ := h
  obtain ⟨r', hr', hmnemonic', hselects⟩ := rowCuSelects_of_decodeCu hi
  rwa [eq_of_mnemonic_eq hr hr' (hmnemonic.symm.trans hmnemonic'.symm)]

end

/-- Settles O5: row by row from a word to its mnemonic, and back table by table. -/
theorem cuDecodeIsCuTable : Obligations.CuDecodeIsCuTable :=
  fun _ _ hr => ⟨decodesCuAs_of_cuSelects hr, cuSelects_of_decodesCuAs hr⟩

/-- Settles O4: rows that select one word are rows of the one mnemonic it decodes to (O3, O5). -/
theorem opcodeRowsDisjoint : Obligations.OpcodeRowsDisjoint := by
  refine ⟨rfl, fun w r₁ r₂ hr₁ hr₂ => ⟨fun h₁ h₂ => ?_, fun h₁ h₂ => ?_⟩⟩
  · obtain ⟨i, hi, hmnemonic₁⟩ := decodesStrictAs_of_selects hr₁ h₁
    obtain ⟨j, hj, hmnemonic₂⟩ := decodesStrictAs_of_selects hr₂ h₂
    obtain rfl : i = j := Option.some.inj (hi.symm.trans hj)
    exact eq_of_mnemonic_eq hr₁ hr₂ (hmnemonic₁.symm.trans hmnemonic₂)
  · obtain ⟨i, hi, hmnemonic₁⟩ := decodesCuAs_of_cuSelects hr₁ h₁
    obtain ⟨j, hj, hmnemonic₂⟩ := decodesCuAs_of_cuSelects hr₂ h₂
    obtain rfl : i = j := Decoded.instr.inj (hi.symm.trans hj)
    exact eq_of_mnemonic_eq hr₁ hr₂ (hmnemonic₁.symm.trans hmnemonic₂)

end Sys2Proof
end

section
/-! Words that are no instruction (R83, R85), what the control unit makes of partial matches (R82), and hints (R84). -/

namespace Sys2Proof

section
variable {w : Word}

/-! ### Reserved words -/

/-- A word whose low two bits are not 11 is reserved. -/
theorem decodeStrict_of_lowBits (h : w.extractLsb' 0 2 ≠ 0b11#2) : decodeStrict w = none := if_neg h

/-- A word without major opcode is reserved. -/
theorem decodeStrict_of_no_major (h : majorOf (opcode62Of w) = none) : decodeStrict w = none := by
  simp [decodeStrict, h]

/-- A word its major opcode's table has no instruction for is reserved. -/
theorem decodeStrict_of_under {m : Major} (hm : majorOf (opcode62Of w) = some m) (h : decodeStrictUnder m w = none) : decodeStrict w = none := by
  simp [decodeStrict, hm, h]

theorem decodeStrict_of_load (hm : majorOf (opcode62Of w) = some .load) (h : funct3Of w ∈ [0b011#3, 0b110#3, 0b111#3]) :
    decodeStrict w = none := by
  refine decodeStrict_of_under hm ?_
  simp only [List.mem_cons, List.not_mem_nil, or_false] at h
  rcases h with hf3 | hf3 | hf3 <;> rw [decodeStrictUnder, decodeLoad, hf3] <;> rfl

theorem decodeStrict_of_branch (hm : majorOf (opcode62Of w) = some .branch) (h : funct3Of w ∈ [0b010#3, 0b011#3]) :
    decodeStrict w = none := by
  refine decodeStrict_of_under hm ?_
  simp only [List.mem_cons, List.not_mem_nil, or_false] at h
  rcases h with hf3 | hf3 <;> rw [decodeStrictUnder, decodeBranch, hf3] <;> rfl

theorem decodeStrict_of_store (hm : majorOf (opcode62Of w) = some .store) (h : 3 ≤ (funct3Of w).toNat) : decodeStrict w = none := by
  refine decodeStrict_of_under hm ?_
  rw [decodeStrictUnder, decodeStore]
  split
  case h_4 => rfl
  all_goals next hf3 => simp [hf3] at h

theorem decodeStrict_of_system (hm : majorOf (opcode62Of w) = some .system) (hecall : w ≠ 0x00000073#32) (hebreak : w ≠ 0x00100073#32) :
    decodeStrict w = none := by
  refine decodeStrict_of_under hm ?_
  rw [decodeStrictUnder, if_neg hecall, if_neg hebreak]

theorem decodeStrict_of_funct3 {m : Major} (hm : majorOf (opcode62Of w) = some m) (hmem : m ∈ [Major.jalr, Major.miscMem, Major.system])
    (h : funct3Of w ≠ 0b000#3) : decodeStrict w = none := by
  simp only [List.mem_cons, List.not_mem_nil, or_false] at hmem
  rcases hmem with rfl | rfl | rfl
  · exact decodeStrict_of_under hm (if_neg h)
  · exact decodeStrict_of_under hm (if_neg h)
  · have hne (v : Word) (hv : funct3Of v = 0b000#3) : w ≠ v := fun e => h (e ▸ hv)
    exact decodeStrict_of_system hm (hne _ rfl) (hne _ rfl)

/-- An OP-IMM shift has inst[31:25] = 0000000, or 0100000 for SRAI. -/
theorem decodeStrict_of_shift (hm : majorOf (opcode62Of w) = some .opImm)
    (h : (funct3Of w = 0b001#3 ∧ funct7Of w ≠ 0#7) ∨ (funct3Of w = 0b101#3 ∧ funct7Of w ∉ [0b0000000#7, 0b0100000#7])) :
    decodeStrict w = none := by
  refine decodeStrict_of_under hm ?_
  simp only [List.mem_cons, List.not_mem_nil, or_false, not_or] at h
  rw [decodeStrictUnder, if_pos (h.imp And.left And.left), decodeShiftStrict]
  split
  case h_4 => rfl
  all_goals next hf3 hf7 => simp [hf3, hf7] at h

/-- An OP word has inst[31:25] = 0000000, or 0100000 for SUB and SRA. -/
theorem decodeStrict_of_op (hm : majorOf (opcode62Of w) = some .op)
    (h : (funct3Of w ∈ [0b000#3, 0b101#3] ∧ funct7Of w ∉ [0b0000000#7, 0b0100000#7]) ∨
      (funct3Of w ∉ [0b000#3, 0b101#3] ∧ funct7Of w ≠ 0#7)) : decodeStrict w = none := by
  refine decodeStrict_of_under hm ?_
  simp only [List.mem_cons, List.not_mem_nil, or_false, not_or] at h
  rw [decodeStrictUnder, decodeOpStrict]
  split
  case h_11 => rfl
  all_goals next hf7 hf3 => simp [hf3, hf7] at h

/-- A custom opcode has no strict instruction (R85). -/
theorem decodeStrict_of_custom
    (h : majorOf (opcode62Of w) ∈ [some Major.custom0, some Major.custom1, some Major.custom2, some Major.custom3]) :
    decodeStrict w = none := by
  simp only [List.mem_cons, List.not_mem_nil, or_false] at h
  rcases h with hm | hm | hm | hm <;> exact decodeStrict_of_under hm rfl

/-- A custom opcode is illegal under cu_partial too (R85). -/
theorem decodeCu_of_custom
    (h : majorOf (opcode62Of w) ∈ [some Major.custom0, some Major.custom1, some Major.custom2, some Major.custom3]) :
    decodeCu w = .illegal := by
  simp only [List.mem_cons, List.not_mem_nil, or_false] at h
  rcases h with hm | hm | hm | hm <;> rw [decodeCu_of_major hm, decodeCuUnder]

/-- A word without strict instruction is illegal, whatever the register count. -/
theorem decode_strict_of_none (n : RegCount) (h : decodeStrict w = none) : decode n .strict w = .illegal := by
  rw [decode, h, checkRegs]

end

end Sys2Proof

namespace Sys2Proof.Machine

section
variable {s : State} {w : Word}

/-- An illegal word raises IllegalInstruction, with itself as the information. -/
theorem run_of_decode_illegal (h : decode s.cfg.regCount s.cfg.decodeMode w = .illegal) :
    s.run w = .fault (.trap (.illegalInstruction w) s.pc) := by
  rw [State.run, h, raise_eq_fault]

/-- Under strict decoding, a word that no row selects, or that names a register RV32E does not have, is illegal. -/
theorem decode_illegal_of_reserved (hmode : s.cfg.decodeMode = .strict)
    (h : (∀ r ∈ opcodeTable, ¬ r.selects w) ∨
      (s.cfg.regCount = .rv32e ∧ ∃ i, decodeStrict w = some i ∧ ∃ r ∈ i.regs, 16 ≤ r.toNat)) :
    decode s.cfg.regCount s.cfg.decodeMode w = .illegal := by
  rw [hmode]
  rcases h with hnone | ⟨hrv, i, hi, hhigh⟩
  · exact decode_strict_of_none _ (no_row_selects_iff.mp hnone)
  · have hrv32i : decode .rv32i .strict w = .instr i := decode_strict_eq_instr.mpr ⟨hi, regsExist_rv32i i⟩
    rw [hrv]
    exact ((rv32eRejectsHighRegisters .strict w).1 i hrv32i).2 hhigh

end

/-- Settles O7: a word R89 does not accept decodes as illegal, and each class R83 lists has no strict instruction, so no row. -/
theorem reservedWordsAreIllegal : Obligations.ReservedWordsAreIllegal := by
  refine ⟨fun s w hhung hmode hfetch hreserved => ?_, fun w hclass => no_row_selects_iff.mpr ?_⟩
  · rw [step_of_fetch_ok hhung hfetch]
    exact run_of_decode_illegal (decode_illegal_of_reserved hmode hreserved)
  · rcases hclass with hlow | hnone | hcustom | ⟨hm, hf3⟩ | ⟨hm, hf3⟩ | ⟨hm, hf3⟩ | ⟨hm, hf3⟩ | ⟨hm, hf3, hf7⟩ | ⟨hm, hf3, hf7⟩ |
      ⟨hm, hf3, hf7⟩ | ⟨hm, hf3, hf7⟩ | ⟨hm, hecall, hebreak⟩
    · exact decodeStrict_of_lowBits hlow
    · exact decodeStrict_of_no_major hnone
    · exact decodeStrict_of_custom hcustom
    · exact decodeStrict_of_load hm hf3
    · exact decodeStrict_of_store hm hf3
    · exact decodeStrict_of_branch hm hf3
    · obtain ⟨m, hmem, hm⟩ : ∃ m ∈ [Major.jalr, Major.miscMem, Major.system], some m = majorOf (opcode62Of w) := List.mem_map.mp hm
      exact decodeStrict_of_funct3 hm.symm hmem hf3
    · exact decodeStrict_of_shift hm (.inl ⟨hf3, hf7⟩)
    · exact decodeStrict_of_shift hm (.inr ⟨hf3, hf7⟩)
    · exact decodeStrict_of_op hm (.inl ⟨hf3, hf7⟩)
    · exact decodeStrict_of_op hm (.inr ⟨hf3, hf7⟩)
    · exact decodeStrict_of_system hm hecall hebreak

/-! ### Custom opcodes -/

/-- The four custom values of opcode[6:2] are the four custom major opcodes (R79, R85). -/
theorem majorOf_custom {b : BitVec 5} (h : b ∈ [0b00010#5, 0b01010#5, 0b10110#5, 0b11110#5]) :
    majorOf b ∈ [some Major.custom0, some Major.custom1, some Major.custom2, some Major.custom3] := by
  revert h
  revert b
  decide

/-- A custom opcode is illegal in both modes and with either register count. -/
theorem decode_of_custom (n : RegCount) (mode : DecodeMode) {w : Word}
    (h : majorOf (opcode62Of w) ∈ [some Major.custom0, some Major.custom1, some Major.custom2, some Major.custom3]) :
    decode n mode w = .illegal := by
  cases mode with
  | strict => exact decode_strict_of_none n (decodeStrict_of_custom h)
  | cuPartial => rw [decode, decodeCu_of_custom h, checkRegs]

/-- The instruction numbers of CUSTOM-0 are spaced by 4 (R85). -/
theorem custom0_number (f : BitVec 3) : 0x90#8 + (f.setWidth 8 <<< 2) = BitVec.ofNat 8 (0x90 + 4 * f.toNat) := by
  revert f
  decide

/-- Settles O8: `decode_of_custom` for the step, and the rows of `inumOf` for the numbers. -/
theorem customOpcodesAreIllegal : Obligations.CustomOpcodesAreIllegal := by
  refine ⟨fun s w hhung hfetch hop => ?_, fun w => ⟨fun hop => ?_, fun hop => ?_, fun hop => ?_, fun hop => ?_⟩⟩
  · rw [step_of_fetch_ok hhung hfetch]
    exact run_of_decode_illegal (decode_of_custom _ _ (majorOf_custom hop))
  · rw [inumOf, hop, ← custom0_number]
    rfl
  all_goals
    rw [inumOf, hop]
    rfl

end Sys2Proof.Machine
end

section
/-! What the control unit makes of words that strict mode rejects (R82). -/

namespace Sys2Proof

section
variable {w : Word}

/-! ### One major opcode at a time -/

theorem decodeCu_jalr (hm : majorOf (opcode62Of w) = some .jalr) : decodeCu w = .instr (.jalr (rdOf w) (rs1Of w) (immIOf w)) := by
  rw [decodeCu_of_major hm, decodeCuUnder]

theorem decodeCu_system (hm : majorOf (opcode62Of w) = some .system) (hf3 : funct3Of w = 0b000#3) :
    decodeCu w = .instr (if w.getLsbD 20 = true then .ebreak else .ecall) := by
  rw [decodeCu_of_major hm, decodeCuUnder, if_pos hf3]
  split <;> rfl

theorem decodeCu_op (hm : majorOf (opcode62Of w) = some .op) : decodeCu w = decodedOr (decodeOpCu w) := by
  rw [decodeCu_of_major hm, decodeCuUnder]

theorem decodeCu_shift (hm : majorOf (opcode62Of w) = some .opImm) (hf3 : funct3Of w = 0b001#3 ∨ funct3Of w = 0b101#3) :
    decodeCu w = decodedOr (decodeShiftCu w) := by
  rw [decodeCu_of_major hm, decodeCuUnder, if_pos hf3]

/-- The high bit of a size code 10 or 11. -/
theorem bit13_of_wordSize (h : funct3Of w ∈ [0b010#3, 0b011#3, 0b110#3, 0b111#3]) : w.getLsbD 13 = true := by
  rw [BitVec.getLsbD_eq_getElem (by decide), bit13_eq]
  revert h
  generalize funct3Of w = f
  revert f
  decide

theorem decodeCu_wordLoad (hm : majorOf (opcode62Of w) = some .load) (h : funct3Of w ∈ [0b010#3, 0b011#3, 0b110#3, 0b111#3]) :
    decodeCu w = .instr (.lw (rdOf w) (rs1Of w) (immIOf w)) := by
  rw [decodeCu_of_major hm, decodeCuUnder, if_pos (bit13_of_wordSize h)]

theorem decodeCu_wordStore (hm : majorOf (opcode62Of w) = some .store) (h : funct3Of w ∈ [0b010#3, 0b011#3, 0b110#3, 0b111#3]) :
    decodeCu w = .instr (.sw (rs2Of w) (rs1Of w) (immSOf w)) := by
  rw [decodeCu_of_major hm, decodeCuUnder, if_pos (bit13_of_wordSize h)]

/-- A store is told by the two bits of the size code; the unsigned bit is not looked at. -/
theorem decodeCu_store (hm : majorOf (opcode62Of w) = some .store) :
    decodeCu w = if (funct3Of w)[1] then .instr (.sw (rs2Of w) (rs1Of w) (immSOf w))
      else if (funct3Of w)[0] then .instr (.sh (rs2Of w) (rs1Of w) (immSOf w)) else .instr (.sb (rs2Of w) (rs1Of w) (immSOf w)) := by
  rw [decodeCu_of_major hm, decodeCuUnder, BitVec.getLsbD_eq_getElem (by decide), BitVec.getLsbD_eq_getElem (by decide), bit13_eq, bit12_eq]

/-! ### The low two bits -/

section
variable (w : Word) (b : BitVec 2)

/-- Changing the low two bits changes no field above them. -/
theorem extractLsb'_replaceLow {k : Nat} (n : Nat) (hk : 2 ≤ k) : (w.extractLsb' 2 30 ++ b).extractLsb' k n = w.extractLsb' k n := by
  apply BitVec.eq_of_getLsbD_eq
  intro j hj
  have hhigh : ¬ k + j < 2 := by omega
  have hpos : 2 + (k + j - 2) = k + j := by omega
  simp only [BitVec.getLsbD_extractLsb', BitVec.getLsbD_append, hhigh, if_false, hpos]
  by_cases hin : k + j - 2 < 30
  · simp [hin]
  · simp [hin, BitVec.getLsbD_of_ge w (k + j) (by omega)]

theorem getLsbD_replaceLow {k : Nat} (hk : 2 ≤ k) : (w.extractLsb' 2 30 ++ b).getLsbD k = w.getLsbD k :=
  (extractLsb'_one_eq_iff ..).mp (extractLsb'_replaceLow w b 1 hk)

@[simp] theorem opcode62Of_replaceLow : opcode62Of (w.extractLsb' 2 30 ++ b) = opcode62Of w := extractLsb'_replaceLow w b _ (by decide)
@[simp] theorem rdOf_replaceLow : rdOf (w.extractLsb' 2 30 ++ b) = rdOf w := extractLsb'_replaceLow w b _ (by decide)
@[simp] theorem funct3Of_replaceLow : funct3Of (w.extractLsb' 2 30 ++ b) = funct3Of w := extractLsb'_replaceLow w b _ (by decide)
@[simp] theorem rs1Of_replaceLow : rs1Of (w.extractLsb' 2 30 ++ b) = rs1Of w := extractLsb'_replaceLow w b _ (by decide)
@[simp] theorem rs2Of_replaceLow : rs2Of (w.extractLsb' 2 30 ++ b) = rs2Of w := extractLsb'_replaceLow w b _ (by decide)
@[simp] theorem immIOf_replaceLow : immIOf (w.extractLsb' 2 30 ++ b) = immIOf w := extractLsb'_replaceLow w b _ (by decide)
@[simp] theorem immUOf_replaceLow : immUOf (w.extractLsb' 2 30 ++ b) = immUOf w := extractLsb'_replaceLow w b _ (by decide)

@[simp] theorem immSOf_replaceLow : immSOf (w.extractLsb' 2 30 ++ b) = immSOf w := by
  simp (disch := decide) only [immSOf, extractLsb'_replaceLow]

@[simp] theorem immBOf_replaceLow : immBOf (w.extractLsb' 2 30 ++ b) = immBOf w := by
  simp (disch := decide) only [immBOf, extractLsb'_replaceLow]

@[simp] theorem immJOf_replaceLow : immJOf (w.extractLsb' 2 30 ++ b) = immJOf w := by
  simp (disch := decide) only [immJOf, extractLsb'_replaceLow]

/-- Under a major opcode the partial decode does not look at the low two bits. -/
theorem decodeCuUnder_replaceLow (m : Major) : decodeCuUnder m (w.extractLsb' 2 30 ++ b) = decodeCuUnder m w := by
  have h12 := getLsbD_replaceLow w b (k := 12) (by decide)
  have h13 := getLsbD_replaceLow w b (k := 13) (by decide)
  have h20 := getLsbD_replaceLow w b (k := 20) (by decide)
  have h30 := getLsbD_replaceLow w b (k := 30) (by decide)
  cases m
  case lui | auipc | jal | jalr => simp [decodeCuUnder]
  case branch => simp [decodeCuUnder, decodeBranch]
  case load => simp only [decodeCuUnder, decodeLoad, h13]; simp
  case store => simp only [decodeCuUnder, h13, h12]; simp
  case opImm => simp only [decodeCuUnder, decodeShiftCu, decodeOpImmPlain, h30]; simp
  case op => simp only [decodeCuUnder, decodeOpCu, h30]; simp
  case miscMem => simp (disch := decide) [decodeCuUnder, decodeMiscMem, extractLsb'_replaceLow]
  case system => simp only [decodeCuUnder, h20]; simp
  case custom0 | custom1 | custom2 | custom3 => rfl

theorem decodeCu_replaceLow : decodeCu (w.extractLsb' 2 30 ++ b) = decodeCu w := by
  simp only [decodeCu, opcode62Of_replaceLow, decodeCuUnder_replaceLow]

end

end

/-- Settles O10: item by item of R82, and no field of a word lies in its low two bits. -/
theorem cuPartialRunsPartialMatches : Obligations.CuPartialRunsPartialMatches := by
  intro w
  refine ⟨decodeCu_jalr, decodeCu_system, fun hm => ?_, fun hm => ?_, decodeCu_wordLoad, decodeCu_wordStore, fun hm hf3 => ?_,
    fun hm hf3 => ?_, decodeCu_replaceLow w⟩
  · rw [decodeCu_op hm, decodeOpCu]
    exact ⟨fun hf3 h30 => by rw [hf3, h30]; rfl, fun hf3 h30 => by rw [hf3, h30]; rfl, fun hf3 => by rw [hf3]; rfl,
      fun hf3 => by rw [hf3]; rfl, fun hf3 => by rw [hf3]; rfl, fun hf3 => by rw [hf3]; rfl, fun hf3 h30 => by rw [hf3, h30]; rfl,
      fun hf3 h30 => by rw [hf3, h30]; rfl, fun hf3 => by rw [hf3]; rfl, fun hf3 => by rw [hf3]; rfl⟩
  · refine ⟨fun hf3 => ?_, fun hf3 h30 => ?_, fun hf3 h30 => ?_⟩
    · rw [decodeCu_shift hm (.inl hf3), decodeShiftCu, hf3]; rfl
    · rw [decodeCu_shift hm (.inr hf3), decodeShiftCu, hf3, h30]; rfl
    · rw [decodeCu_shift hm (.inr hf3), decodeShiftCu, hf3, h30]; rfl
  · rw [decodeCu_store hm, hf3]; rfl
  · rw [decodeCu_store hm, hf3]; rfl

end Sys2Proof
end

section
/-! Hints (R84): with rd = x0 an instruction of OP-IMM, OP, LUI or AUIPC only advances pc. -/

namespace Sys2Proof.Machine

/-- A result written to x0 is dropped, and pc advances. -/
theorem writeBack_zero (s : State) (v : Word) : s.writeBack 0#5 v = .next { s with pc := s.pc + 4#32 } := rfl

/-- Settles O30: what has rd = x0 and is neither a jump nor a load ends by writing its result to x0. -/
theorem hintsOnlyAdvancePc : Obligations.HintsOnlyAdvancePc := by
  refine ⟨fun i s hdest hjal hjalr hload => ?_, by decide⟩
  cases i
  case jal rd off => exact absurd rfl (hjal rd off)
  case jalr rd rs1 imm => exact absurd rfl (hjalr rd rs1 imm)
  case lb rd rs1 imm => obtain ⟨hne, -, -, -, -⟩ := hload rd rs1 imm; exact absurd rfl hne
  case lh rd rs1 imm => obtain ⟨-, hne, -, -, -⟩ := hload rd rs1 imm; exact absurd rfl hne
  case lw rd rs1 imm => obtain ⟨-, -, hne, -, -⟩ := hload rd rs1 imm; exact absurd rfl hne
  case lbu rd rs1 imm => obtain ⟨-, -, -, hne, -⟩ := hload rd rs1 imm; exact absurd rfl hne
  case lhu rd rs1 imm => obtain ⟨-, -, -, -, hne⟩ := hload rd rs1 imm; exact absurd rfl hne
  case beq | bne | blt | bge | bltu | bgeu | sb | sh | sw | fence | ecall | ebreak => cases hdest
  all_goals
    cases hdest
    exact writeBack_zero s _

end Sys2Proof.Machine
end

section
/-! The spec's example words, and encodings told apart by funct3, or by funct3 and funct7 (R42, R81). -/

namespace Sys2Proof

/-! ### Words of the opcode table given to the decoder as bytes -/

/-- A word is put together again from its four bytes (R41 to R44). -/
theorem leWord_leBytes (v : Word) : leWord (leBytes 4 v) = v :=
  word_eq_of_bytes fun _ hi => extractLsb'_leWord_map_range (fun k => v.extractLsb' (8 * k) 8) le_rfl hi

/-- The table bits of the canonical word of a well-formed instruction are read as that instruction. -/
theorem decodeTableWord_of_eq_encode {w : Nat} {i : Instr} (hwf : i.wellFormed Config.default.regCount = true)
    (hw : BitVec.ofNat 32 (w % 2 ^ 32) = encode i) : decodeTableWord 32 w = some i := by
  have hbytes : decodeBytes Config.default.regCount Config.default.decodeMode (leBytes 4 (encode i)) = (.instr i, []) := by
    simp [decodeBytes, List.take_of_length_le, leWord_leBytes, decodeOfEncode _ _ i hwf]
  rw [decodeTableWord, hw, hbytes]

/-- Settles O12: each example is the canonical word of its instruction, and the decoder reads canonical words back. -/
theorem specExampleWordsDecode : Obligations.SpecExampleWordsDecode := by
  refine ⟨?_, ?_, ?_, ?_, ?_, ?_, ?_, ?_, ?_, ?_, ?_⟩
  all_goals exact decodeTableWord_of_eq_encode (by decide) (by decide)

/-! ### What a strict row encodes is read from the table of its major opcode -/

section
variable {m : Word} {major : Major} {f : Word → Instr}

/-- Under the mask of funct3, a row encodes what its major opcode's table answers for its funct3. -/
theorem encodesAs_of_funct3 (hm : m &&& 0x0000707F#32 = m) (hlow : m.extractLsb' 0 2 = 0b11#2) (hop : opcode62Of m = major.code)
    (hunder : ∀ w, funct3Of w = funct3Of m → decodeStrictUnder major w = some (f w)) : Machine.encodesAs m 0x0000707F#32 f := by
  intro w hw
  obtain ⟨hwlow, hwop, hf3⟩ := (masked_funct3_iff hm).mp hw
  exact decodeStrict_eq_some.mpr ⟨hwlow.trans hlow, major, hwop.trans hop, hunder w hf3⟩

/-- Under the mask of funct3 and funct7, a row encodes what its major opcode's table answers for its funct3 and funct7. -/
theorem encodesAs_of_funct7 (hm : m &&& 0xFE00707F#32 = m) (hlow : m.extractLsb' 0 2 = 0b11#2) (hop : opcode62Of m = major.code)
    (hunder : ∀ w, funct3Of w = funct3Of m → funct7Of w = funct7Of m → decodeStrictUnder major w = some (f w)) :
    Machine.encodesAs m 0xFE00707F#32 f := by
  intro w hw
  obtain ⟨hwlow, hwop, hf3, hf7⟩ := (masked_funct7_iff hm).mp hw
  exact decodeStrict_eq_some.mpr ⟨hwlow.trans hlow, major, hwop.trans hop, hunder w hf3 hf7⟩

end

end Sys2Proof
end

section
/-! Register-immediate arithmetic (R100 to R109): the shared operations as arithmetic on the readings, and the nine instructions. -/

namespace Sys2Proof.Machine

/-! ### An instruction that ends by writing a result back computes it -/

/-- A register write and the advance of pc change rd, pc and nothing else. -/
theorem computes_setReg_advance (s : State) (rd : RegNum) (v : Word) : s.computes (s.setReg rd v).advance rd v := by
  refine ⟨⟨fun hrd => ?_, rfl, fun q hq => ?_⟩, ?_, fun a => ?_, ?_, ?_⟩
  · rw [advance_reg, reg_setReg_self s rd v hrd]
  · rw [advance_reg, reg_setReg_of_ne s rd v q hq]
  · rw [advance_pc, setReg_pc]
  · rw [advance_byte, setReg_byte]
  · rw [advance_cfg, setReg_cfg]
  · rw [advance_hung, setReg_hung]

/-- An instruction that writes back `u` completes, and computes any `v` equal to `u`. -/
theorem exists_computes_of_writeBack {i : Instr} {s : State} {rd : RegNum} {u v : Word} (hexec : exec i s = s.writeBack rd u) (huv : u = v) :
    ∃ t, exec i s = .next t ∧ s.computes t rd v :=
  ⟨(s.setReg rd v).advance, by rw [hexec, huv, writeBack_eq_next], computes_setReg_advance s rd v⟩

/-! ### Comparisons and shifts as arithmetic -/

/-- Sign extension keeps the signed reading of an immediate (R73). -/
theorem toInt_immI (imm : BitVec 12) : (immI imm).toInt = imm.toInt := BitVec.toInt_signExtend_of_le (by decide)

/-- The signed comparison is that of the signed readings (R102, R127). -/
theorem setLess_eq_ite (a b : Word) : setLess a b = if a.toInt < b.toInt then 1#32 else 0#32 := by
  simp [setLess, boolWord, flagsOf]

/-- The unsigned comparison is that of the unsigned readings (R103, R128). -/
theorem setLessU_eq_ite (a b : Word) : setLessU a b = if a.toNat < b.toNat then 1#32 else 0#32 := by
  simp [setLessU, boolWord, flagsOf]

/-- A left shift multiplies by a power of two, modulo 2^32 (R107, R132). -/
theorem shiftLeft_eq_mul (v : Word) (sh : BitVec 5) : shiftLeft v sh = BitVec.ofNat 32 (v.toNat * 2 ^ sh.toNat) := by
  apply BitVec.eq_of_toNat_eq
  rw [shiftLeft, BitVec.toNat_shiftLeft, Nat.shiftLeft_eq, BitVec.toNat_ofNat]

/-- A logical right shift divides the unsigned reading by a power of two (R108, R133). -/
theorem shiftRight_eq_div (v : Word) (sh : BitVec 5) : shiftRight v sh = BitVec.ofNat 32 (v.toNat / 2 ^ sh.toNat) := by
  rw [shiftRight, ← Nat.shiftRight_eq_div_pow, ← BitVec.toNat_ushiftRight, BitVec.ofNat_toNat, BitVec.setWidth_eq]

/-- An arithmetic right shift divides the signed reading by a power of two, rounding toward minus infinity (R109, R134). -/
theorem shiftRightArith_eq_div (v : Word) (sh : BitVec 5) : shiftRightArith v sh = BitVec.ofInt 32 (v.toInt / 2 ^ sh.toNat) := by
  have hfloor : v.toInt / 2 ^ sh.toNat = (v.sshiftRight sh.toNat).toInt := by
    rw [BitVec.toInt_sshiftRight, Int.shiftRight_eq_div_pow, Nat.cast_pow, Nat.cast_ofNat]
  rw [shiftRightArith, hfloor, BitVec.ofInt_toInt]

/-! ### The instructions -/

/-- Settles O23: each writes back its result, and sign extension does not change what SLTI compares with. -/
theorem addiSltiSltiuCompute : Obligations.AddiSltiSltiuCompute := by
  refine ⟨⟨?_, fun rd rs1 imm s => ?addi⟩, ⟨?_, fun rd rs1 imm s => ?slti⟩, ⟨?_, fun rd rs1 imm s => ?sltiu⟩⟩
  case addi => exact exists_computes_of_writeBack rfl rfl
  case slti => exact exists_computes_of_writeBack rfl (by rw [setLess_eq_ite, toInt_immI])
  case sltiu => exact exists_computes_of_writeBack rfl (setLessU_eq_ite _ _)
  all_goals exact encodesAs_of_funct3 (major := .opImm) (by decide) rfl rfl fun w hf3 => by rw [decodeStrictUnder, decodeOpImmPlain, hf3]; rfl

/-- Settles O24: each writes back its bitwise result. -/
theorem andiOriXoriCompute : Obligations.AndiOriXoriCompute := by
  refine ⟨⟨?_, fun rd rs1 imm s => ?andi⟩, ⟨?_, fun rd rs1 imm s => ?ori⟩, ⟨?_, fun rd rs1 imm s => ?xori⟩⟩
  case andi | ori | xori => exact exists_computes_of_writeBack rfl rfl
  all_goals exact encodesAs_of_funct3 (major := .opImm) (by decide) rfl rfl fun w hf3 => by rw [decodeStrictUnder, decodeOpImmPlain, hf3]; rfl

/-- Settles O25: each writes back its shift, which is the product or quotient stated; a word with another inst[31:25] has no strict instruction. -/
theorem immediateShiftsCompute : Obligations.ImmediateShiftsCompute := by
  refine ⟨⟨?_, fun rd rs1 sh s => ?slli⟩, ⟨?_, fun rd rs1 sh s => ?srli⟩, ⟨?_, fun rd rs1 sh s => ?srai⟩, fun n w hm h => ?reserved⟩
  case slli => exact exists_computes_of_writeBack rfl (shiftLeft_eq_mul _ sh)
  case srli => exact exists_computes_of_writeBack rfl (shiftRight_eq_div _ sh)
  case srai => exact exists_computes_of_writeBack rfl (shiftRightArith_eq_div _ sh)
  case reserved => exact decode_strict_of_none n (decodeStrict_of_shift hm h)
  all_goals
    exact encodesAs_of_funct7 (major := .opImm) (by decide) rfl rfl fun w hf3 hf7 => by
      rw [decodeStrictUnder, decodeShiftStrict, hf3, hf7]; rfl

end Sys2Proof.Machine
end

section
/-! Loads (R110 to R115): the little-endian word of a few bytes as their concatenation, which accesses take two bus operations, and the five instructions. -/

namespace Sys2Proof

/-! ### The bytes read, put side by side -/

/-- The low bits of a little-endian word: its first byte, below the low bits of the word of the rest. -/
theorem setWidth_leWord_cons (b : Byte) (bs : List Byte) {k : Nat} (hk : k ≤ 24) :
    (leWord (b :: bs)).setWidth (k + 8) = (leWord bs).setWidth k ++ b := by
  apply BitVec.eq_of_getLsbD_eq
  intro j hj
  have hj32 : j < 32 := by omega
  rw [leWord, BitVec.getLsbD_append, BitVec.getLsbD_setWidth, BitVec.getLsbD_or, BitVec.getLsbD_shiftLeft, BitVec.getLsbD_setWidth,
    BitVec.getLsbD_setWidth]
  rcases Nat.lt_or_ge j 8 with hlow | hhigh
  · simp [hlow, hj, hj32]
  · have hrest : j - 8 < k := by omega
    simp [hhigh, hj, hj32, hrest, Nat.not_lt.mpr hhigh]

/-- The low byte of the word of one byte. -/
theorem low8_leWord (b : Byte) : (leWord [b]).extractLsb' 0 8 = b := by
  rw [← BitVec.setWidth_eq_extractLsb' (by decide), setWidth_leWord_cons b [] (Nat.zero_le 24)]
  exact BitVec.zero_width_append _ _

/-- The low half of the word of two bytes. -/
theorem low16_leWord (lo hi : Byte) : (leWord [lo, hi]).extractLsb' 0 16 = hi ++ lo := by
  rw [← BitVec.setWidth_eq_extractLsb' (by decide), setWidth_leWord_cons lo [hi] (show 8 ≤ 24 by decide),
    BitVec.setWidth_eq_extractLsb' (by decide), low8_leWord]

/-- The word of four bytes. -/
theorem leWord_four (b0 b1 b2 b3 : Byte) : leWord [b0, b1, b2, b3] = b3 ++ b2 ++ b1 ++ b0 := by
  calc leWord [b0, b1, b2, b3]
      = (leWord [b0, b1, b2, b3]).setWidth (24 + 8) := (BitVec.setWidth_eq _).symm
    _ = (leWord [b1, b2, b3]).setWidth (16 + 8) ++ b0 := setWidth_leWord_cons _ _ le_rfl
    _ = ((leWord [b2, b3]).setWidth 16 ++ b1) ++ b0 := by rw [setWidth_leWord_cons b1 [b2, b3] (by decide)]
    _ = ((b3 ++ b2) ++ b1) ++ b0 := by rw [BitVec.setWidth_eq_extractLsb' (by decide), low16_leWord]

end Sys2Proof

namespace Sys2Proof.Machine

/-! ### The addresses of an access of 1, 2 and 4 bytes -/

theorem accessAddrs_one (a : Word) : accessAddrs a 1 = [a] := by
  simp [accessAddrs]

theorem accessAddrs_two (a : Word) : accessAddrs a 2 = [a, a + 1#32] := by
  simp [accessAddrs, List.range_succ]

theorem accessAddrs_four (a : Word) : accessAddrs a 4 = [a, a + 1#32, a + 2#32, a + 3#32] := by
  simp [accessAddrs, List.range_succ]

/-! ### When the first bus operation leaves bytes to a second (R46) -/

/-- Two bytes cross into the next aligned word exactly from its last byte. -/
theorem firstOpBytes_two_lt_iff (a : Word) : firstOpBytes a 2 < 2 ↔ alignmentOf a = 0b11#2 := by
  have hcases : ∀ al : BitVec 2, min 2 (4 - al.toNat) < 2 ↔ al = 0b11#2 := by decide
  rw [firstOpBytes_eq, hcases]

/-- Four bytes cross into the next aligned word from everywhere but its first byte. -/
theorem firstOpBytes_four_lt_iff (a : Word) : firstOpBytes a 4 < 4 ↔ alignmentOf a ≠ 0b00#2 := by
  have hcases : ∀ al : BitVec 2, min 4 (4 - al.toNat) < 4 ↔ al ≠ 0b00#2 := by decide
  rw [firstOpBytes_eq, hcases]

/-! ### The course of a load from memory (R110) -/

section
variable {i : Instr} {s : State} {rd rs1 : RegNum} {imm : BitVec 12} {n : Nat} {extend : Word → Word}

/-- A load that memory answers writes back the extension of the little-endian word of its bytes: the converse of `load_eq_next`. -/
theorem load_of_memory (rd : RegNum) (extend : Word → Word) (hmem : s.answersMemory (s.effAddr rs1 (immI imm)) n) :
    s.load rd rs1 imm n extend = s.writeBack rd (extend (leWord ((accessAddrs (s.effAddr rs1 (immI imm)) n).map s.byte))) := by
  rw [State.load, memRead_of_memory hmem, toResult_ok]

/-- A load instruction that memory answers completes, and computes any `v` its bytes extend to. -/
theorem exists_computes_of_load {v : Word} (hexec : exec i s = s.load rd rs1 imm n extend)
    (hmem : s.answersMemory (s.effAddr rs1 (immI imm)) n)
    (hv : extend (leWord ((accessAddrs (s.effAddr rs1 (immI imm)) n).map s.byte)) = v) :
    ∃ t, exec i s = .next t ∧ s.computes t rd v :=
  exists_computes_of_writeBack (hexec.trans (load_of_memory rd extend hmem)) hv

end

/-! ### The extensions of what is read (R111 to R115) -/

section
variable (s : State) (a : Word)

theorem sext8_read : sext8 (leWord ((accessAddrs a 1).map s.byte)) = (s.byte a).signExtend 32 := by
  rw [accessAddrs_one, List.map_singleton, sext8, low8_leWord]

theorem zext8_read : zext8 (leWord ((accessAddrs a 1).map s.byte)) = (s.byte a).setWidth 32 := by
  rw [accessAddrs_one, List.map_singleton, zext8, low8_leWord]

/-- The low half of what a read of two bytes answers. -/
theorem low16_read : (leWord ((accessAddrs a 2).map s.byte)).extractLsb' 0 16 = s.byte (a + 1#32) ++ s.byte a := by
  rw [accessAddrs_two]
  exact low16_leWord _ _

theorem sext16_read : sext16 (leWord ((accessAddrs a 2).map s.byte)) = (s.byte (a + 1#32) ++ s.byte a).signExtend 32 := by
  rw [sext16, low16_read]

theorem zext16_read : zext16 (leWord ((accessAddrs a 2).map s.byte)) = (s.byte (a + 1#32) ++ s.byte a).setWidth 32 := by
  rw [zext16, low16_read]

theorem word_read :
    leWord ((accessAddrs a 4).map s.byte) = s.byte (a + 3#32) ++ s.byte (a + 2#32) ++ s.byte (a + 1#32) ++ s.byte a := by
  rw [accessAddrs_four]
  exact leWord_four _ _ _ _

end

/-! ### The instructions -/

/-- Settles O31: a load of one byte that memory answers, with each extension. -/
theorem byteLoadsCompute : Obligations.ByteLoadsCompute := by
  refine ⟨⟨?_, fun rd rs1 imm s hmem => ?lb⟩, ⟨?_, fun rd rs1 imm s hmem => ?lbu⟩⟩
  case lb => exact exists_computes_of_load rfl hmem (sext8_read s _)
  case lbu => exact exists_computes_of_load rfl hmem (zext8_read s _)
  all_goals exact encodesAs_of_funct3 (major := .load) (by decide) rfl rfl fun w hf3 => by rw [decodeStrictUnder, decodeLoad, hf3]; rfl

/-- Settles O32: a load of two bytes that memory answers, with each extension; only from the last byte of a word do they cross into the next. -/
theorem halfLoadsCompute : Obligations.HalfLoadsCompute := by
  refine ⟨⟨?_, fun rd rs1 imm s hmem => ?lh⟩, ⟨?_, fun rd rs1 imm s hmem => ?lhu⟩, firstOpBytes_two_lt_iff⟩
  case lh => exact exists_computes_of_load rfl hmem (sext16_read s _)
  case lhu => exact exists_computes_of_load rfl hmem (zext16_read s _)
  all_goals exact encodesAs_of_funct3 (major := .load) (by decide) rfl rfl fun w hf3 => by rw [decodeStrictUnder, decodeLoad, hf3]; rfl

/-- Settles O33: a load of four bytes that memory answers, with no extension; from every byte but the first they cross into the next word. -/
theorem wordLoadComputes : Obligations.WordLoadComputes := by
  refine ⟨firstOpBytes_four_lt_iff, ?_, fun rd rs1 imm s hmem => ?lw⟩
  case lw => exact exists_computes_of_load rfl hmem (word_read s _)
  exact encodesAs_of_funct3 (major := .load) (by decide) rfl rfl fun w hf3 => by rw [decodeStrictUnder, decodeLoad, hf3]; rfl

end Sys2Proof.Machine
end

section
/-! Upper-immediate instructions (R120 to R122): encodings told apart by the opcode alone, the U-immediate as a product, and the two instructions. -/

namespace Sys2Proof

/-- Under the mask of the opcode, a row encodes what the table of its major opcode answers for every word. -/
theorem encodesAs_of_opcode {m : Word} {major : Major} {f : Word → Instr} (hm : m &&& 0x0000007F#32 = m) (hlow : m.extractLsb' 0 2 = 0b11#2)
    (hop : opcode62Of m = major.code) (hunder : ∀ w, decodeStrictUnder major w = some (f w)) : Machine.encodesAs m 0x0000007F#32 f := by
  intro w hw
  obtain ⟨hwlow, hwop⟩ := (masked_opcode_iff hm).mp hw
  exact decodeStrict_eq_some.mpr ⟨hwlow.trans hlow, major, hwop.trans hop, hunder w⟩

end Sys2Proof

namespace Sys2Proof.Machine

/-- The U-immediate is the 20-bit field times 2^12 (R76). -/
theorem immU_eq_mul (imm20 : BitVec 20) : immU imm20 = BitVec.ofNat 32 (imm20.toNat * 2 ^ 12) := by
  have hfits : imm20.toNat * 2 ^ 12 < 2 ^ 32 := by omega
  apply BitVec.eq_of_toNat_eq
  rw [immU, BitVec.toNat_append, BitVec.toNat_ofNat, BitVec.toNat_ofNat, Nat.zero_mod, Nat.or_zero, Nat.shiftLeft_eq, Nat.mod_eq_of_lt hfits]

/-- Settles O29: LUI writes back the U-immediate, AUIPC its sum with the pc the instruction starts from. -/
theorem luiAuipcCompute : Obligations.LuiAuipcCompute := by
  refine ⟨⟨?_, fun rd imm20 s => ?lui⟩, ⟨?_, fun rd imm20 s => ?auipc⟩⟩
  case lui => exact exists_computes_of_writeBack rfl (immU_eq_mul imm20)
  case auipc => exact exists_computes_of_writeBack rfl (congrArg (s.pc + ·) (immU_eq_mul imm20))
  · exact encodesAs_of_opcode (major := .lui) (by decide) rfl rfl fun _ => rfl
  · exact encodesAs_of_opcode (major := .auipc) (by decide) rfl rfl fun _ => rfl

end Sys2Proof.Machine
end

section
/-! Register-register arithmetic (R125 to R135): difference on the signed readings, the shift amount, and the ten instructions. -/

namespace Sys2Proof.Machine

/-- A difference of words is that of their signed readings, modulo 2^32 (R135). -/
theorem sub_eq_ofInt (a b : Word) : a - b = BitVec.ofInt 32 (a.toInt - b.toInt) := by
  rw [← BitVec.toInt_inj, BitVec.toInt_sub, BitVec.toInt_ofInt]

/-- The amount of a register shift is its word modulo 32 (R132 to R134). -/
theorem toNat_shamtOf (w : Word) : (shamtOf w).toNat = w.toNat % 32 := by
  rw [shamtOf, BitVec.extractLsb'_toNat, Nat.shiftRight_zero]

/-! ### The instructions -/

/-- Settles O26: each writes back its result, and sum and difference are those of the readings. -/
theorem addSubLogicCompute : Obligations.AddSubLogicCompute := by
  refine ⟨⟨?_, fun rd rs1 rs2 s => ?add⟩, ⟨?_, fun rd rs1 rs2 s => ?sub⟩, ⟨?_, fun rd rs1 rs2 s => ?and⟩, ⟨?_, fun rd rs1 rs2 s => ?or⟩,
    ⟨?_, fun rd rs1 rs2 s => ?xor⟩⟩
  case add => exact exists_computes_of_writeBack rfl (BitVec.add_def _ _)
  case sub => exact exists_computes_of_writeBack rfl (sub_eq_ofInt _ _)
  case and | or | xor => exact exists_computes_of_writeBack rfl rfl
  all_goals exact encodesAs_of_funct7 (major := .op) (by decide) rfl rfl fun w hf3 hf7 => by rw [decodeStrictUnder, decodeOpStrict, hf3, hf7]; rfl

/-- Settles O27: each writes back its comparison, which is that of the readings. -/
theorem sltSltuCompute : Obligations.SltSltuCompute := by
  refine ⟨⟨?_, fun rd rs1 rs2 s => ?slt⟩, ⟨?_, fun rd rs1 rs2 s => ?sltu⟩⟩
  case slt => exact exists_computes_of_writeBack rfl (setLess_eq_ite _ _)
  case sltu => exact exists_computes_of_writeBack rfl (setLessU_eq_ite _ _)
  all_goals exact encodesAs_of_funct7 (major := .op) (by decide) rfl rfl fun w hf3 hf7 => by rw [decodeStrictUnder, decodeOpStrict, hf3, hf7]; rfl

/-- Settles O28: each writes back its shift by the low five bits of `x[rs2]`, which is the product or quotient stated. -/
theorem registerShiftsCompute : Obligations.RegisterShiftsCompute := by
  refine ⟨⟨?_, fun rd rs1 rs2 s => ?sll⟩, ⟨?_, fun rd rs1 rs2 s => ?srl⟩, ⟨?_, fun rd rs1 rs2 s => ?sra⟩⟩
  case sll => exact exists_computes_of_writeBack rfl (by rw [shiftLeft_eq_mul, toNat_shamtOf])
  case srl => exact exists_computes_of_writeBack rfl (by rw [shiftRight_eq_div, toNat_shamtOf])
  case sra => exact exists_computes_of_writeBack rfl (by rw [shiftRightArith_eq_div, toNat_shamtOf])
  all_goals exact encodesAs_of_funct7 (major := .op) (by decide) rfl rfl fun w hf3 hf7 => by rw [decodeStrictUnder, decodeOpStrict, hf3, hf7]; rfl

end Sys2Proof.Machine
end

section
/-! Unconditional jumps (R140 to R142): how a transfer of control ends (R48), which targets JALR may reach, and the two instructions. -/

namespace Sys2Proof.Machine

/-! ### A transfer of control -/

section
variable {s t : State} {target : Word}

/-- A transfer to a target it may reach completes there, after the writes that made `t`. -/
theorem transfer_of_mayReach (h : s.mayReach target) : s.transfer target t = .next (t.setPc target) :=
  if_neg fun ⟨htrap, hne⟩ => hne (h htrap)

/-- A transfer to a target it may not reach raises at the instruction's own pc, with none of the writes that made `t`. -/
theorem transfer_of_not_mayReach (h : ¬ s.mayReach target) :
    s.transfer target t = .fault (.trap (.instructionAddressMisaligned target) s.pc) := by
  obtain ⟨htrap, hne⟩ := Classical.not_imp.mp h
  rw [State.transfer, if_pos ⟨htrap, hne⟩, raise_eq_fault]

/-- An instruction that links `v` in rd and transfers to a target it may reach changes rd, pc and nothing else. -/
theorem exists_next_of_jump {i : Instr} {rd : RegNum} {v : Word} (hexec : exec i s = s.transfer target (s.setReg rd v))
    (hreach : s.mayReach target) :
    ∃ t, exec i s = .next t ∧ s.onlyReg t rd v ∧ t.pc = target ∧ s.sameMemory t ∧ s.sameMachine t := by
  obtain ⟨hreg, -, hmem, hmachine⟩ := computes_setReg_advance s rd v
  exact ⟨(s.setReg rd v).setPc target, by rw [hexec, transfer_of_mayReach hreach], hreg, rfl, hmem, hmachine⟩

end

/-! ### The target of JALR -/

/-- With bit 0 cleared, a word is a multiple of 4 exactly when its bit 1 is clear. -/
theorem clearBit0_aligned_iff (a : Word) : (a &&& 0xFFFFFFFE#32).extractLsb' 0 2 = 0#2 ↔ a.getLsbD 1 = false := by
  refine ⟨fun h => by simpa using congrArg (BitVec.getLsbD · 1) h, fun h => ?_⟩
  ext k hk
  obtain rfl | rfl : k = 0 ∨ k = 1 := by omega
  · simp
  · simpa using h

/-- JALR may reach its target unless bit 1 of the sum is set under FETCH_MISALIGNED = trap (R141). -/
theorem mayReach_clearBit0_iff {s : State} {a : Word} :
    s.mayReach (a &&& 0xFFFFFFFE#32) ↔ (s.cfg.fetchMisaligned = .trap → a.getLsbD 1 = false) :=
  imp_congr_right fun _ => clearBit0_aligned_iff a

/-! ### The instructions -/

/-- Settles O35: JAL is a transfer to pc + immJ after its link is written. -/
theorem jalJumpsAndLinks : Obligations.JalJumpsAndLinks := by
  refine ⟨encodesAs_of_opcode (major := .jal) (by decide) rfl rfl fun _ => rfl, fun rd off s => ⟨fun hreach => ?_, fun hnot => ?_⟩⟩
  · exact exists_next_of_jump rfl hreach
  · exact transfer_of_not_mayReach hnot

/-- Settles O36: JALR is a transfer to the sum with bit 0 cleared, which `mayReach_clearBit0_iff` says when it may reach. -/
theorem jalrJumpsAndLinks : Obligations.JalrJumpsAndLinks := by
  refine ⟨?encoding, fun n w hm hf3 => ?reserved, fun rd rs1 imm s => ⟨fun hclear => ?jumps, fun htrap hset => ?raises⟩⟩
  case encoding => exact encodesAs_of_funct3 (major := .jalr) (by decide) rfl rfl fun w hf3 => if_pos hf3
  case reserved => exact decode_strict_of_none n (decodeStrict_of_funct3 hm (by decide) hf3)
  case jumps => exact exists_next_of_jump rfl (mayReach_clearBit0_iff.mpr hclear)
  case raises =>
    refine transfer_of_not_mayReach fun hreach => ?_
    have hclear := mayReach_clearBit0_iff.mp hreach htrap
    exact Bool.false_ne_true (hclear.symm.trans hset)

end Sys2Proof.Machine
end

section
/-! Conditional branches (R145 to R152): the flags as comparisons of the readings, the course of a branch, and the six instructions. -/

namespace Sys2Proof.Machine

/-! ### The flags a branch is decided by (R152) -/

section
variable (a b : Word)

/-- Z says that the operands are equal. -/
theorem flagsOf_z_iff : (flagsOf a b).z = true ↔ a = b :=
  decide_eq_true_iff

/-- N compares the signed readings. -/
theorem flagsOf_n_iff : (flagsOf a b).n = true ↔ a.toInt < b.toInt :=
  decide_eq_true_iff

/-- C compares the unsigned readings. -/
theorem flagsOf_c_iff : (flagsOf a b).c = true ↔ a.toNat < b.toNat :=
  decide_eq_true_iff

/-- The complement of Z, by which BNE is decided. -/
theorem not_flagsOf_z_iff : (!(flagsOf a b).z) = true ↔ a ≠ b :=
  Bool.not_iff_not.trans (not_congr (flagsOf_z_iff a b))

/-- The complement of N, by which BGE is decided. -/
theorem not_flagsOf_n_iff : (!(flagsOf a b).n) = true ↔ b.toInt ≤ a.toInt :=
  (Bool.not_iff_not.trans (not_congr (flagsOf_n_iff a b))).trans Int.not_lt

/-- The complement of C, by which BGEU is decided. -/
theorem not_flagsOf_c_iff : (!(flagsOf a b).c) = true ↔ b.toNat ≤ a.toNat :=
  (Bool.not_iff_not.trans (not_congr (flagsOf_c_iff a b))).trans Nat.not_lt

end

/-! ### The course of a branch (R145) -/

/-- Setting pc changes nothing but pc. -/
theorem onlyPc_setPc (s : State) (target : Word) : s.onlyPc (s.setPc target) target :=
  ⟨fun _ => rfl, rfl, fun _ => rfl, rfl, rfl⟩

/-- A branch decided by a flag that says `cond` takes the course of R145 on `cond`: it advances, or transfers control with nothing written before. -/
theorem branchesOn_of_branch {s : State} {i : Instr} {taken : Bool} {cond : Prop} {off : BitVec 13} (htaken : taken = true ↔ cond)
    (hexec : exec i s = s.branch taken off) : s.branchesOn i cond off := by
  have htransfer (hcond : cond) : exec i s = s.transfer (s.pc + off.signExtend 32) s := by
    rw [hexec, State.branch, if_pos (htaken.mpr hcond), immB]
  refine ⟨fun hnot => ?falls, fun hcond hreach => ?reaches, fun hcond hbar => ?raises⟩
  case falls => exact ⟨s.advance, by rw [hexec, State.branch, if_neg (mt htaken.mp hnot)], onlyPc_setPc s _⟩
  case reaches => exact ⟨_, (htransfer hcond).trans (transfer_of_mayReach hreach), onlyPc_setPc s _⟩
  case raises => exact (htransfer hcond).trans (transfer_of_not_mayReach hbar)

/-! ### The instructions -/

/-- Settles O37: branches on Z and on its complement. -/
theorem beqBneBranch : Obligations.BeqBneBranch := by
  refine ⟨⟨?_, fun rs1 rs2 off s => ?beq⟩, ⟨?_, fun rs1 rs2 off s => ?bne⟩⟩
  case beq => exact branchesOn_of_branch (flagsOf_z_iff _ _) rfl
  case bne => exact branchesOn_of_branch (not_flagsOf_z_iff _ _) rfl
  all_goals exact encodesAs_of_funct3 (major := .branch) (by decide) rfl rfl fun w hf3 => by rw [decodeStrictUnder, decodeBranch, hf3]; rfl

/-- Settles O38: branches on N and on its complement. -/
theorem bltBgeBranch : Obligations.BltBgeBranch := by
  refine ⟨⟨?_, fun rs1 rs2 off s => ?blt⟩, ⟨?_, fun rs1 rs2 off s => ?bge⟩⟩
  case blt => exact branchesOn_of_branch (flagsOf_n_iff _ _) rfl
  case bge => exact branchesOn_of_branch (not_flagsOf_n_iff _ _) rfl
  all_goals exact encodesAs_of_funct3 (major := .branch) (by decide) rfl rfl fun w hf3 => by rw [decodeStrictUnder, decodeBranch, hf3]; rfl

/-- Settles O39: branches on C and on its complement. -/
theorem bltuBgeuBranch : Obligations.BltuBgeuBranch := by
  refine ⟨⟨?_, fun rs1 rs2 off s => ?bltu⟩, ⟨?_, fun rs1 rs2 off s => ?bgeu⟩⟩
  case bltu => exact branchesOn_of_branch (flagsOf_c_iff _ _) rfl
  case bgeu => exact branchesOn_of_branch (not_flagsOf_c_iff _ _) rfl
  all_goals exact encodesAs_of_funct3 (major := .branch) (by decide) rfl rfl fun w hf3 => by rw [decodeStrictUnder, decodeBranch, hf3]; rfl

end Sys2Proof.Machine
end

section
/-! Stores (R155 to R158): the course of a store to memory, and the three instructions. -/

namespace Sys2Proof.Machine

/-! ### The course of a store to memory (R155) -/

section
variable {i : Instr} {s : State} {rs2 rs1 : RegNum} {imm : BitVec 12} {n : Nat}

/-- A store that memory answers writes its bytes and advances pc: the converse of `store_eq_next`. -/
theorem store_of_memory (rs2 : RegNum) (hmem : s.answersMemory (s.effAddr rs1 (immS imm)) n) :
    s.store rs2 rs1 imm n = .next (s.written (s.effAddr rs1 (immS imm)) n (s.reg rs2)).advance := by
  rw [State.store, memWrite_of_memory _ hmem, toResult_ok, State.written]

/-- Writing an access and advancing pc change the bytes of the access, pc and nothing else. -/
theorem stores_written_advance (s : State) (a : Word) (v : Word) (hn : n ≤ 4) : s.stores (s.written a n v).advance a n v := by
  refine ⟨fun hwf i hi => ?written, fun b hb => ?others, fun _ => rfl, rfl, rfl, rfl⟩
  case written => rw [advance_byte, byte_written_of_lt hn hwf hi]
  case others => rw [advance_byte, byte_written_of_ne hb]

/-- A store instruction that memory answers completes, and stores its bytes. -/
theorem exists_stores_of_store (hexec : exec i s = s.store rs2 rs1 imm n) (hn : n ≤ 4)
    (hmem : s.answersMemory (s.effAddr rs1 (immS imm)) n) :
    ∃ t, exec i s = .next t ∧ s.stores t (s.effAddr rs1 (immS imm)) n (s.reg rs2) :=
  ⟨_, hexec.trans (store_of_memory rs2 hmem), stores_written_advance s _ _ hn⟩

end

/-! ### The instructions -/

/-- Settles O34: a store of one, two or four bytes that memory answers; which of them take two operations is known from the loads (O32, O33), and the
strobes are the rows of R46 that the statement lists. -/
theorem storesWriteExactlyTheirBytes : Obligations.StoresWriteExactlyTheirBytes := by
  refine ⟨⟨?_, fun rs2 rs1 imm s hmem => ?sb⟩, ⟨?_, fun rs2 rs1 imm s hmem => ?sh⟩, ⟨?_, fun rs2 rs1 imm s hmem => ?sw⟩,
    fun s rs1 imm => ?address, fun a => ⟨firstOpBytes_two_lt_iff a, firstOpBytes_four_lt_iff a⟩, ?strobesSh, ?strobesSw⟩
  case sb | sh | sw => exact exists_stores_of_store rfl (by decide) hmem
  case address => rw [State.effAddr, immS]
  case strobesSh | strobesSw => decide
  all_goals exact encodesAs_of_funct3 (major := .store) (by decide) rfl rfl fun w hf3 => by rw [decodeStrictUnder, decodeStore, hf3]; rfl

end Sys2Proof.Machine
end

section
/-! FENCE, ECALL and EBREAK (R160 to R162). -/

namespace Sys2Proof.Machine

/-- A row that fixes every bit of the word encodes what that word decodes to. -/
theorem encodesAs_of_word {m : Word} {i : Instr} (h : decodeStrict m = some i) : encodesAs m 0xFFFFFFFF#32 fun _ => i := by
  intro w hw
  obtain rfl : w = m := (BitVec.and_allOnes (x := w)).symm.trans hw
  exact h

/-- Settles O40: under MISC-MEM funct3 000 is FENCE with the fields of the word, and FENCE is `State.advance`. -/
theorem fenceOnlyAdvancesPc : Obligations.FenceOnlyAdvancesPc :=
  ⟨encodesAs_of_funct3 (major := .miscMem) (by decide) rfl rfl fun _ hf3 => if_pos hf3, fun _ _ _ _ _ _ => rfl⟩

/-- Settles O41: each is one word, and raises in every state. -/
theorem ecallEbreakRaise : Obligations.EcallEbreakRaise :=
  ⟨⟨encodesAs_of_word rfl, fun s => raise_eq_fault s _⟩, ⟨encodesAs_of_word rfl, fun s => raise_eq_fault s _⟩⟩

end Sys2Proof.Machine
end

section
/-! How a step stops (R231, R234, R247): the inversion of `exec` for faults, and what follows from it. -/

namespace Sys2Proof.Machine

/-! ### A request that is not answered hangs the hart -/

section
variable {α β : Type} {s left : State}

/-- A request that got stuck did so in one of its parts. -/
theorem bind_eq_stuck {r : Reply α} {k : α → Reply β} (h : r.bind k = .stuck left) :
    r = .stuck left ∨ ∃ u, r = .ok u ∧ k u = .stuck left := by
  cases r with
  | ok u => exact .inr ⟨u, rfl, h⟩
  | stuck l => exact .inl (congrArg Reply.stuck (Reply.stuck.inj h))
  | device a => cases h

theorem busRead_eq_stuck {as : List Word} (h : s.busRead as = .stuck left) : left = s.hang := by
  unfold State.busRead at h
  split at h <;> cases h
  rfl

theorem busWrite_eq_stuck {cells : List (Word × Byte)} (h : s.busWrite cells = .stuck left) : left = s.hang := by
  unfold State.busWrite at h
  split at h <;> cases h
  rfl

/-- A read that got stuck has hung the hart. -/
theorem hung_of_memRead_stuck {a : Word} {n : Nat} (h : s.memRead a n = .stuck left) : left.hung = true := by
  rcases bind_eq_stuck h with hlo | ⟨lo, -, hrest⟩
  · rw [busRead_eq_stuck hlo, hang_hung]
  · rcases bind_eq_stuck hrest with hhi | ⟨hi, -, hok⟩
    · rw [busRead_eq_stuck hhi, hang_hung]
    · cases hok

/-- A write that got stuck has hung the hart. -/
theorem hung_of_memWrite_stuck {a v : Word} {n : Nat} (h : s.memWrite a n v = .stuck left) : left.hung = true := by
  rcases bind_eq_stuck h with hfirst | ⟨t, -, hsecond⟩
  · rw [busWrite_eq_stuck hfirst, hang_hung]
  · rw [busWrite_eq_stuck hsecond, hang_hung]

/-- An instruction that faulted either had its request stuck or went on and faulted then. -/
theorem toResult_eq_fault {r : Reply α} {k : α → Result} {f : Fault} (h : r.toResult k = .fault f) :
    (∃ l, r = .stuck l ∧ f = .stuck l) ∨ ∃ u, r = .ok u ∧ k u = .fault f := by
  cases r with
  | ok u => exact .inr ⟨u, rfl, h⟩
  | stuck l => exact .inl ⟨l, rfl, (Host.Outcome.fault.inj h).symm⟩
  | device a => cases h

end

/-! ### The faults of an instruction -/

section
variable {i : Instr} {s : State} {f : Fault}

/-- Instruction `i` has stopped from `s` in one of four ways: as ECALL, as EBREAK, at a target it may not reach, or in a request that hung the hart. -/
inductive Stop (i : Instr) (s : State) : Fault → Prop where
  | ecall (hi : i = .ecall) : Stop i s (.trap .environmentCall s.pc)
  | ebreak (hi : i = .ebreak) : Stop i s (.trap (.breakpoint s.pc) s.pc)
  | misaligned (target : Word) (hgo : goesTo s i target) (hbar : ¬ s.mayReach target) :
      Stop i s (.trap (.instructionAddressMisaligned target) s.pc)
  | hangs (left : State) (hhung : left.hung = true) : Stop i s (.stuck left)

theorem stop_of_transfer {t : State} {target : Word} (hgo : goesTo s i target) (h : s.transfer target t = .fault f) : Stop i s f := by
  obtain ⟨rfl, htrap, hne⟩ := transfer_eq_fault h
  exact .misaligned target hgo fun hreach => hne (hreach htrap)

theorem stop_of_branch {taken : Bool} {off : BitVec 13} (hgo : taken = true → goesTo s i (s.pc + immB off))
    (h : s.branch taken off = .fault f) : Stop i s f := by
  cases taken with
  | false => cases h
  | true => exact stop_of_transfer (hgo rfl) h

theorem stop_of_load {rd rs1 : RegNum} {imm : BitVec 12} {n : Nat} {ext : Word → Word} (h : s.load rd rs1 imm n ext = .fault f) :
    Stop i s f := by
  rcases toResult_eq_fault h with ⟨l, hl, rfl⟩ | ⟨v, -, hnext⟩
  · exact .hangs l (hung_of_memRead_stuck hl)
  · cases hnext

theorem stop_of_store {rs2 rs1 : RegNum} {imm : BitVec 12} {n : Nat} (h : s.store rs2 rs1 imm n = .fault f) : Stop i s f := by
  rcases toResult_eq_fault h with ⟨l, hl, rfl⟩ | ⟨v, -, hnext⟩
  · exact .hangs l (hung_of_memWrite_stuck hl)
  · cases hnext

/-- The inversion of `exec` for faults: an instruction that faulted stopped in one of the four ways. -/
theorem exec_stop (h : exec i s = .fault f) : Stop i s f := by
  cases i
  case jal | jalr => exact stop_of_transfer rfl h
  case beq => exact stop_of_branch (fun hz => ⟨(flagsOf_z_iff _ _).mp hz, rfl⟩) h
  case bne => exact stop_of_branch (fun hz => ⟨(not_flagsOf_z_iff _ _).mp hz, rfl⟩) h
  case blt => exact stop_of_branch (fun hn => ⟨(flagsOf_n_iff _ _).mp hn, rfl⟩) h
  case bge => exact stop_of_branch (fun hn => ⟨(not_flagsOf_n_iff _ _).mp hn, rfl⟩) h
  case bltu => exact stop_of_branch (fun hc => ⟨(flagsOf_c_iff _ _).mp hc, rfl⟩) h
  case bgeu => exact stop_of_branch (fun hc => ⟨(not_flagsOf_c_iff _ _).mp hc, rfl⟩) h
  case lb | lh | lw | lbu | lhu => exact stop_of_load h
  case sb | sh | sw => exact stop_of_store h
  case ecall => cases h; exact .ecall rfl
  case ebreak => cases h; exact .ebreak rfl
  all_goals cases h

/-- A branch that goes to a target it may not reach raises. -/
theorem raises_of_branchesOn {cond : Prop} {off : BitVec 13} {target : Word} (h : s.branchesOn i cond off)
    (hgo : cond ∧ target = s.pc + off.signExtend 32) (hbar : ¬ s.mayReach target) :
    exec i s = .fault (.trap (.instructionAddressMisaligned target) s.pc) := by
  obtain ⟨hcond, rfl⟩ := hgo
  obtain ⟨-, -, hraises⟩ := h
  exact hraises hcond hbar

/-- An instruction whose target it may not reach raises, whatever else it would have done. -/
theorem exec_of_not_mayReach {target : Word} (hgo : goesTo s i target) (hbar : ¬ s.mayReach target) :
    exec i s = .fault (.trap (.instructionAddressMisaligned target) s.pc) := by
  cases i
  case jal | jalr => cases hgo; exact transfer_of_not_mayReach hbar
  case beq => exact raises_of_branchesOn (branchesOn_of_branch (flagsOf_z_iff _ _) rfl) hgo hbar
  case bne => exact raises_of_branchesOn (branchesOn_of_branch (not_flagsOf_z_iff _ _) rfl) hgo hbar
  case blt => exact raises_of_branchesOn (branchesOn_of_branch (flagsOf_n_iff _ _) rfl) hgo hbar
  case bge => exact raises_of_branchesOn (branchesOn_of_branch (not_flagsOf_n_iff _ _) rfl) hgo hbar
  case bltu => exact raises_of_branchesOn (branchesOn_of_branch (flagsOf_c_iff _ _) rfl) hgo hbar
  case bgeu => exact raises_of_branchesOn (branchesOn_of_branch (not_flagsOf_c_iff _ _) rfl) hgo hbar
  all_goals exact hgo.elim

/-! ### The faults of a step -/

variable {w : Word}

/-- A word that faulted was illegal or is an instruction that faulted. -/
theorem run_eq_fault (h : s.run w = .fault f) :
    (decode s.cfg.regCount s.cfg.decodeMode w = .illegal ∧ f = .trap (.illegalInstruction w) s.pc) ∨
      ∃ i, decode s.cfg.regCount s.cfg.decodeMode w = .instr i ∧ exec i s = .fault f := by
  unfold State.run at h
  split at h
  · next i hi => exact .inr ⟨i, hi, h⟩
  · next hillegal => exact .inl ⟨hillegal, (Host.Outcome.fault.inj h).symm⟩
  · cases h

/-- A hart that faulted was hanging, or hangs in its fetch, or faulted with the word fetched. -/
theorem step_eq_fault (h : step s = .fault f) :
    (s.hung = true ∧ f = .stuck s) ∨
      s.hung = false ∧ ((∃ left, s.fetch = .stuck left ∧ f = .stuck left) ∨ ∃ w, s.fetch = .ok w ∧ s.run w = .fault f) := by
  unfold step at h
  split at h
  · next hhung => exact .inl ⟨hhung, (Host.Outcome.fault.inj h).symm⟩
  · next hhung => exact .inr ⟨Bool.eq_false_iff.mpr hhung, toResult_eq_fault h⟩

/-- A hart that hangs is stuck where it is (R247). -/
theorem step_of_hung (h : s.hung = true) : step s = .fault (.stuck s) := if_pos h

/-- Whatever got stuck, the hart hangs in the state it is left in. -/
theorem hung_of_step_stuck {left : State} (h : step s = .fault (.stuck left)) : left.hung = true := by
  rcases step_eq_fault h with ⟨hhung, hf⟩ | ⟨-, ⟨l, hl, hf⟩ | ⟨w, -, hrun⟩⟩
  · cases hf; exact hhung
  · cases hf; exact hung_of_memRead_stuck hl
  · rcases run_eq_fault hrun with ⟨-, hf⟩ | ⟨i, -, hexec⟩
    · cases hf
    · cases exec_stop hexec; assumption

/-- The row of R231 that an instruction raises, where it raises. -/
def raisesRow (s : State) (i : Instr) (e : Exception) : Prop :=
  (i = .ecall ∧ e = .environmentCall) ∨ (i = .ebreak ∧ e = .breakpoint s.pc) ∨
    ∃ target, goesTo s i target ∧ ¬ s.mayReach target ∧ e = .instructionAddressMisaligned target

/-- An instruction traps exactly by its row, at its own pc. -/
theorem exec_eq_trap_iff {e : Exception} {p : Word} : exec i s = .fault (.trap e p) ↔ p = s.pc ∧ raisesRow s i e := by
  constructor
  · intro h
    cases exec_stop h with
    | ecall hi => exact ⟨rfl, .inl ⟨hi, rfl⟩⟩
    | ebreak hi => exact ⟨rfl, .inr (.inl ⟨hi, rfl⟩)⟩
    | misaligned target hgo hbar => exact ⟨rfl, .inr (.inr ⟨target, hgo, hbar, rfl⟩)⟩
  · rintro ⟨rfl, ⟨rfl, rfl⟩ | ⟨rfl, rfl⟩ | ⟨target, hgo, hbar, rfl⟩⟩
    · exact raise_eq_fault s _
    · exact raise_eq_fault s _
    · exact exec_of_not_mayReach hgo hbar

/-! ### Requests where every address is memory -/

theorem clean_of_load {rd rs1 : RegNum} {imm : BitVec 12} {n : Nat} {ext : Word → Word}
    (hall : ∀ a : Word, s.cfg.memMap.kindAt a.toNat = some .memory) : Result.clean (s.load rd rs1 imm n ext) = true := by
  rw [load_of_memory rd ext fun b _ => hall b]
  rfl

theorem clean_of_store {rs2 rs1 : RegNum} {imm : BitVec 12} {n : Nat}
    (hall : ∀ a : Word, s.cfg.memMap.kindAt a.toNat = some .memory) : Result.clean (s.store rs2 rs1 imm n) = true := by
  rw [store_of_memory rs2 fun b _ => hall b]
  rfl

theorem clean_of_transfer (t : State) (target : Word) : Result.clean (s.transfer target t) = true := by
  unfold State.transfer
  split <;> rfl

theorem clean_of_branch (taken : Bool) (off : BitVec 13) : Result.clean (s.branch taken off) = true := by
  cases taken with
  | false => rfl
  | true => exact clean_of_transfer s _

/-- Where every address is memory, an instruction completes or traps. -/
theorem exec_clean (i : Instr) (hall : ∀ a : Word, s.cfg.memMap.kindAt a.toNat = some .memory) : Result.clean (exec i s) = true := by
  cases i
  case lb | lh | lw | lbu | lhu => exact clean_of_load hall
  case sb | sh | sw => exact clean_of_store hall
  case jal | jalr => exact clean_of_transfer _ _
  case beq | bne | blt | bge | bltu | bgeu => exact clean_of_branch _ _
  all_goals rfl

/-- A strict decode answers an instruction or rejects the word. -/
theorem decode_strict_ne_noInstructionNumber (n : RegCount) (w : Word) : decode n .strict w ≠ .noInstructionNumber := by
  rw [decode]
  cases decodeStrict w with
  | none => exact Decoded.noConfusion
  | some i =>
    simp only [checkRegs]
    split <;> exact Decoded.noConfusion

theorem run_clean (hstrict : s.cfg.decodeMode = .strict) (hall : ∀ a : Word, s.cfg.memMap.kindAt a.toNat = some .memory) :
    Result.clean (s.run w) = true := by
  unfold State.run
  split
  · exact exec_clean _ hall
  · rfl
  · next h => rw [hstrict] at h; exact absurd h (decode_strict_ne_noInstructionNumber _ _)

end

/-- Settles O20: what a step leaves stuck hangs. -/
theorem stuckStaysStuck : Obligations.StuckStaysStuck := by
  intro s left h
  exact step_of_hung (hung_of_step_stuck h)

/-- Settles O42: a step traps by an illegal word or by the row of its instruction; the codes are those of R231. -/
theorem stepTrapsExactlyAsTabled : Obligations.StepTrapsExactlyAsTabled := by
  refine ⟨fun s e p => ⟨fun h => ?_, ?_⟩, fun v => ⟨rfl, rfl, rfl, rfl⟩⟩
  · rcases step_eq_fault h with ⟨-, hf⟩ | ⟨hhung, ⟨l, -, hf⟩ | ⟨w, hfetch, hrun⟩⟩
    · cases hf
    · cases hf
    · rcases run_eq_fault hrun with ⟨hillegal, hf⟩ | ⟨i, hi, hexec⟩
      · cases hf
        exact ⟨hhung, rfl, w, hfetch, .inl ⟨hillegal, rfl⟩⟩
      · obtain ⟨hp, hrow⟩ := exec_eq_trap_iff.mp hexec
        exact ⟨hhung, hp, w, hfetch, .inr ⟨i, hi, hrow⟩⟩
  · rintro ⟨hhung, rfl, w, hfetch, ⟨hillegal, rfl⟩ | ⟨i, hi, hrow⟩⟩
    · rw [step_of_fetch_ok hhung hfetch, run_of_decode_illegal hillegal]
    · rw [stepRunsDecodedInstruction s w i hhung hfetch hi]
      exact exec_eq_trap_iff.mpr ⟨rfl, hrow⟩

/-- Settles O43: the fetch is answered, and the word it answers completes or traps. -/
theorem stepIsCleanOnMemory : Obligations.StepIsCleanOnMemory := by
  intro s hhung hstrict hall
  have hfetch : s.fetch = .ok _ := memRead_of_memory fun b _ => hall b
  rw [step_of_fetch_ok hhung hfetch]
  exact run_clean hstrict hall

end Sys2Proof.Machine
end

section
/-! A store whose second operation is unanswered (R247), and a reset during a store (R262, U22): what each has written. -/

namespace Sys2Proof.Machine

section
variable {s : State} {a v : Word} {n : Nat}

/-- The state a store is in when its first operation is done: the bytes of that operation are set, and nothing else has changed. -/
def State.firstWritten (s : State) (a : Word) (n : Nat) (v : Word) : State :=
  { s with mem := s.mem.setBytes ((storeCells a n v).take (firstOpBytes a n)) }

/-- Each cell of the first operation reads as its byte. -/
theorem byte_firstWritten_of_mem {c : Word × Byte} (hn : n ≤ 4) (hm : s.mem.wf = true) (h : c ∈ (storeCells a n v).take (firstOpBytes a n)) :
    (s.firstWritten a n v).byte c.1 = c.2 := by
  refine byteAt_setBytes_of_mem hm ?_ h
  rw [storeCells_take_addrs]
  exact (nodup_accessAddrs a hn).sublist (List.take_sublist _ _)

/-- Every byte outside the first operation reads as before. -/
theorem byte_firstWritten_of_notMem {b : Word} (h : b ∉ (accessAddrs a n).take (firstOpBytes a n)) :
    (s.firstWritten a n v).byte b = s.byte b := by
  apply byteAt_setBytes_of_notMem
  rwa [storeCells_take_addrs]

/-- A store of which only the second operation is unanswered hangs with its first operation written. -/
theorem memWrite_of_secondUnanswered (hfirst : s.firstIsMemory a n) (hsecond : s.secondUnanswered a n) :
    s.memWrite a n v = .stuck (s.firstWritten a n v).hang := by
  rw [State.memWrite, busWrite_of_memory (by rwa [storeCells_take_addrs]), bind_ok]
  exact busWrite_of_unanswered (s := s.firstWritten a n v) (by rwa [storeCells_drop_addrs])

/-- The store instruction that makes this write hangs with it. -/
theorem store_of_memWrite_stuck {left : State} {rs2 rs1 : RegNum} {imm : BitVec 12} (h : s.memWrite a n v = .stuck left)
    (ha : a = s.effAddr rs1 (immS imm)) (hv : v = s.reg rs2) : s.store rs2 rs1 imm n = .fault (.stuck left) := by
  rw [State.store, ← ha, ← hv, h, toResult_stuck]

end

/-- Settles O19: the hart hangs in `State.firstWritten`, whose bytes and frame are known. -/
theorem splitStoreLeavesFirstOperation : Obligations.SplitStoreLeavesFirstOperation := by
  intro s a n v hn hfirst hsecond hm
  have hstuck : s.memWrite a n v = .stuck (s.firstWritten a n v).hang := memWrite_of_secondUnanswered hfirst hsecond
  refine ⟨(s.firstWritten a n v).hang, hstuck, rfl, fun _ => rfl, rfl, rfl, fun c hc => byte_firstWritten_of_mem hn hm hc,
    fun b hb => byte_firstWritten_of_notMem hb, fun rs2 rs1 imm ha hv => ⟨?_, ?_⟩⟩
  · rintro rfl
    exact store_of_memWrite_stuck hstuck ha hv
  · rintro rfl
    exact store_of_memWrite_stuck hstuck ha hv

/-! ### A reset during a store -/

section
variable (s : State) (a : Word) (n : Nat) (v : Word)

theorem resetDuringStore_zero : s.resetDuringStore 0 a n v = s.rst := rfl

theorem resetDuringStore_one : s.resetDuringStore 1 a n v = (s.firstWritten a n v).rst := rfl

theorem resetDuringStore_of_two_le {landed : Nat} (h : 2 ≤ landed) : s.resetDuringStore landed a n v = (s.written a n v).rst := by
  have h0 : landed ≠ 0 := by omega
  have h1 : landed ≠ 1 := by omega
  simp only [State.resetDuringStore, h0, h1, if_false, State.written]

/-- The number of operations that have landed is none, one, or all there can be. -/
theorem landed_cases (landed : Nat) : landed = 0 ∨ landed = 1 ∨ 2 ≤ landed := by omega

/-- The reset input does not touch memory (R261). -/
@[simp] theorem rst_byte (b : Word) : s.rst.byte b = s.byte b := rfl

/-- Bytes outside the store read as before, however much of it has landed. -/
theorem byte_resetDuringStore_of_notMem (landed : Nat) {b : Word} (h : b ∉ accessAddrs a n) :
    (s.resetDuringStore landed a n v).byte b = s.byte b := by
  rcases landed_cases landed with rfl | rfl | htwo
  · rw [resetDuringStore_zero, rst_byte]
  · rw [resetDuringStore_one, rst_byte, byte_firstWritten_of_notMem fun hb => h (List.mem_of_mem_take hb)]
  · rw [resetDuringStore_of_two_le s a n v htwo, rst_byte, byte_written_of_ne]
    exact fun i hi hb => h (mem_accessAddrs.mpr ⟨i, hi, hb⟩)

end

/-- Settles O51: the state reset is the old one, `State.firstWritten` or `State.written`, by how many operations have landed. -/
theorem resetDuringStoreLandsPerOperation : Obligations.ResetDuringStoreLandsPerOperation := by
  intro s landed a n v
  refine ⟨rfl, fun _ => rfl, ?_, ?_, fun htwo => ?_, fun b hb => byte_resetDuringStore_of_notMem s a n v landed hb, ?_⟩
  · rintro rfl
    rfl
  · rintro rfl
    rfl
  · rw [resetDuringStore_of_two_le s a n v htwo]
    rfl
  · rintro rfl b hb
    exact byte_firstWritten_of_notMem hb

end Sys2Proof.Machine
end

section
/-! The memory interface request by request (R212 to R215, R219 to R222): what each state does in a cycle, and the run of a whole request. -/

namespace Sys2Proof.Machine

section
variable {mi : MemInterface} {m : Memory} {req idle : CpuRequest} {pready : Bool} {prdata : Word}

/-! ### One cycle in each state -/

/-- The block after T0: the registers hold the request, and its first operation begins (R213, R219). -/
def MemInterface.begun (mi : MemInterface) (req : CpuRequest) : MemInterface := { mi.register req with fsm := .op1B }

/-- A request takes the idle block into its first operation. -/
theorem MemInterface.next_of_request (hfsm : mi.fsm = .op1A) (hreq : (req.rd || req.wr) = true) : mi.next req pready prdata = mi.begun req := by
  cases mi
  cases hfsm
  simp only [MemInterface.next, MemInterface.nextFsm, hreq]
  rfl

/-- Without a request the idle block stays idle, and RDATA with what it held. -/
theorem MemInterface.next_of_no_request (hfsm : mi.fsm = .op1A) (hreq : (req.rd || req.wr) = false) :
    mi.next req pready prdata = mi.register req := by
  cases mi
  cases hfsm
  simp only [MemInterface.next, MemInterface.nextFsm, hreq]
  rfl

/-- A wait state changes nothing. -/
theorem MemInterface.next_of_wait (hfsm : mi.fsm = .op1B ∨ mi.fsm = .op2B) : mi.next req false prdata = mi := by
  cases mi
  rcases hfsm with hfsm | hfsm <;> cases hfsm <;> rfl

/-- The last cycle of the first operation: a read value goes to the low half of RDATA; a second operation follows where one is needed. -/
theorem MemInterface.next_of_first_ready (hfsm : mi.fsm = .op1B) :
    mi.next req true prdata =
      { mi with
        rdata := if mi.write then mi.rdata else mi.rdata.extractLsb' 32 32 ++ prdata
        fsm := if mi.unaligned then .op2A else .op1A } := by
  obtain ⟨_, _, _, _, _, _, _, _, write, _⟩ := mi
  cases hfsm
  cases write <;> rfl

/-- The cycle that begins the second operation. -/
theorem MemInterface.next_of_op2A (hfsm : mi.fsm = .op2A) : mi.next req pready prdata = { mi with fsm := .op2B } := by
  cases mi
  cases hfsm
  rfl

/-- The last cycle of the second operation: a read value goes to the high half of RDATA. -/
theorem MemInterface.next_of_second_ready (hfsm : mi.fsm = .op2B) :
    mi.next req true prdata =
      { mi with rdata := if mi.write then mi.rdata else prdata ++ mi.rdata.extractLsb' 0 32, fsm := .op1A } := by
  obtain ⟨_, _, _, _, _, _, _, _, write, _⟩ := mi
  cases hfsm
  cases write <;> rfl

/-! ### The run of an operation, and of a request -/

/-- A run goes on where the first part of its cycles ends. -/
theorem MemInterface.run_append (xs ys : List (CpuRequest × Bool)) :
    mi.run m (xs ++ ys) =
      (((mi.run m xs).1.run (mi.run m xs).2.1 ys).1, ((mi.run m xs).1.run (mi.run m xs).2.1 ys).2.1,
        (mi.run m xs).2.2 ++ ((mi.run m xs).1.run (mi.run m xs).2.1 ys).2.2) := by
  induction xs generalizing mi m with
  | nil => rfl
  | cons x xs ih =>
    simp only [List.cons_append, MemInterface.run, ih]

/-- The cycles of one bus operation after its first: `w` wait states, then the one in which the slave answers. -/
def operationCycles (idle : CpuRequest) (w : Nat) : List (CpuRequest × Bool) := List.replicate w (idle, false) ++ [(idle, true)]

/-- The outputs in these cycles: the same in every wait state, then those of the last cycle. -/
def MemInterface.operationOuts (mi : MemInterface) (m : Memory) (idle : CpuRequest) (w : Nat) : List MiOut :=
  List.replicate w (mi.out idle false (m.prdata (mi.bus idle))) ++ [mi.out idle true (m.prdata (mi.bus idle))]

/-- Wait states change neither the block nor memory (R222). -/
theorem MemInterface.cycle_of_wait (hfsm : mi.fsm = .op1B ∨ mi.fsm = .op2B) : mi.cycle m idle false = (mi, m) := by
  rw [MemInterface.cycle, MemInterface.next_of_wait hfsm, Memory.slave_of_idle _ _ _ (by simp)]

theorem MemInterface.run_operation (w : Nat) (hfsm : mi.fsm = .op1B ∨ mi.fsm = .op2B) :
    mi.run m (operationCycles idle w) = ((mi.cycle m idle true).1, (mi.cycle m idle true).2, mi.operationOuts m idle w) := by
  induction w with
  | zero => rfl
  | succ w ih =>
    have hcycles : operationCycles idle (w + 1) = (idle, false) :: operationCycles idle w := rfl
    have houts : mi.operationOuts m idle (w + 1) = mi.out idle false (m.prdata (mi.bus idle)) :: mi.operationOuts m idle w := rfl
    rw [hcycles, houts, MemInterface.run, MemInterface.cycle_of_wait hfsm, ih]

/-- What every wait state of an operation puts out, then what its last cycle does. -/
theorem MemInterface.map_operationOuts {α : Type} {f : MiOut → α} {x y : α} (w : Nat)
    (hwait : f (mi.out idle false (m.prdata (mi.bus idle))) = x) (hlast : f (mi.out idle true (m.prdata (mi.bus idle))) = y) :
    (mi.operationOuts m idle w).map f = List.replicate w x ++ [y] := by
  simp [MemInterface.operationOuts, hwait, hlast]

/-- The block and memory when the first operation is done. -/
def MemInterface.firstDone (mi : MemInterface) (m : Memory) (req idle : CpuRequest) : MemInterface × Memory := (mi.begun req).cycle m idle true

/-- The block in state op2B, the first operation being done. -/
def MemInterface.second (mi : MemInterface) (m : Memory) (req idle : CpuRequest) : MemInterface :=
  { (mi.firstDone m req idle).1 with fsm := .op2B }

/-- The block and memory when the second operation is done. -/
def MemInterface.secondDone (mi : MemInterface) (m : Memory) (req idle : CpuRequest) : MemInterface × Memory :=
  (mi.second m req idle).cycle (mi.firstDone m req idle).2 idle true

variable (w1 w2 : Nat)

/-- The run of a request of one operation. -/
theorem MemInterface.run_single (hfsm : mi.fsm = .op1A) (hreq : (req.rd || req.wr) = true)
    (hone : secondOpRequired (byteStrb req.size (alignmentOf req.addr)) = false) :
    mi.run m (requestCycles req idle w1 w2) =
      ((mi.firstDone m req idle).1, (mi.firstDone m req idle).2,
        mi.out req false (m.prdata (mi.bus req)) :: (mi.begun req).operationOuts m idle w1) := by
  have hcycles : requestCycles req idle w1 w2 = (req, false) :: operationCycles idle w1 := by
    simp [requestCycles, operationCycles, hone]
  have hbegun : mi.cycle m req false = (mi.begun req, m) := by
    rw [MemInterface.cycle, MemInterface.next_of_request hfsm hreq, Memory.slave_of_idle _ _ _ (by simp)]
  rw [hcycles, MemInterface.run, hbegun, MemInterface.run_operation w1 (.inl rfl)]
  rfl

/-- The run of a request of two operations. -/
theorem MemInterface.run_split (hfsm : mi.fsm = .op1A) (hreq : (req.rd || req.wr) = true)
    (htwo : secondOpRequired (byteStrb req.size (alignmentOf req.addr)) = true) :
    mi.run m (requestCycles req idle w1 w2) =
      ((mi.secondDone m req idle).1, (mi.secondDone m req idle).2,
        mi.out req false (m.prdata (mi.bus req)) :: ((mi.begun req).operationOuts m idle w1 ++
          (mi.firstDone m req idle).1.out idle false ((mi.firstDone m req idle).2.prdata ((mi.firstDone m req idle).1.bus idle)) ::
            (mi.second m req idle).operationOuts (mi.firstDone m req idle).2 idle w2)) := by
  have hcycles : requestCycles req idle w1 w2 = (req, false) :: (operationCycles idle w1 ++ (idle, false) :: operationCycles idle w2) := by
    simp [requestCycles, operationCycles, htwo]
  have hbegun : mi.cycle m req false = (mi.begun req, m) := by
    rw [MemInterface.cycle, MemInterface.next_of_request hfsm hreq, Memory.slave_of_idle _ _ _ (by simp)]
  have hop2A : (mi.firstDone m req idle).1.fsm = .op2A := by
    simp [MemInterface.firstDone, MemInterface.cycle, MemInterface.nextFsm, MemInterface.begun, MemInterface.register, htwo]
  have hsecond : (mi.firstDone m req idle).1.cycle (mi.firstDone m req idle).2 idle false =
      (mi.second m req idle, (mi.firstDone m req idle).2) := by
    rw [MemInterface.cycle, MemInterface.next_of_op2A hop2A, Memory.slave_of_idle _ _ _ (by simp)]
    rfl
  have hfirst : (mi.begun req).run m (operationCycles idle w1) =
      ((mi.firstDone m req idle).1, (mi.firstDone m req idle).2, (mi.begun req).operationOuts m idle w1) :=
    MemInterface.run_operation w1 (.inl rfl)
  rw [hcycles, MemInterface.run, hbegun, MemInterface.run_append, hfirst, MemInterface.run, hsecond, MemInterface.run_operation w2 (.inr rfl)]
  rfl

/-- The block and memory when the whole request is done. -/
def MemInterface.requestDone (mi : MemInterface) (m : Memory) (req idle : CpuRequest) : MemInterface × Memory :=
  if secondOpRequired (byteStrb req.size (alignmentOf req.addr)) then mi.secondDone m req idle else mi.firstDone m req idle

/-- A request's cycles, whatever its wait states, end with the request done. -/
theorem MemInterface.run_eq_requestDone (hfsm : mi.fsm = .op1A) (hreq : (req.rd || req.wr) = true) :
    (mi.run m (requestCycles req idle w1 w2)).1 = (mi.requestDone m req idle).1 ∧
      (mi.run m (requestCycles req idle w1 w2)).2.1 = (mi.requestDone m req idle).2 := by
  unfold MemInterface.requestDone
  cases htwo : secondOpRequired (byteStrb req.size (alignmentOf req.addr)) with
  | false =>
    rw [MemInterface.run_single w1 w2 hfsm hreq htwo]
    exact ⟨rfl, rfl⟩
  | true =>
    rw [MemInterface.run_split w1 w2 hfsm hreq htwo]
    exact ⟨rfl, rfl⟩

/-! ### What a whole request puts out -/

/-- The block when the first operation is done: the registers of the request, RDATA with the low value of a read, on to op2A where one is needed. -/
theorem MemInterface.firstDone_fst :
    (mi.firstDone m req idle).1 =
      { mi.begun req with
        rdata := if req.wr then mi.rdata else mi.rdata.extractLsb' 32 32 ++ m.wordAt (wordAddr req.addr)
        fsm := if secondOpRequired (byteStrb req.size (alignmentOf req.addr)) then .op2A else .op1A } := by
  have hdata : m.prdata ((mi.begun req).bus idle) = m.wordAt (wordAddr req.addr) := congrArg m.wordAt (paddrOf_wordAddr (wordAddr req.addr))
  rw [MemInterface.firstDone, MemInterface.cycle, hdata, MemInterface.next_of_first_ready rfl]
  rfl

/-- Every output of an operation has `p` if those of a wait state and of the last cycle have it. -/
theorem MemInterface.forall_operationOuts {p : MiOut → Prop} (w : Nat) (hwait : p (mi.out idle false (m.prdata (mi.bus idle))))
    (hlast : p (mi.out idle true (m.prdata (mi.bus idle)))) : ∀ o ∈ mi.operationOuts m idle w, p o := by
  intro o ho
  rcases List.mem_append.mp ho with hin | hin
  · exact List.eq_of_mem_replicate hin ▸ hwait
  · exact List.mem_singleton.mp hin ▸ hlast

/-- The cycles are busy but for the last one. -/
def BusyTillLast (outs : List MiOut) : Prop := ∃ front last, outs = front ++ [last] ∧ (∀ o ∈ front, o.busy = true) ∧ last.busy = false

theorem BusyTillLast.append {front outs : List MiOut} (hfront : ∀ o ∈ front, o.busy = true) (h : BusyTillLast outs) :
    BusyTillLast (front ++ outs) := by
  obtain ⟨rest, last, rfl, hrest, hlast⟩ := h
  refine ⟨front ++ rest, last, (List.append_assoc ..).symm, fun o ho => ?_, hlast⟩
  exact (List.mem_append.mp ho).elim (hfront o) (hrest o)

theorem BusyTillLast.cons {o : MiOut} {outs : List MiOut} (ho : o.busy = true) (h : BusyTillLast outs) : BusyTillLast (o :: outs) :=
  BusyTillLast.append (front := [o]) (List.forall_mem_singleton.mpr ho) h

theorem BusyTillLast.map_busy {outs : List MiOut} (h : BusyTillLast outs) :
    outs.map MiOut.busy = List.replicate (outs.length - 1) true ++ [false] := by
  obtain ⟨front, last, rfl, hfront, hlast⟩ := h
  have hmap : front.map MiOut.busy = List.replicate front.length true := List.map_eq_replicate_iff.mpr hfront
  simp [hmap, hlast]

/-- An operation after which the block is idle is busy till its last cycle. -/
theorem MemInterface.busyTillLast_operationOuts (w : Nat) (hwait : mi.busy idle false = true) (hlast : mi.busy idle true = false) :
    BusyTillLast (mi.operationOuts m idle w) :=
  ⟨_, _, rfl, fun _ ho => List.eq_of_mem_replicate ho ▸ hwait, hlast⟩

/-- The block is idle again when a request is done (R221). -/
theorem MemInterface.requestDone_fsm : (mi.requestDone m req idle).1.fsm = .op1A := by
  unfold MemInterface.requestDone
  split
  · exact congrArg MemInterface.fsm (MemInterface.next_of_second_ready rfl)
  · next hone => simp [MemInterface.firstDone_fst, hone]

theorem MemInterface.run_length (hfsm : mi.fsm = .op1A) (hreq : (req.rd || req.wr) = true) :
    (mi.run m (requestCycles req idle w1 w2)).2.2.length =
      if secondOpRequired (byteStrb req.size (alignmentOf req.addr)) = true then 4 + w1 + w2 else 2 + w1 := by
  cases htwo : secondOpRequired (byteStrb req.size (alignmentOf req.addr)) with
  | false =>
    rw [MemInterface.run_single w1 w2 hfsm hreq htwo]
    simp [MemInterface.operationOuts]
    omega
  | true =>
    rw [MemInterface.run_split w1 w2 hfsm hreq htwo]
    simp [MemInterface.operationOuts]
    omega

/-- The first operation of two is busy in every cycle, op2A too, and the second till its last one; a single operation till its last one (R222). -/
theorem MemInterface.run_busyTillLast (hfsm : mi.fsm = .op1A) (hreq : (req.rd || req.wr) = true) :
    BusyTillLast (mi.run m (requestCycles req idle w1 w2)).2.2 := by
  have hT0 : (mi.out req false (m.prdata (mi.bus req))).busy = true := by
    simp only [MemInterface.out, MemInterface.busy, hfsm, hreq]
  have hbusy (pready : Bool) : (mi.begun req).busy idle pready = (secondOpRequired (byteStrb req.size (alignmentOf req.addr)) || !pready) := rfl
  cases htwo : secondOpRequired (byteStrb req.size (alignmentOf req.addr)) with
  | false =>
    rw [MemInterface.run_single w1 w2 hfsm hreq htwo]
    exact .cons hT0 (MemInterface.busyTillLast_operationOuts w1 (by rw [hbusy, htwo]; rfl) (by rw [hbusy, htwo]; rfl))
  | true =>
    have hop2A : (mi.firstDone m req idle).1.busy idle false = true := by simp [MemInterface.busy, MemInterface.firstDone_fst, htwo]
    rw [MemInterface.run_split w1 w2 hfsm hreq htwo]
    refine .cons hT0 (.append ?_ (.cons hop2A (MemInterface.busyTillLast_operationOuts w2 rfl rfl)))
    exact MemInterface.forall_operationOuts w1 ((hbusy false).trans (by rw [htwo]; rfl)) ((hbusy true).trans (by rw [htwo]; rfl))

/-- first_cycle is 1 in T0 only (R221). -/
theorem MemInterface.run_firstCycle (hfsm : mi.fsm = .op1A) (hreq : (req.rd || req.wr) = true) :
    (mi.run m (requestCycles req idle w1 w2)).2.2.map MiOut.firstCycle =
      true :: List.replicate ((mi.run m (requestCycles req idle w1 w2)).2.2.length - 1) false := by
  have hT0 : (mi.out req false (m.prdata (mi.bus req))).firstCycle = true := by
    simp only [MemInterface.out, MemInterface.firstCycle, hfsm, decide_true]
  have hrest {outs : List MiOut} (h : ∀ o ∈ outs, o.firstCycle = false) :
      (mi.out req false (m.prdata (mi.bus req)) :: outs).map MiOut.firstCycle = true :: List.replicate outs.length false := by
    rw [List.map_cons, hT0, List.map_eq_replicate_iff.mpr h]
  have hfirst : ∀ o ∈ (mi.begun req).operationOuts m idle w1, o.firstCycle = false := MemInterface.forall_operationOuts w1 rfl rfl
  cases htwo : secondOpRequired (byteStrb req.size (alignmentOf req.addr)) with
  | false =>
    rw [MemInterface.run_single w1 w2 hfsm hreq htwo]
    exact hrest hfirst
  | true =>
    have hop2A : (mi.firstDone m req idle).1.firstCycle = false := by simp [MemInterface.firstCycle, MemInterface.firstDone_fst, htwo]
    have hsecond : ∀ o ∈ (mi.second m req idle).operationOuts (mi.firstDone m req idle).2 idle w2, o.firstCycle = false :=
      MemInterface.forall_operationOuts w2 rfl rfl
    rw [MemInterface.run_split w1 w2 hfsm hreq htwo]
    exact hrest (List.forall_mem_append.mpr ⟨hfirst, List.forall_mem_cons.mpr ⟨hop2A, hsecond⟩⟩)

/-- The bus carries the first operation of the request registered, maintained over its cycles, then the second (R213, R214). -/
theorem MemInterface.run_bus (hfsm : mi.fsm = .op1A) (hreq : (req.rd || req.wr) = true) :
    (mi.run m (requestCycles req idle w1 w2)).2.2.map MiOut.bus =
      (mi.register req).bus1 false :: (List.replicate (w1 + 1) ((mi.register req).bus1 true) ++
        if secondOpRequired (byteStrb req.size (alignmentOf req.addr)) = true then
          (mi.register req).bus2 false :: List.replicate (w2 + 1) ((mi.register req).bus2 true) else []) := by
  have hT0 : (mi.out req false (m.prdata (mi.bus req))).bus = (mi.register req).bus1 false := by
    simp only [MemInterface.out, MemInterface.bus, hfsm]
  have hfirst : ((mi.begun req).operationOuts m idle w1).map MiOut.bus = List.replicate (w1 + 1) ((mi.register req).bus1 true) := by
    rw [MemInterface.map_operationOuts w1 rfl rfl, List.replicate_succ']
    rfl
  cases htwo : secondOpRequired (byteStrb req.size (alignmentOf req.addr)) with
  | false =>
    rw [MemInterface.run_single w1 w2 hfsm hreq htwo]
    simp [hT0, hfirst]
  | true =>
    have hdone : (mi.firstDone m req idle).1 = _ := MemInterface.firstDone_fst
    have hop2A : (mi.firstDone m req idle).1.bus idle = (mi.register req).bus2 false := by
      rw [hdone, htwo]
      rfl
    have hsecond : ((mi.second m req idle).operationOuts (mi.firstDone m req idle).2 idle w2).map MiOut.bus =
        List.replicate (w2 + 1) ((mi.register req).bus2 true) := by
      have hbus : (mi.second m req idle).bus idle = (mi.register req).bus2 true := by
        rw [MemInterface.second, hdone]
        rfl
      rw [MemInterface.map_operationOuts w2 hbus hbus, List.replicate_succ']
    rw [MemInterface.run_split w1 w2 hfsm hreq htwo, List.map_cons, List.map_append, List.map_cons, hT0, hfirst, hsecond]
    simp [MemInterface.out, hop2A]

/-! ### What a write leaves in memory -/

/-- The first operation of a write has moved the bytes of the first operation of `MemWrite`. -/
theorem MemInterface.firstDone_mem_of_write (hwr : req.wr = true) :
    (mi.firstDone m req idle).2 =
      m.setBytes ((storeCells req.addr (sizeBytes req.size) req.wdata).take (firstOpBytes req.addr (sizeBytes req.size))) := by
  rw [storeCells_take_eq_strobedCells]
  exact Memory.slave_bus1 (mi.begun req) m hwr

/-- The second operation of a write has moved the rest. -/
theorem MemInterface.secondDone_mem_of_write (hwr : req.wr = true) :
    (mi.secondDone m req idle).2 = m.setBytes (storeCells req.addr (sizeBytes req.size) req.wdata) := by
  have hbus : (mi.second m req idle).bus idle = (mi.begun req).bus2 true := by
    rw [MemInterface.second, MemInterface.firstDone_fst]
    rfl
  have hslave (m' : Memory) : m'.slave ((mi.begun req).bus2 true) true =
      m'.setBytes ((storeCells req.addr (sizeBytes req.size) req.wdata).drop (firstOpBytes req.addr (sizeBytes req.size))) := by
    rw [storeCells_drop_eq_strobedCells]
    exact Memory.slave_bus2 (mi.begun req) m' hwr
  rw [MemInterface.secondDone, MemInterface.cycle, hbus, hslave, MemInterface.firstDone_mem_of_write hwr, ← setBytes_append,
    List.take_append_drop]

/-- An access of one operation has no bytes left for a second. -/
theorem take_storeCells_of_single (a v : Word) (size : BitVec 2) (hone : secondOpRequired (byteStrb size (alignmentOf a)) = false) :
    (storeCells a (sizeBytes size) v).take (firstOpBytes a (sizeBytes size)) = storeCells a (sizeBytes size) v := by
  have hall : ¬ firstOpBytes a (sizeBytes size) < sizeBytes size := by
    rw [firstOpBytes_eq, ← secondOpRequired_iff_min_lt, hone]
    exact Bool.false_ne_true
  refine List.take_of_length_le ?_
  rw [storeCells_eq_map, List.length_map, List.length_range]
  omega

/-- A write request leaves in memory the bytes of `MemWrite` (R44). -/
theorem MemInterface.requestDone_mem_of_write (hwr : req.wr = true) :
    (mi.requestDone m req idle).2 = m.setBytes (storeCells req.addr (sizeBytes req.size) req.wdata) := by
  unfold MemInterface.requestDone
  split
  · exact MemInterface.secondDone_mem_of_write hwr
  · next hone => rw [MemInterface.firstDone_mem_of_write hwr, take_storeCells_of_single _ _ _ (Bool.eq_false_iff.mpr hone)]

/-! ### What a read leaves in RDATA -/

/-- rdata_o as the registers hold it: RDATA aligned and extended (R209 to R211). -/
def MemInterface.readData (mi : MemInterface) : Word := extendRead mi.size mi.zeroExt (rdataAligned mi.rdata mi.alignment)

/-- Byte `i` of the aligned data is byte `alignment + i` of RDATA (R210). -/
theorem rdataAligned_byte (d : BitVec 64) (al : BitVec 2) {i : Nat} (hi : i < 4) :
    (rdataAligned d al).extractLsb' (8 * i) 8 = d.extractLsb' (8 * (al.toNat + i)) 8 := by
  apply BitVec.eq_of_getLsbD_eq
  intro j hj
  have hin : 8 * i + j < 32 := by omega
  have hpos : 8 * al.toNat + (8 * i + j) = 8 * (al.toNat + i) + j := by omega
  simp [rdataAligned, hin, hpos]

/-- RDATA made of the words of memory at a word address and the next one: byte `k` is that of lane `k`, also past the first word. -/
theorem rdata_byte (hi : Word) (wa : BitVec 30) {k : Nat} (hk : k < 8) (hhi : 4 ≤ k → hi = m.wordAt (wa + 1#30)) :
    (hi ++ m.wordAt wa : BitVec 64).extractLsb' (8 * k) 8 = m.byteAt (laneAddr wa k).toNat := by
  rcases Nat.lt_or_ge k 4 with hlow | hhigh
  · rw [← lowHalf_byte _ hlow, BitVec.extractLsb'_append_eq_right]
    exact extractLsb'_leWord_map_range _ le_rfl hlow
  · obtain ⟨j, rfl⟩ := Nat.exists_eq_add_of_le hhigh
    have hj : j < 4 := by omega
    rw [← highHalf_byte _ hj, BitVec.extractLsb'_append_eq_left, hhi hhigh, ← laneAddr_next]
    exact extractLsb'_leWord_map_range _ le_rfl hj

/-- The low 16 bits of a word are its two low bytes. -/
theorem low16_eq_append (v : Word) : v.extractLsb' 0 16 = v.extractLsb' (8 * 1) 8 ++ v.extractLsb' (8 * 0) 8 := by
  apply BitVec.eq_of_getLsbD_eq
  intro j hj
  rw [BitVec.getLsbD_append]
  rcases Nat.lt_or_ge j 8 with hlow | hhigh
  · simp [hlow, hj]
  · have hpos : 8 + (j - 8) = j := by omega
    have hin : j - 8 < 8 := by omega
    simp [Nat.not_lt.mpr hhigh, hj, hpos, hin]

/-- The extension of what is read looks at the bytes of the request's size only (R211). -/
theorem extendRead_congr {v v' : Word} {size : BitVec 2} (zeroExt : Bool)
    (h : ∀ i < sizeBytes size, v.extractLsb' (8 * i) 8 = v'.extractLsb' (8 * i) 8) : extendRead size zeroExt v = extendRead size zeroExt v' := by
  have hsizes : ∀ b : BitVec 2, b = 0b00#2 ∨ b = 0b01#2 ∨ b = 0b10#2 ∨ b = 0b11#2 := by decide
  rcases hsizes size with rfl | rfl | rfl | rfl
  · have h8 : v.extractLsb' 0 8 = v'.extractLsb' 0 8 := h 0 (by decide)
    cases zeroExt <;> simp only [extendRead, sext8, zext8, h8]
  · have h16 : v.extractLsb' 0 16 = v'.extractLsb' 0 16 := by
      rw [low16_eq_append, low16_eq_append, h 0 (by decide), h 1 (by decide)]
    cases zeroExt <;> simp only [extendRead, sext16, zext16, h16]
  · exact word_eq_of_bytes h
  · exact word_eq_of_bytes h

/-- The value `MemRead` has for the bytes of memory at `a`, extended as size and sign say. -/
def Memory.readValue (m : Memory) (a : Word) (size : BitVec 2) (zeroExt : Bool) : Word :=
  extendRead size zeroExt (leWord ((accessAddrs a (sizeBytes size)).map fun b => m.byteAt b.toNat))

/-- RDATA holding the word of the address, and the next one where the access goes on there, gives the value of `MemRead`. -/
theorem extendRead_rdataAligned (a : Word) (size : BitVec 2) (zeroExt : Bool) (hi : Word)
    (hhi : secondOpRequired (byteStrb size (alignmentOf a)) = true → hi = m.wordAt (wordAddr a + 1#30)) :
    extendRead size zeroExt (rdataAligned (hi ++ m.wordAt (wordAddr a)) (alignmentOf a)) = m.readValue a size zeroExt := by
  refine extendRead_congr zeroExt fun i hin => ?_
  have hsize := sizeBytes_le_four size
  have hal := (alignmentOf a).isLt
  have hpast (h4 : 4 ≤ (alignmentOf a).toNat + i) : secondOpRequired (byteStrb size (alignmentOf a)) = true := by
    rw [secondOpRequired_iff_min_lt]
    omega
  rw [rdataAligned_byte _ _ (by omega), rdata_byte _ _ (by omega) fun h4 => hhi (hpast h4), laneAddr_wordAddr, map_accessAddrs,
    extractLsb'_leWord_map_range _ hsize hin]

/-- A read moves nothing: memory after its first operation. -/
theorem MemInterface.firstDone_mem_of_read (hwr : req.wr = false) : (mi.firstDone m req idle).2 = m := by
  refine Memory.slave_of_idle _ _ _ ?_
  have hpwrite : ((mi.begun req).bus idle).pwrite = false := hwr
  rw [hpwrite, Bool.and_false]

theorem MemInterface.secondDone_mem_of_read (hwr : req.wr = false) : (mi.secondDone m req idle).2 = m := by
  have hpwrite : ((mi.second m req idle).bus idle).pwrite = false := by
    rw [MemInterface.second, MemInterface.firstDone_fst]
    exact hwr
  calc (mi.secondDone m req idle).2 = (mi.firstDone m req idle).2 := Memory.slave_of_idle _ _ _ (by rw [hpwrite, Bool.and_false])
    _ = m := MemInterface.firstDone_mem_of_read hwr

/-- A read of one operation leaves the value of `MemRead`. -/
theorem MemInterface.readData_firstDone (hwr : req.wr = false) (hone : secondOpRequired (byteStrb req.size (alignmentOf req.addr)) = false) :
    (mi.firstDone m req idle).1.readData = m.readValue req.addr req.size req.zeroExt := by
  rw [MemInterface.firstDone_fst, hwr]
  exact extendRead_rdataAligned req.addr req.size req.zeroExt _ fun htwo => absurd (hone.symm.trans htwo) Bool.false_ne_true

/-- The block when the second operation of a read is done. -/
theorem MemInterface.secondDone_fst_of_read (hwr : req.wr = false) :
    (mi.secondDone m req idle).1 =
      { mi.begun req with rdata := m.wordAt (wordAddr req.addr + 1#30) ++ m.wordAt (wordAddr req.addr), fsm := .op1A } := by
  have hsecond : mi.second m req idle =
      { mi.begun req with rdata := mi.rdata.extractLsb' 32 32 ++ m.wordAt (wordAddr req.addr), fsm := .op2B } := by
    rw [MemInterface.second, MemInterface.firstDone_fst, hwr]
    rfl
  have hdata : m.prdata ((mi.second m req idle).bus idle) = m.wordAt (wordAddr req.addr + 1#30) := by
    rw [hsecond]
    exact congrArg m.wordAt (paddrOf_wordAddr (wordAddr req.addr + 1#30))
  rw [MemInterface.secondDone, MemInterface.firstDone_mem_of_read hwr, MemInterface.cycle, hdata, MemInterface.next_of_second_ready rfl, hsecond]
  have hlow : (mi.rdata.extractLsb' 32 32 ++ m.wordAt (wordAddr req.addr) : BitVec 64).extractLsb' 0 32 = m.wordAt (wordAddr req.addr) :=
    BitVec.extractLsb'_append_eq_right
  have hwrite : (mi.begun req).write = false := hwr
  simp only [hwrite, hlow]
  rfl

/-- A read of two operations leaves the value of `MemRead`. -/
theorem MemInterface.readData_secondDone (hwr : req.wr = false) :
    (mi.secondDone m req idle).1.readData = m.readValue req.addr req.size req.zeroExt := by
  rw [MemInterface.secondDone_fst_of_read hwr]
  exact extendRead_rdataAligned _ _ _ _ fun _ => rfl

/-- A read request leaves memory alone. -/
theorem MemInterface.requestDone_mem_of_read (hwr : req.wr = false) : (mi.requestDone m req idle).2 = m := by
  unfold MemInterface.requestDone
  split
  · exact MemInterface.secondDone_mem_of_read hwr
  · exact MemInterface.firstDone_mem_of_read hwr

/-- A read request leaves the value of `MemRead` in RDATA. -/
theorem MemInterface.readData_requestDone (hwr : req.wr = false) :
    (mi.requestDone m req idle).1.readData = m.readValue req.addr req.size req.zeroExt := by
  unfold MemInterface.requestDone
  split
  · exact MemInterface.readData_secondDone hwr
  · next hone => exact MemInterface.readData_firstDone hwr (Bool.eq_false_iff.mpr hone)

/-- The last output of an operation. -/
theorem MemInterface.getLast?_operationOuts (w : Nat) :
    (mi.operationOuts m idle w).getLast? = some (mi.out idle true (m.prdata (mi.bus idle))) := by
  simp [MemInterface.operationOuts]

/-- A read request shows the value of `MemRead`, extended, in its last cycle. -/
theorem MemInterface.run_last_rdata (hfsm : mi.fsm = .op1A) (hrd : req.rd = true) (hwr : req.wr = false) :
    ((mi.run m (requestCycles req idle w1 w2)).2.2.getLast?).map MiOut.rdata = some (m.readValue req.addr req.size req.zeroExt) := by
  have hreq : (req.rd || req.wr) = true := by rw [hrd, Bool.true_or]
  cases htwo : secondOpRequired (byteStrb req.size (alignmentOf req.addr)) with
  | false =>
    rw [MemInterface.run_single w1 w2 hfsm hreq htwo, List.getLast?_cons, MemInterface.getLast?_operationOuts]
    exact congrArg some (MemInterface.readData_firstDone hwr htwo)
  | true =>
    rw [MemInterface.run_split w1 w2 hfsm hreq htwo]
    simp only [List.getLast?_cons, List.getLast?_append, MemInterface.getLast?_operationOuts, Option.getD_some, Option.some_or, Option.map_some]
    exact congrArg some (MemInterface.readData_secondDone hwr)

end

/-- Settles O57: the cycles of a request (`run_busyTillLast`, `run_length`, `run_bus`, `run_firstCycle`), and the bytes of a write
(`requestDone_mem_of_write`). -/
theorem memInterfaceWriteIsMemWrite : Obligations.MemInterfaceWriteIsMemWrite := by
  intro mi m req idle w1 w2 hfsm hwr hrd
  have hreq : (req.rd || req.wr) = true := by rw [hwr, Bool.or_true]
  have hbus1 (penable : Bool) : (mi.register req).bus1 penable =
      ⟨wordAddr req.addr ++ 0#2, (byteStrb req.size (alignmentOf req.addr)).extractLsb' 0 4,
        (wdata64 req.wdata (alignmentOf req.addr)).extractLsb' 0 32, true, penable⟩ := by
    simp [MemInterface.bus1, MemInterface.register, paddrOf, pstrbOf, hwr]
  have hbus2 (penable : Bool) : (mi.register req).bus2 penable =
      ⟨(wordAddr req.addr + 1#30) ++ 0#2, (byteStrb req.size (alignmentOf req.addr)).extractLsb' 4 4,
        (wdata64 req.wdata (alignmentOf req.addr)).extractLsb' 32 32, true, penable⟩ := by
    simp [MemInterface.bus2, MemInterface.register, paddrOf, pstrbOf, hwr]
  obtain ⟨hblock, hmem⟩ := MemInterface.run_eq_requestDone (m := m) (idle := idle) w1 w2 hfsm hreq
  refine ⟨(congrArg MemInterface.fsm hblock).trans MemInterface.requestDone_fsm, hmem.trans (MemInterface.requestDone_mem_of_write hwr),
    (MemInterface.run_busyTillLast w1 w2 hfsm hreq).map_busy, MemInterface.run_length w1 w2 hfsm hreq, ?_,
    MemInterface.run_firstCycle w1 w2 hfsm hreq⟩
  rw [MemInterface.run_bus w1 w2 hfsm hreq, hbus1, hbus1, hbus2, hbus2]

/-- Settles O58: the cycles of a request as for O57, and the value of a read (`run_last_rdata`). -/
theorem memInterfaceReadIsMemRead : Obligations.MemInterfaceReadIsMemRead := by
  intro mi m req idle w1 w2 hfsm hwr hrd
  have hreq : (req.rd || req.wr) = true := by rw [hrd, Bool.true_or]
  obtain ⟨hblock, hmem⟩ := MemInterface.run_eq_requestDone (m := m) (idle := idle) w1 w2 hfsm hreq
  refine ⟨(congrArg MemInterface.fsm hblock).trans MemInterface.requestDone_fsm, hmem.trans (MemInterface.requestDone_mem_of_read hwr),
    MemInterface.run_last_rdata w1 w2 hfsm hrd hwr, (MemInterface.run_busyTillLast w1 w2 hfsm hreq).map_busy,
    MemInterface.run_length w1 w2 hfsm hreq, ?_⟩
  calc (mi.run m (requestCycles req idle w1 w2)).2.2.map (fun o => (o.bus.paddr, o.bus.pwrite, o.bus.penable))
      = ((mi.run m (requestCycles req idle w1 w2)).2.2.map MiOut.bus).map fun b => (b.paddr, b.pwrite, b.penable) := by rw [List.map_map]; rfl
    _ = _ := by
      rw [MemInterface.run_bus w1 w2 hfsm hreq]
      cases secondOpRequired (byteStrb req.size (alignmentOf req.addr)) <;>
        simp [MemInterface.bus1, MemInterface.bus2, MemInterface.register, paddrOf, hwr]

/-- Settles O59, by evaluation: it is one access of the source's. -/
theorem sourceUnalignedReadExample : Obligations.SourceUnalignedReadExample := by
  refine ⟨?_, ?_, ?_, ?_, ?_⟩ <;> decide

end Sys2Proof.Machine
end

section
/-! Instruction numbers (R188) and the words that have none (R82, R246). -/

namespace Sys2Proof

section
variable {w : Word}

/-! ### Words without an instruction number -/

/-- The selectors of the word have no row: its `opcode[6:2]` is outside R79, or its funct3 is none of its major opcode's (R82, last item). -/
def Unnumbered (w : Word) : Prop :=
  majorOf (opcode62Of w) = none ∨ (majorOf (opcode62Of w) = some .branch ∧ funct3Of w ∈ [0b010#3, 0b011#3]) ∨
    (majorOf (opcode62Of w) ∈ [some Major.miscMem, some Major.system] ∧ funct3Of w ≠ 0b000#3)

/-- The same, the major opcode being known: only BRANCH, MISC-MEM and SYSTEM have values of funct3 without a row. -/
def UnnumberedUnder (m : Major) (f3 : BitVec 3) : Prop :=
  (m = .branch ∧ f3 ∈ [0b010#3, 0b011#3]) ∨ (m ∈ [Major.miscMem, Major.system] ∧ f3 ≠ 0b000#3)

theorem unnumbered_of_no_major (hm : majorOf (opcode62Of w) = none) : Unnumbered w := .inl hm

theorem unnumbered_iff_of_major {m : Major} (hm : majorOf (opcode62Of w) = some m) : Unnumbered w ↔ UnnumberedUnder m (funct3Of w) := by
  simp [Unnumbered, UnnumberedUnder, hm]

theorem unnumberedUnder_branch {f3 : BitVec 3} : UnnumberedUnder .branch f3 ↔ f3 ∈ [0b010#3, 0b011#3] := by
  simp [UnnumberedUnder]

/-- Under another major opcode than those three every word is numbered. -/
theorem not_unnumberedUnder {m : Major} {f3 : BitVec 3} (h : m ∉ [Major.branch, Major.miscMem, Major.system]) : ¬ UnnumberedUnder m f3 := by
  simp only [List.mem_cons, List.not_mem_nil, or_false, not_or] at h
  simp [UnnumberedUnder, h]

/-! ### The partial decode of these words -/

theorem decodedOr_eq_noInstructionNumber {o : Option Instr} : decodedOr o = .noInstructionNumber ↔ o = none := by
  cases o <;> simp [decodedOr]

theorem decodeBranch_eq_none_iff : decodeBranch w = none ↔ funct3Of w ∈ [0b010#3, 0b011#3] := by
  rcases funct3_op_cases w with (hf3 | hf3) | hf3 | hf3 | hf3 | hf3 | hf3 | hf3 <;> simp [decodeBranch, hf3]

/-- LOAD has a row for every funct3: a size code 10 or 11 is a word access (R82). -/
theorem decodeCuUnder_load_ne : decodeCuUnder .load w ≠ .noInstructionNumber := by
  rw [decodeCuUnder]
  split
  · exact Decoded.noConfusion
  · next h13 =>
    rw [Ne, decodedOr_eq_noInstructionNumber]
    rcases funct3_of_bit13_clear (Bool.eq_false_iff.mpr h13) with hf3 | hf3 | hf3 | hf3 <;> simp [decodeLoad, hf3]

theorem decodeCuUnder_store_ne : decodeCuUnder .store w ≠ .noInstructionNumber := by
  rw [decodeCuUnder]
  split_ifs <;> exact Decoded.noConfusion

/-- The values of funct3 that no shift has are those of the other OP-IMM instructions. -/
theorem decodeCuUnder_opImm_ne : decodeCuUnder .opImm w ≠ .noInstructionNumber := by
  rw [decodeCuUnder, Ne, decodedOr_eq_noInstructionNumber]
  split
  · rw [decodeShiftCu]
    split_ifs <;> exact id
  · next hf3 =>
    rcases funct3_op_cases w with (h | h) | h | h | h | h | h | h
    all_goals simp [h, decodeOpImmPlain] at hf3 ⊢

theorem decodeCuUnder_op_ne : decodeCuUnder .op w ≠ .noInstructionNumber := by
  rw [decodeCuUnder, Ne, decodedOr_eq_noInstructionNumber, decodeOpCu]
  split
  case h_1 | h_6 => split_ifs <;> exact id
  all_goals exact Option.some_ne_none _

theorem decodeCuUnder_eq_noInstructionNumber_iff {m : Major} :
    decodeCuUnder m w = .noInstructionNumber ↔ UnnumberedUnder m (funct3Of w) := by
  cases m
  case branch => rw [decodeCuUnder, decodedOr_eq_noInstructionNumber, decodeBranch_eq_none_iff, unnumberedUnder_branch]
  case miscMem => simp [decodeCuUnder, decodeMiscMem, decodedOr_eq_noInstructionNumber, UnnumberedUnder]
  case system =>
    rw [decodeCuUnder]
    split_ifs with hf3 h20 <;> simp [UnnumberedUnder, hf3]
  case load => exact iff_of_false decodeCuUnder_load_ne (not_unnumberedUnder (by decide))
  case store => exact iff_of_false decodeCuUnder_store_ne (not_unnumberedUnder (by decide))
  case opImm => exact iff_of_false decodeCuUnder_opImm_ne (not_unnumberedUnder (by decide))
  case op => exact iff_of_false decodeCuUnder_op_ne (not_unnumberedUnder (by decide))
  all_goals exact iff_of_false Decoded.noConfusion (not_unnumberedUnder (by decide))

/-- The partial decode answers that there is no instruction number exactly for the words without one. -/
theorem decodeCu_eq_noInstructionNumber_iff : decodeCu w = .noInstructionNumber ↔ Unnumbered w := by
  cases hm : majorOf (opcode62Of w) with
  | none => exact iff_of_true (by simp [decodeCu, hm]) (unnumbered_of_no_major hm)
  | some m => rw [decodeCu_of_major hm, decodeCuUnder_eq_noInstructionNumber_iff, unnumbered_iff_of_major hm]

end

end Sys2Proof

namespace Sys2Proof.Machine

section
variable {w : Word} {r : OpcodeRow}

/-! ### The instruction number of a word -/

/-- A word has no number exactly where the table of its major opcode leaves its funct3 out. -/
theorem inumOf_eq_none_iff : inumOf w = none ↔ Unnumbered w := by
  cases hm : majorOf (opcode62Of w) with
  | none => exact iff_of_true (by simp [inumOf, hm]) (unnumbered_of_no_major hm)
  | some m =>
    rw [unnumbered_iff_of_major hm, inumOf, hm, Option.bind_some]
    cases m
    case branch | miscMem | system | opImm | op =>
      rcases funct3_op_cases w with (hf3 | hf3) | hf3 | hf3 | hf3 | hf3 | hf3 | hf3 <;> simp [hf3, UnnumberedUnder]
    all_goals exact iff_of_false (Option.some_ne_none _) (not_unnumberedUnder (by decide))

theorem inumOf_of_upperRow (hr : r ∈ opcodeRowsUpper) (h : r.cuSelects w) : inumOf w = some r.inum := by
  simp only [opcodeRowsUpper, List.mem_cons, List.not_mem_nil, or_false] at hr
  rcases hr with rfl | rfl | rfl | rfl
  all_goals
    have hop := (cuMasked_opcode_iff (by decide)).mp h
    rw [inumOf, hop]
    rfl

/-- The rows told apart by funct3. -/
theorem inumOf_of_branchRow (hr : r ∈ opcodeRowsBranch) (h : r.cuSelects w) : inumOf w = some r.inum := by
  simp only [opcodeRowsBranch, List.mem_cons, List.not_mem_nil, or_false] at hr
  rcases hr with rfl | rfl | rfl | rfl | rfl | rfl
  all_goals
    obtain ⟨hop, hf3⟩ := (cuMasked_funct3_iff (by decide)).mp h
    rw [inumOf, hop, hf3]
    rfl

/-- LOAD and STORE have one number each, whatever funct3. -/
theorem inumOf_load (hop : opcode62Of w = Major.load.code) : inumOf w = some 0x08#8 := by
  rw [inumOf, hop]
  rfl

theorem inumOf_store (hop : opcode62Of w = Major.store.code) : inumOf w = some 0x0C#8 := by
  rw [inumOf, hop]
  rfl

theorem inumOf_of_memoryRow (hr : r ∈ opcodeRowsMemory) (h : r.cuSelects w) : inumOf w = some r.inum := by
  simp only [opcodeRowsMemory, List.mem_cons, List.not_mem_nil, or_false] at hr
  rcases hr with rfl | rfl | rfl | rfl | rfl | rfl | rfl | rfl
  case inr.inr.inl => exact inumOf_load ((cuMasked_wordSize_iff (by decide)).mp h).1
  case inr.inr.inr.inr.inr.inl | inr.inr.inr.inr.inr.inr.inl => exact inumOf_store ((cuMasked_size_iff (by decide)).mp h).1
  case inr.inr.inr.inr.inr.inr.inr => exact inumOf_store ((cuMasked_wordSize_iff (by decide)).mp h).1
  all_goals exact inumOf_load ((cuMasked_funct3_iff (by decide)).mp h).1

theorem inumOf_of_opImmRow (hr : r ∈ opcodeRowsOpImm) (h : r.cuSelects w) : inumOf w = some r.inum := by
  simp only [opcodeRowsOpImm, List.mem_cons, List.not_mem_nil, or_false] at hr
  rcases hr with rfl | rfl | rfl | rfl | rfl | rfl | rfl | hsrl | hsra
  -- The rows of SRLI and SRAI look at bit 30 (R82).
  case inr.inr.inr.inr.inr.inr.inr.inl | inr.inr.inr.inr.inr.inr.inr.inr =>
    subst r
    obtain ⟨hop, hf3, h30⟩ := (cuMasked_bit30_iff (by decide)).mp h
    rw [inumOf, hop, hf3, h30]
    rfl
  all_goals
    obtain ⟨hop, hf3⟩ := (cuMasked_funct3_iff (by decide)).mp h
    rw [inumOf, hop, hf3]
    rfl

theorem inumOf_of_opRow (hr : r ∈ opcodeRowsOp) (h : r.cuSelects w) : inumOf w = some r.inum := by
  simp only [opcodeRowsOp, List.mem_cons, List.not_mem_nil, or_false] at hr
  rcases hr with hadd | hsub | rfl | rfl | rfl | rfl | hsrl | hsra | rfl | rfl
  -- The rows of ADD, SUB, SRL and SRA look at bit 30 (R82).
  case inl | inr.inl | inr.inr.inr.inr.inr.inr.inl | inr.inr.inr.inr.inr.inr.inr.inl =>
    subst r
    obtain ⟨hop, hf3, h30⟩ := (cuMasked_bit30_iff (by decide)).mp h
    rw [inumOf, hop, hf3, h30]
    rfl
  all_goals
    obtain ⟨hop, hf3⟩ := (cuMasked_funct3_iff (by decide)).mp h
    rw [inumOf, hop, hf3]
    rfl

theorem inumOf_of_systemRow (hr : r ∈ opcodeRowsSystem) (h : r.cuSelects w) : inumOf w = some r.inum := by
  simp only [opcodeRowsSystem, List.mem_cons, List.not_mem_nil, or_false] at hr
  rcases hr with rfl | rfl | rfl
  · obtain ⟨hop, hf3⟩ := (cuMasked_funct3_iff (by decide)).mp h
    rw [inumOf, hop, hf3]
    rfl
  all_goals
    obtain ⟨hop, hf3, h20⟩ := (cuMasked_bit20_iff (by decide)).mp h
    rw [inumOf, hop, hf3, h20]
    rfl

theorem inumOf_of_cuSelects (hr : r ∈ opcodeTable) (h : r.cuSelects w) : inumOf w = some r.inum := by
  rcases mem_opcodeTable.mp hr with hr | hr | hr | hr | hr | hr
  · exact inumOf_of_upperRow hr h
  · exact inumOf_of_branchRow hr h
  · exact inumOf_of_memoryRow hr h
  · exact inumOf_of_opImmRow hr h
  · exact inumOf_of_opRow hr h
  · exact inumOf_of_systemRow hr h

end

/-- Settles O54: row by row, and both the number and the partial decode leave out the words of `Unnumbered`. -/
theorem instructionNumbersMatchTable : Obligations.InstructionNumbersMatchTable :=
  ⟨fun _ _ hr h => inumOf_of_cuSelects hr h, fun _ => inumOf_eq_none_iff.trans decodeCu_eq_noInstructionNumber_iff.symm⟩

/-- A word without an instruction number is refused under cu_partial. -/
theorem run_of_unnumbered {s : State} {w : Word} (hmode : s.cfg.decodeMode = .cuPartial) (h : Unnumbered w) :
    s.run w = .refused (.noInstructionNumber w) := by
  have hdecode : decode s.cfg.regCount s.cfg.decodeMode w = .noInstructionNumber := by
    rw [hmode, decode, decodeCu_eq_noInstructionNumber_iff.mpr h, checkRegs]
  rw [State.run, hdecode]

/-- Settles O9: the classes of the statement are those of `Unnumbered`. -/
theorem cuPartialRefusesUnnumberedWords : Obligations.CuPartialRefusesUnnumberedWords := by
  intro s w hhung hmode hfetch hclass
  rw [step_of_fetch_ok hhung hfetch]
  exact run_of_unnumbered hmode hclass

end Sys2Proof.Machine
end

section
/-! The address counter and the ROM (R189, R195, R196). -/

namespace Sys2Proof.Machine

section
variable {cu : ControlUnit} {inum : Option (BitVec 8)} {busy : Bool}

theorem ControlUnit.enable_iff : cu.enable busy = true ↔ romWaitMEM cu.rom = false ∨ busy = false := by
  simp [ControlUnit.enable]

/-- An edge that is not enabled leaves counter and ROM as they are. -/
theorem ControlUnit.tick_of_stalled (he : cu.enable busy = false) : cu.tick inum busy = some cu := by
  simp [ControlUnit.tick, he]

/-- An enabled edge after EOI: ROM position 0x00, the count 0x01. -/
theorem ControlUnit.tick_of_eoi (he : cu.enable busy = true) (hEOI : romEOI cu.rom = true) :
    cu.tick inum busy = (Machine.rom 0x00#8).map fun r => ⟨0x01#8, r⟩ := by
  simp [ControlUnit.tick, he, hEOI, ControlUnit.uAddr, ControlUnit.nextCount]

/-- An enabled edge after EOF: the ROM position of the instruction number, the count one past it. -/
theorem ControlUnit.tick_of_eof (he : cu.enable busy = true) (hEOI : romEOI cu.rom = false) (hEOF : romEOF cu.rom = true) :
    cu.tick inum busy = inum.bind fun n => (Machine.rom n).map fun r => ⟨n + 1#8, r⟩ := by
  cases inum <;> simp [ControlUnit.tick, he, hEOI, hEOF, ControlUnit.uAddr, ControlUnit.nextCount]

/-- Any other enabled edge: the ROM position of the counter, which counts up. -/
theorem ControlUnit.tick_of_count (he : cu.enable busy = true) (hEOI : romEOI cu.rom = false) (hEOF : romEOF cu.rom = false) :
    cu.tick inum busy = (Machine.rom cu.uCycle).map fun r => ⟨cu.uCycle + 1#8, r⟩ := by
  simp [ControlUnit.tick, he, hEOI, hEOF, ControlUnit.uAddr, ControlUnit.nextCount]

/-- The count after an enabled edge that has a next ROM word. -/
theorem ControlUnit.uCycle_of_tick {n : BitVec 8} {t : ControlUnit} (he : cu.enable busy = true) (h : cu.tick (some n) busy = some t) :
    t.uCycle = cu.nextCount n := by
  cases hEOI : romEOI cu.rom with
  | true =>
    rw [ControlUnit.tick_of_eoi he hEOI] at h
    obtain ⟨r, -, rfl⟩ := Option.map_eq_some_iff.mp h
    simp [ControlUnit.nextCount, hEOI]
  | false =>
    cases hEOF : romEOF cu.rom with
    | true =>
      rw [ControlUnit.tick_of_eof he hEOI hEOF] at h
      obtain ⟨r, -, rfl⟩ := Option.map_eq_some_iff.mp h
      simp [ControlUnit.nextCount, hEOI, hEOF]
    | false =>
      rw [ControlUnit.tick_of_count he hEOI hEOF] at h
      obtain ⟨r, -, rfl⟩ := Option.map_eq_some_iff.mp h
      simp [ControlUnit.nextCount, hEOI, hEOF]

/-- The source gives the ROM's positions 0x00 to 0x0F (R190 to R195). -/
theorem rom_isSome_iff : ∀ a : BitVec 8, (rom a).isSome = true ↔ a.toNat < 0x10 := by decide

end

/-- Settles O55: the branches of `nextCount`, which every enabled edge follows. -/
theorem addressCounterAdvances : Obligations.AddressCounterAdvances := by
  refine ⟨rfl, fun _ _ _ => rfl, fun cu n busy => ⟨ControlUnit.enable_iff, ?eoi, ?eof, ?count, fun he inum => ?_, fun he cu' h => ?_⟩⟩
  case eoi | eof | count =>
    intros
    simp [ControlUnit.nextCount, *]
  · rw [ControlUnit.tick_of_stalled he, Option.map_some]
  · exact ControlUnit.uCycle_of_tick he h

/-- Settles O56: the four kinds of edge, and the positions of the ROM. -/
theorem romFollowsBypassedAddress : Obligations.RomFollowsBypassedAddress := by
  refine ⟨fun _ _ _ => rfl, rfl, fun inum busy => ControlUnit.reset_tick busy inum, fun cu inum busy he => ControlUnit.tick_of_stalled he,
    fun cu inum busy he => ⟨ControlUnit.tick_of_eoi he, ControlUnit.tick_of_eof he, ControlUnit.tick_of_count he, rom_isSome_iff⟩⟩

end Sys2Proof.Machine
end

section
/-! The datapath against the instructions (R152, R176 to R184): the ALU's rows, and the pc it forms. -/

namespace Sys2Proof.Machine

section
variable {i : Instr} {r : AluRow} (s : State) (pcReg : Word)

/-- The amount of an immediate shift stands in the low five bits of the I-immediate (R78). -/
theorem shamtOf_immI (w : Word) : shamtOf (immI (immIOf w)) = rs2Of w := by
  apply BitVec.eq_of_getLsbD_eq
  intro k hk
  have h12 : k < 12 := by omega
  have h32 : k < 32 := by omega
  simp only [shamtOf, immI, immIOf, rs2Of, BitVec.getLsbD_extractLsb', BitVec.getLsbD_signExtend]
  simp [hk, h12, h32]

/-- An instruction whose major opcode is OP-IMM, OP, LUI or AUIPC writes back what the ALU makes of its canonical word. -/
theorem exec_eq_writeBack_value (hr : aluRow i = some r) (hmajor : i.major ∈ [Major.opImm, Major.op, Major.lui, Major.auipc]) :
    exec i s = s.writeBack (rdOf (encode i)) (r.value s s.pc (encode i)) := by
  cases i
  case slli | srli | srai =>
    cases hr
    simp [AluRow.value, AluRow.result, Mux1Alu.select, Mux2Alu.select, applySelOp, shamtOf_immI, encode]
    rfl
  case addi | slti | sltiu | xori | ori | andi | add | sub | sll | slt | sltu | xor | srl | sra | or | and | lui | auipc =>
    cases hr
    simp [AluRow.value, AluRow.result, Mux1Alu.select, Mux2Alu.select, applySelOp, encode]
    rfl
  all_goals exact absurd hmajor (by simp [Instr.major])

/-- For an I-format word with the LOAD opcode the ALU's row of loads gives base plus I-immediate. -/
theorem value_of_load (imm : BitVec 12) (rs1 rd : RegNum) (f3 : BitVec 3) (op : BitVec 7) :
    AluRow.value ⟨.rs1, .immI, .add, .operation⟩ s pcReg (encI imm rs1 f3 rd op) = s.effAddr rs1 (immI imm) := by
  simp [AluRow.value, AluRow.result, Mux1Alu.select, Mux2Alu.select, State.effAddr]

/-- For an S-format word the ALU's row of stores gives base plus S-immediate. -/
theorem value_of_store (imm : BitVec 12) (rs2 rs1 : RegNum) (f3 : BitVec 3) (op : BitVec 7) :
    AluRow.value ⟨.rs1, .immS, .add, .operation⟩ s pcReg (encS imm rs2 rs1 f3 op) = s.effAddr rs1 (immS imm) := by
  simp [AluRow.value, AluRow.result, Mux1Alu.select, Mux2Alu.select, State.effAddr]

/-- The row of the jumps passes the PC input on. -/
theorem value_of_jump (w : Word) : AluRow.value ⟨.pc, .rs2, .op1, .operation⟩ s pcReg w = pcReg := rfl

/-- The major opcode of a word that decodes in strict mode is its instruction's. -/
theorem majorOf_of_decodeStrict {w : Word} (h : decodeStrict w = some i) : majorOf (opcode62Of w) = some i.major := by
  rw [← encode_of_decodeStrict h, majorOf_eq_some]
  exact opcode62Of_encode i

end

/-- Settles O52: the word is its instruction's canonical word, of which the row's multiplexers read the operands. -/
theorem aluTableGivesResults : Obligations.AluTableGivesResults := by
  intro s w i r hi hr
  have hmajorOf := majorOf_of_decodeStrict hi
  obtain rfl : encode i = w := encode_of_decodeStrict hi
  refine ⟨?jal, ?jalr, ?load, ?store, fun hmajor => ?result⟩
  case jal =>
    rintro rd off rfl
    cases hr
    exact value_of_jump s _ _
  case jalr =>
    rintro rd rs1 imm rfl
    cases hr
    exact value_of_jump s _ _
  case load =>
    rintro rd rs1 imm (rfl | rfl | rfl | rfl | rfl)
    all_goals cases hr; exact value_of_load s _ imm rs1 rd _ _
  case store =>
    rintro rs2 rs1 imm (rfl | rfl | rfl)
    all_goals cases hr; exact value_of_store s _ imm rs2 rs1 _ _
  case result =>
    rw [hmajorOf] at hmajor
    exact exec_eq_writeBack_value s hr (by simpa using hmajor)

section
variable {i : Instr} {s : State}

/-! ### The pc the datapath forms (R180 to R184) -/

/-- Write-to-PC is active exactly for an instruction that transfers control (R183). -/
theorem wPC_iff_goesTo :
    wPC (branchControl i) (flagsOf (s.reg (rs1Of (encode i))) (s.reg (rs2Of (encode i)))) = true ↔ ∃ target, goesTo s i target := by
  cases i
  case jal | jalr => exact iff_of_true rfl ⟨_, rfl⟩
  case beq | bne | blt | bge | bltu | bgeu => simp [wPC, branchControl, goesTo, branchHolds, flagsOf, encode]
  all_goals exact iff_of_false Bool.false_ne_true fun ⟨_, hgo⟩ => hgo

/-- The target adder on a B-format word: relative to PC, the offset (R182). -/
theorem targetAdder_encB {off : BitVec 13} (heven : off.getLsbD 0 = false) (v pc : Word) (rs2 rs1 : RegNum) (f3 : BitVec 3) (op : BitVec 7) :
    targetAdder false false v pc (encB off rs2 rs1 f3 op) = pc + immB off :=
  congrArg (fun o => pc + immB o) (immBOf_encB off rs2 rs1 f3 op heven)

/-- On a J-format word: relative to PC, the offset (R182). -/
theorem targetAdder_encJ {off : BitVec 21} (heven : off.getLsbD 0 = false) (v pc : Word) (rd : RegNum) (op : BitVec 7) :
    targetAdder false true v pc (encJ off rd op) = pc + immJ off :=
  congrArg (fun o => pc + immJ o) (immJOf_encJ off rd op heven)

/-- On an I-format word: relative to rs1, with bit 0 cleared, the target of JALR (R141). -/
theorem targetAdder_encI (v pc : Word) (imm : BitVec 12) (rs1 : RegNum) (f3 : BitVec 3) (rd : RegNum) (op : BitVec 7) :
    targetAdder true true v pc (encI imm rs1 f3 rd op) = jalrTarget v (immI imm) :=
  congrArg (fun o => jalrTarget v (immI o)) (immIOf_encI imm rs1 f3 rd op)

/-- The target adder forms the target an instruction with an even offset goes to (R182). -/
theorem targetAdder_of_goesTo {target : Word} (heven : i.offsetEven = true) (hgo : goesTo s i target) :
    targetAdder (sel1Pc i) (sel2Pc i) (s.reg (rs1Of (encode i))) s.pc (encode i) = target := by
  cases i
  case jalr rd rs1 imm =>
    have hrs1 : rs1Of (encode (.jalr rd rs1 imm)) = rs1 := rs1Of_encI ..
    rw [hrs1, show target = _ from hgo]
    exact targetAdder_encI _ _ imm rs1 _ rd _
  case jal rd off =>
    have hoff : off.getLsbD 0 = false := by simpa only [Instr.offsetEven, Bool.not_eq_true'] using heven
    exact (targetAdder_encJ hoff _ _ rd _).trans hgo.symm
  case beq rs1 rs2 off | bne rs1 rs2 off | blt rs1 rs2 off | bge rs1 rs2 off | bltu rs1 rs2 off | bgeu rs1 rs2 off =>
    obtain ⟨-, htarget⟩ := hgo
    have hoff : off.getLsbD 0 = false := by simpa only [Instr.offsetEven, Bool.not_eq_true'] using heven
    exact (targetAdder_encB hoff _ _ rs2 rs1 _ _).trans htarget.symm
  all_goals exact hgo.elim

/-- The datapath forms pc + 4 for an instruction that does not transfer control, and else its target. -/
theorem datapathNextPc_encode (heven : i.offsetEven = true) :
    (∀ target, goesTo s i target → datapathNextPc s i (encode i) = target) ∧
      ((∀ target, ¬ goesTo s i target) → datapathNextPc s i (encode i) = s.pc + 4#32) := by
  refine ⟨fun target hgo => ?_, fun hnone => ?_⟩
  · rw [datapathNextPc, wPC_iff_goesTo.mpr ⟨target, hgo⟩, pcRegister_load, targetAdder_of_goesTo heven hgo]
  · have hinactive := Bool.eq_false_iff.mpr (mt (wPC_iff_goesTo (i := i) (s := s)).mp (not_exists.mpr hnone))
    rw [datapathNextPc, hinactive, pcRegister_increment]

/-- A completed instruction and the datapath agree on pc (R24, R184). -/
theorem pc_eq_datapathNextPc {t : State} (heven : i.offsetEven = true) (h : exec i s = .next t) : t.pc = datapathNextPc s i (encode i) := by
  obtain ⟨hgoes, hadvances⟩ := datapathNextPc_encode (s := s) heven
  rcases (exec_effect h).pc with ⟨hnone, hpc⟩ | ⟨hgo, -⟩
  · rw [hpc, hadvances hnone]
  · exact (hgoes _ hgo).symm

/-- No other instruction has JB (R183). -/
theorem wPC_of_other (f : AluFlags) (h : i.mnemonic ∉ ["JALR", "JAL", "BEQ", "BNE", "BLT", "BGE", "BLTU", "BGEU"]) :
    wPC (branchControl i) f = false := by
  cases i
  case jal | jalr | beq | bne | blt | bge | bltu | bgeu => exact absurd h (by simp [Instr.mnemonic])
  all_goals rfl

end

/-- Settles O53: the word is its instruction's canonical word, for which instruction and datapath agree; the table by evaluation. -/
theorem writePcLogicSetsPc : Obligations.WritePcLogicSetsPc := by
  refine ⟨fun s t w i hi h => ?_, fun z n c => ⟨fun _ _ => rfl, fun _ _ _ => rfl, fun rs1 rs2 off => ⟨?_, ?_, ?_, ?_, ?_, ?_, ?_⟩⟩⟩
  · obtain rfl : encode i = w := encode_of_decodeStrict hi
    exact pc_eq_datapathNextPc (decodeStrict_offsetEven hi) h
  case refine_8 => exact fun i hi => wPC_of_other _ hi
  all_goals simp [wPC, branchControl]

end Sys2Proof.Machine
end

section
/-! The hart clock cycle by clock cycle (R190 to R194): what a cycle does under each kind of ROM word. -/

namespace Sys2Proof.Machine

/-! ### What the memory interface shows -/

section
variable {mi : MemInterface} {m : Memory} {req : CpuRequest} {pready : Bool} {prdata : Word}

/-- While an operation is in progress, rdata_o is formed from RDATA as the cycle leaves it (log 19). -/
theorem MemInterface.out_rdata_of_active (hfsm : mi.fsm ≠ .op1A) : (mi.out req pready prdata).rdata = (mi.next req pready prdata).readData := by
  have hregisters : mi.firstCycle = false := decide_eq_false hfsm
  rw [MemInterface.next, hregisters]
  rfl

/-- While the block is idle, rdata_o is what the last read left. -/
theorem MemInterface.out_rdata_of_idle (hfsm : mi.fsm = .op1A) : (mi.out req pready prdata).rdata = mi.readData := by
  cases mi
  cases hfsm
  rfl

/-- Once a request is registered the CPU's inputs do not matter until the block is idle again (R219). -/
theorem MemInterface.cycle_congr (hfsm : mi.fsm ≠ .op1A) (req' : CpuRequest) : mi.cycle m req pready = mi.cycle m req' pready := by
  cases mi with
  | mk _ _ _ _ _ _ _ _ _ fsm =>
    cases fsm
    case op1A => exact absurd rfl hfsm
    all_goals rfl

end

section
variable {m : Micro} {cu : ControlUnit} {pready : Bool} {c : BitVec 8} {r r' : RomWord}

/-- rdata_o in the cycle. -/
def Micro.rdata (m : Micro) (pready : Bool) : Word := (m.mi.out m.request pready (m.hart.mem.prdata (m.mi.bus m.request))).rdata

/-- busy_o in the cycle. -/
def Micro.busy (m : Micro) (pready : Bool) : Bool := m.mi.busy m.request pready

/-- The memory interface and memory after the cycle. -/
def Micro.access (m : Micro) (pready : Bool) : MemInterface × Memory := m.mi.cycle m.hart.mem m.request pready

/-- A cycle whose edge is enabled: IR, the destination register and the PC are written as the ROM word says. -/
theorem Micro.tick_of_enabled (he : m.cu.enable (m.busy pready) = true)
    (hcu : m.cu.tick (inumOf (if romWIR m.cu.rom then m.rdata pready else m.ir)) (m.busy pready) = some cu) :
    m.tick pready = some
      { cu := cu, mi := (m.access pready).1, ir := if romWIR m.cu.rom then m.rdata pready else m.ir
        rs1 := m.readPort (rs1Of m.ir), rs2 := m.readPort (rs2Of m.ir)
        hart :=
          { (if romWRD m.cu.rom then m.writePort (rdOf m.ir) (if romSelRD m.cu.rom then m.rdata pready else m.aluResult)
              else m.hart).setPc m.nextPc with mem := (m.access pready).2 } } := by
  simp only [Micro.busy, Micro.rdata] at he hcu
  simp only [Micro.tick, MemInterface.out, he, Bool.true_and, if_true] at hcu ⊢
  rw [hcu]
  rfl

/-- A cycle whose edge is not enabled: only the memory interface, memory and the register file's outputs move. -/
theorem Micro.tick_of_stalled (he : m.cu.enable (m.busy pready) = false) :
    m.tick pready = some
      { m with mi := (m.access pready).1, rs1 := m.readPort (rs1Of m.ir), rs2 := m.readPort (rs2Of m.ir)
               hart := { m.hart with mem := (m.access pready).2 } } := by
  have hcu (inum : Option (BitVec 8)) : m.cu.tick inum (m.busy pready) = some m.cu := ControlUnit.tick_of_stalled he
  simp only [Micro.busy] at he hcu
  simp only [Micro.tick, MemInterface.out, he, hcu]
  rfl

/-- A ROM word that writes neither IR nor a register nor the PC, and ends no phase. -/
def romQuiet (r : RomWord) : Bool := !romEOI r && !romEOF r && !romJB r && !romWRD r && !romIPC r && !romWIR r

/-- Without JB the PC goes up by 4 under iPC or EOI, and otherwise holds (R184, C2). -/
theorem Micro.nextPc_of_not_JB (hJB : romJB m.cu.rom = false) :
    m.nextPc = if romIPC m.cu.rom || romEOI m.cu.rom then m.hart.pc + 4#32 else m.hart.pc := by
  have hwPC : m.wPC = false := by simp [Micro.wPC, Machine.wPC, hJB]
  rw [Micro.nextPc, hwPC]
  rfl

/-- An enabled cycle under a quiet ROM word goes on to the next position. -/
theorem Micro.tick_of_quiet (hcu : m.cu = ⟨c, r⟩) (hquiet : romQuiet r = true) (hgo : romWaitMEM r = false ∨ m.busy pready = false)
    (hrom : rom c = some r') :
    m.tick pready = some
      { cu := ⟨c + 1#8, r'⟩, mi := (m.access pready).1, ir := m.ir, rs1 := m.readPort (rs1Of m.ir), rs2 := m.readPort (rs2Of m.ir)
        hart := { m.hart with mem := (m.access pready).2 } } := by
  simp only [romQuiet, Bool.and_eq_true, Bool.not_eq_true'] at hquiet
  obtain ⟨⟨⟨⟨⟨hEOI, hEOF⟩, hJB⟩, hWRD⟩, hIPC⟩, hWIR⟩ := hquiet
  obtain rfl : m.cu.rom = r := congrArg ControlUnit.rom hcu
  obtain rfl : m.cu.uCycle = c := congrArg ControlUnit.uCycle hcu
  have he : m.cu.enable (m.busy pready) = true := ControlUnit.enable_iff.mpr hgo
  rw [Micro.tick_of_enabled he ((ControlUnit.tick_of_count he hEOI hEOF).trans (by rw [hrom]; rfl)), Micro.nextPc_of_not_JB hJB, hWRD, hWIR,
    hIPC, hEOI]
  rfl

/-- An enabled cycle under an EOI word without wRD ends the instruction: a fetch begins, and the PC has gone up by 4. -/
theorem Micro.tick_of_eoi (hcu : m.cu.rom = r) (hEOI : romEOI r = true) (hplain : (romJB r || romWIR r) = false)
    (hgo : romWaitMEM r = false ∨ m.busy pready = false) :
    m.tick pready = some
      { cu := ControlUnit.released, mi := (m.access pready).1, ir := m.ir, rs1 := m.readPort (rs1Of m.ir), rs2 := m.readPort (rs2Of m.ir)
        hart :=
          { (if romWRD r then m.writePort (rdOf m.ir) (if romSelRD r then m.rdata pready else m.aluResult)
              else m.hart).setPc (m.hart.pc + 4#32) with mem := (m.access pready).2 } } := by
  obtain ⟨hJB, hWIR⟩ := Bool.or_eq_false_iff.mp hplain
  subst hcu
  have he : m.cu.enable (m.busy pready) = true := ControlUnit.enable_iff.mpr hgo
  rw [Micro.tick_of_enabled he (ControlUnit.tick_of_eoi he hEOI), Micro.nextPc_of_not_JB hJB, hWIR, hEOI, Bool.or_true]
  rfl

/-- An enabled cycle under an EOF word writes IR, and goes on to the position of the instruction number of what it writes. -/
theorem Micro.tick_of_eof {n : BitVec 8} (hcu : m.cu.rom = 0x40000011#32) (hgo : m.busy pready = false)
    (hinum : inumOf (m.rdata pready) = some n) (hrom : rom n = some r) :
    m.tick pready = some
      { cu := ⟨n + 1#8, r⟩, mi := (m.access pready).1, ir := m.rdata pready, rs1 := m.readPort (rs1Of m.ir)
        rs2 := m.readPort (rs2Of m.ir), hart := { m.hart with mem := (m.access pready).2 } } := by
  have he : m.cu.enable (m.busy pready) = true := ControlUnit.enable_iff.mpr (.inr hgo)
  have hEOI : romEOI m.cu.rom = false := by rw [hcu]; decide
  have hEOF : romEOF m.cu.rom = true := by rw [hcu]; decide
  have hJB : romJB m.cu.rom = false := by rw [hcu]; decide
  have hIPC : romIPC m.cu.rom = false := by rw [hcu]; decide
  have hWRD : romWRD m.cu.rom = false := by rw [hcu]; decide
  have hWIR : romWIR m.cu.rom = true := by rw [hcu]; decide
  rw [Micro.tick_of_enabled he ((ControlUnit.tick_of_eof he hEOI hEOF).trans (by rw [hWIR, if_pos rfl, hinum, Option.bind_some, hrom]; rfl)),
    Micro.nextPc_of_not_JB hJB, hWRD, hWIR, hIPC, hEOI]
  rfl

/-! ### Runs of cycles -/

theorem Micro.ticks_one (m : Micro) : Micro.ticks 1 m = m.tick true := by
  cases h : m.tick true <;> simp [Micro.ticks, h]

/-- A run goes on where another ends. -/
theorem Micro.ticks_add (a b : Nat) (m : Micro) : Micro.ticks (a + b) m = (Micro.ticks a m).bind (Micro.ticks b) := by
  induction a generalizing m with
  | zero => rw [Nat.zero_add]; rfl
  | succ a ih =>
    have hsucc (n : Nat) : Micro.ticks (n + 1) m = (m.tick true).bind (Micro.ticks n) := rfl
    rw [Nat.add_right_comm, hsucc, hsucc, Option.bind_assoc]
    exact Option.bind_congr fun t _ => ih t

theorem Micro.ticks_trans {a b : Nat} {t u : Micro} (ha : Micro.ticks a m = some t) (hb : Micro.ticks b t = some u) :
    Micro.ticks (a + b) m = some u := by
  rw [Micro.ticks_add, ha, Option.bind_some, hb]

/-! ### A memory access in progress -/

/-- The cycle is the last one of an access that leaves the interface and memory as `after`: busy falls. -/
structure Micro.LastCycle (m : Micro) (after : MemInterface × Memory) : Prop where
  active : m.mi.fsm ≠ .op1A
  done : m.busy true = false
  access : m.access true = after

/-- rdata_o shows in the last cycle already what the access leaves in RDATA. -/
theorem Micro.LastCycle.rdata_eq {after : MemInterface × Memory} (h : m.LastCycle after) : m.rdata true = after.1.readData := by
  rw [← h.access]
  exact MemInterface.out_rdata_of_active h.active

/-- How many cycles the second operation of an access of `n` bytes at `a` adds to the run (R271). -/
def extraCycles (a : Word) (n : Nat) : Nat := if firstOpBytes a n < n then 2 else 0

theorem extraCycles_of_single {a : Word} {size : BitVec 2} (h : secondOpRequired (byteStrb size (alignmentOf a)) = false) :
    extraCycles a (sizeBytes size) = 0 := by
  refine if_neg fun hlt => ?_
  rw [firstOpBytes_eq, ← secondOpRequired_iff_min_lt, h] at hlt
  exact Bool.false_ne_true hlt

theorem extraCycles_of_split {a : Word} {size : BitVec 2} (h : secondOpRequired (byteStrb size (alignmentOf a)) = true) :
    extraCycles a (sizeBytes size) = 2 :=
  if_pos ((secondOpRequired_iff_min_lt size (alignmentOf a)).mp h)

/-- While a position waits for an access of two operations, two cycles lead to the last one: of the first operation, and op2A. -/
theorem Micro.ticks_to_second {mi : MemInterface} {req : CpuRequest} (hwait : romWaitMEM m.cu.rom = true) (hmi : m.mi = mi.begun req)
    (htwo : secondOpRequired (byteStrb req.size (alignmentOf req.addr)) = true) :
    ∃ t, Micro.ticks 2 m = some t ∧ t.cu = m.cu ∧ t.ir = m.ir ∧ t.mi = mi.second m.hart.mem req req ∧
      t.hart = { m.hart with mem := (mi.firstDone m.hart.mem req req).2 } := by
  have hstalled {u : Micro} (hcu : u.cu = m.cu) (hbusy : u.busy true = true) : u.cu.enable (u.busy true) = false := by
    rw [hcu, hbusy, ControlUnit.enable, hwait]
    rfl
  have haccess : m.access true = mi.firstDone m.hart.mem req req := by
    rw [Micro.access, hmi]
    exact MemInterface.cycle_congr MiState.noConfusion req
  have hbusy : m.busy true = true := by
    rw [Micro.busy, hmi]
    exact Bool.or_eq_true_iff.mpr (.inl htwo)
  have hfirst := Micro.tick_of_stalled (hstalled rfl hbusy)
  rw [haccess] at hfirst
  have hop2A : (mi.firstDone m.hart.mem req req).1.fsm = .op2A := by simp [MemInterface.firstDone_fst, htwo]
  refine ⟨_, Micro.ticks_trans (a := 1) ((Micro.ticks_one m).trans hfirst) ((Micro.ticks_one _).trans (Micro.tick_of_stalled (hstalled rfl ?_))),
    rfl, rfl, ?_, ?_⟩
  · simp only [Micro.busy, MemInterface.busy, hop2A]
  · exact MemInterface.next_of_op2A hop2A
  · simp only [Micro.access, MemInterface.cycle]
    rw [Memory.slave_of_idle]
    simp [MemInterface.bus, hop2A, MemInterface.bus2]

/-- While a position waits for an access, its last cycle comes at once, or after the second operation has begun. -/
theorem Micro.exists_lastCycle {mi : MemInterface} {req : CpuRequest} (hwait : romWaitMEM m.cu.rom = true) (hmi : m.mi = mi.begun req) :
    ∃ t, Micro.ticks (extraCycles req.addr (sizeBytes req.size)) m = some t ∧ t.cu = m.cu ∧ t.ir = m.ir ∧
      (∃ mem, t.hart = { m.hart with mem := mem }) ∧ t.LastCycle (mi.requestDone m.hart.mem req req) := by
  cases htwo : secondOpRequired (byteStrb req.size (alignmentOf req.addr)) with
  | false =>
    refine ⟨m, by rw [extraCycles_of_single htwo]; rfl, rfl, rfl, ⟨m.hart.mem, rfl⟩, ?_, ?_, ?_⟩
    · rw [hmi]; exact MiState.noConfusion
    · rw [Micro.busy, hmi]; exact Bool.or_eq_false_iff.mpr ⟨htwo, rfl⟩
    · rw [Micro.access, hmi, MemInterface.requestDone, htwo]
      exact MemInterface.cycle_congr MiState.noConfusion req
  | true =>
    obtain ⟨t, ht, hcu, hir, htmi, hhart⟩ := Micro.ticks_to_second hwait hmi htwo
    refine ⟨t, by rw [extraCycles_of_split htwo]; exact ht, hcu, hir, ⟨_, hhart⟩, ?_, ?_, ?_⟩
    · rw [htmi]; exact MiState.noConfusion
    · rw [Micro.busy, htmi]; rfl
    · rw [Micro.access, htmi, hhart, MemInterface.requestDone, htwo]
      exact MemInterface.cycle_congr MiState.noConfusion req

/-! ### The phases of an instruction -/

theorem Micro.request_rd : m.request.rd = romRD m.cu.rom := rfl
theorem Micro.request_wr : m.request.wr = romWR m.cu.rom := rfl

/-- A ROM word that requests hands its request to the idle interface; memory does not move yet. -/
theorem Micro.access_of_request (hreq : (romRD m.cu.rom || romWR m.cu.rom) = true) (hfsm : m.mi.fsm = .op1A) :
    m.access pready = (m.mi.begun m.request, m.hart.mem) := by
  have hbus : (m.mi.bus m.request).penable = false := by rw [MemInterface.bus, hfsm]; rfl
  rw [Micro.access, MemInterface.cycle, MemInterface.next_of_request hfsm hreq, Memory.slave_of_idle _ _ _ (by rw [hbus]; rfl)]

/-- A ROM word that requests nothing leaves the idle interface idle, and memory alone. -/
theorem Micro.access_of_no_request (hreq : (romRD m.cu.rom || romWR m.cu.rom) = false) (hfsm : m.mi.fsm = .op1A) :
    m.access pready = (m.mi.register m.request, m.hart.mem) := by
  have hbus : (m.mi.bus m.request).penable = false := by rw [MemInterface.bus, hfsm]; rfl
  rw [Micro.access, MemInterface.cycle, MemInterface.next_of_no_request hfsm hreq, Memory.slave_of_idle _ _ _ (by rw [hbus]; rfl)]

/-- A position that requests, followed by one that waits: one cycle hands the request to the idle interface, and the last cycle of the access comes
at once or two cycles later. -/
theorem Micro.exists_access (hcu : m.cu = ⟨c, r⟩) (hquiet : romQuiet r = true) (hgo : romWaitMEM r = false)
    (hreq : (romRD r || romWR r) = true) (hrom : rom c = some r') (hwait : romWaitMEM r' = true) (hfsm : m.mi.fsm = .op1A) :
    ∃ t, Micro.ticks (1 + extraCycles m.request.addr (sizeBytes m.request.size)) m = some t ∧ t.cu = ⟨c + 1#8, r'⟩ ∧ t.ir = m.ir ∧
      (∃ mem, t.hart = { m.hart with mem := mem }) ∧ t.LastCycle (m.mi.requestDone m.hart.mem m.request m.request) := by
  have hbegun : ∃ u, m.tick true = some u ∧ u.cu = ⟨c + 1#8, r'⟩ ∧ u.mi = m.mi.begun m.request ∧ u.ir = m.ir ∧ u.hart = m.hart := by
    have htick := Micro.tick_of_quiet hcu hquiet (.inl hgo) hrom (pready := true)
    rw [Micro.access_of_request (by rw [hcu]; exact hreq) hfsm] at htick
    exact ⟨_, htick, rfl, rfl, rfl, rfl⟩
  obtain ⟨u, hu, hucu, humi, huir, huhart⟩ := hbegun
  obtain ⟨t, ht, htcu, htir, hthart, hlast⟩ := Micro.exists_lastCycle (by rw [hucu]; exact hwait) humi
  rw [huhart] at hthart hlast
  exact ⟨t, Micro.ticks_trans ((Micro.ticks_one m).trans hu) ht, htcu.trans hucu, htir.trans huir, hthart, hlast⟩

/-- A position that requests nothing leaves the idle interface idle: only the register file delivers its operands (R193, R265). -/
theorem Micro.exists_tick_of_idle (pready : Bool) (hcu : m.cu = ⟨c, r⟩) (hquiet : romQuiet r = true) (hgo : romWaitMEM r = false)
    (hreq : (romRD r || romWR r) = false) (hrom : rom c = some r') (hfsm : m.mi.fsm = .op1A) :
    ∃ t, m.tick pready = some t ∧ t.cu = ⟨c + 1#8, r'⟩ ∧ t.mi.fsm = .op1A ∧ t.ir = m.ir ∧ t.rs1 = m.readPort (rs1Of m.ir) ∧
      t.rs2 = m.readPort (rs2Of m.ir) ∧ t.hart = m.hart := by
  have htick := Micro.tick_of_quiet hcu hquiet (.inl hgo) hrom (pready := pready)
  rw [Micro.access_of_no_request (by rw [hcu]; exact hreq) hfsm] at htick
  exact ⟨_, htick, rfl, hfsm, rfl, rfl, rfl, rfl⟩

/-- The edge that releases a reset begins the first cycle of a fetch, and changes neither the hart nor IR (R30, R262). -/
theorem Micro.exists_tick_of_reset (pready : Bool) (hcu : m.cu = ControlUnit.reset) (hfsm : m.mi.fsm = .op1A) :
    ∃ t, m.tick pready = some t ∧ t.atFetch ∧ t.hart = m.hart ∧ t.ir = m.ir := by
  obtain ⟨t, ht, htcu, htfsm, hir, -, -, hhart⟩ :=
    Micro.exists_tick_of_idle pready (c := 0x00#8) (r' := 0x00000006#32) hcu (by decide) (by decide) (by decide) rfl hfsm
  exact ⟨t, ht, ⟨by rw [htcu], by rw [htcu]; rfl, htfsm⟩, hhart, hir⟩

/-! ### The fetch (R190) -/

/-- In the first cycle of a fetch the hart asks for a read of the word at pc. -/
theorem Micro.request_of_atFetch (h : m.atFetch) :
    m.request.rd = true ∧ m.request.wr = false ∧ m.request.addr = m.hart.pc ∧ m.request.size = 0b10#2 := by
  obtain ⟨hrom, -, -⟩ := h
  simp only [Micro.request, hrom]
  exact ⟨by decide, by decide, if_pos (by decide), if_pos (by decide)⟩

/-- An aligned word takes one operation (R46). -/
theorem extraCycles_of_aligned {a : Word} (halign : a.extractLsb' 0 2 = 0#2) : extraCycles a 4 = 0 :=
  if_neg fun hlt => (firstOpBytes_four_lt_iff a).mp hlt halign

/-- A word read shows as it stands in memory. -/
theorem readValue_word (s : State) (a : Word) (zeroExt : Bool) :
    s.mem.readValue a 0b10#2 zeroExt = leWord ((accessAddrs a 4).map s.byte) := rfl

/-- The two cycles of a fetch at an aligned pc: IR holds the word at pc, and the ROM delivers the position of its number. -/
theorem Micro.exists_fetch {n : BitVec 8} {w : Word} (h : m.atFetch) (halign : m.hart.pc.extractLsb' 0 2 = 0#2)
    (hw : leWord ((accessAddrs m.hart.pc 4).map m.hart.byte) = w) (hinum : inumOf w = some n) (hrom : rom n = some r) :
    ∃ t, Micro.ticks 2 m = some t ∧ t.cu = ⟨n + 1#8, r⟩ ∧ t.mi.fsm = .op1A ∧ t.ir = w ∧ t.hart = m.hart := by
  obtain ⟨-, hwr, haddr, hsize⟩ := Micro.request_of_atFetch h
  obtain ⟨hword, hcount, hfsm⟩ := h
  have hcu : m.cu = ⟨0x01#8, 0x00000006#32⟩ := by rw [← hword, ← hcount]
  obtain ⟨u, hu, hucu, -, ⟨mem, hmem⟩, hlast⟩ :=
    Micro.exists_access (r' := 0x40000011#32) hcu (by decide) (by decide) (by decide) rfl (by decide) hfsm
  have hextra : extraCycles m.request.addr (sizeBytes m.request.size) = 0 := by
    rw [haddr, hsize]
    exact extraCycles_of_aligned halign
  have hdata : u.rdata true = w := by
    rw [hlast.rdata_eq, MemInterface.readData_requestDone hwr, haddr, hsize, readValue_word, hw]
  have htick := Micro.tick_of_eof (by rw [hucu]) hlast.done (by rw [hdata]; exact hinum) hrom
  rw [hlast.access, hdata, MemInterface.requestDone_mem_of_read hwr, hmem] at htick
  rw [hextra] at hu
  exact ⟨_, Micro.ticks_trans hu ((Micro.ticks_one u).trans htick), rfl, MemInterface.requestDone_fsm, rfl, rfl⟩

/-! ### FENCE, LOAD and STORE after their fetch (R191, R193, R194) -/

/-- FENCE takes one cycle more: a fetch begins, and only pc has changed. -/
theorem Micro.exists_fence (hcu : m.cu = ⟨0x05#8, 0x80000000#32⟩) (hfsm : m.mi.fsm = .op1A) :
    ∃ t, Micro.ticks 1 m = some t ∧ t.atFetch ∧ t.hart = m.hart.advance := by
  have htick := Micro.tick_of_eoi (congrArg ControlUnit.rom hcu) (by decide) (by decide) (.inl (by decide)) (pready := true)
  rw [Micro.access_of_no_request (by rw [hcu]; decide) hfsm] at htick
  exact ⟨_, (Micro.ticks_one m).trans htick, ⟨rfl, rfl, hfsm⟩, rfl⟩

/-- The request of LOAD's second position: a read at rs1 plus I-immediate, with size and sign from funct3. -/
theorem Micro.request_of_load (hrom : m.cu.rom = 0x00001004#32) :
    m.request = ⟨true, false, m.rs1 + immI (immIOf m.ir), (funct3Of m.ir).extractLsb' 0 2, (funct3Of m.ir).getLsbD 2, m.rs2⟩ := by
  have hresult : m.aluResult = m.rs1 + immI (immIOf m.ir) := by
    have hselop : romSelop 0x00001004#32 = 0b0000#4 := by decide
    have hmux1 : Mux1Alu.ofCode (romSel1ALU 0x00001004#32) = .rs1 := by decide
    have hmux2 : Mux2Alu.ofCode (romSel2ALU 0x00001004#32) = .immI := by decide
    rw [Micro.aluResult, Micro.aluOp1, Micro.aluOp2, hrom, hselop, hmux1, hmux2, selOpOf_zero, applySelOp_add]
    rfl
  have hIDMEM : romIDMEM 0x00001004#32 = false := by decide
  simp only [Micro.request, hrom, hresult, hIDMEM]
  rfl

/-- The request of STORE's second position: a write of rs2 at rs1 plus S-immediate, with size from funct3. -/
theorem Micro.request_of_store (hrom : m.cu.rom = 0x00003008#32) :
    m.request = ⟨false, true, m.rs1 + immS (immSOf m.ir), (funct3Of m.ir).extractLsb' 0 2, (funct3Of m.ir).getLsbD 2, m.rs2⟩ := by
  have hresult : m.aluResult = m.rs1 + immS (immSOf m.ir) := by
    have hselop : romSelop 0x00003008#32 = 0b0000#4 := by decide
    have hmux1 : Mux1Alu.ofCode (romSel1ALU 0x00003008#32) = .rs1 := by decide
    have hmux2 : Mux2Alu.ofCode (romSel2ALU 0x00003008#32) = .immS := by decide
    rw [Micro.aluResult, Micro.aluOp1, Micro.aluOp2, hrom, hselop, hmux1, hmux2, selOpOf_zero, applySelOp_add]
    rfl
  have hIDMEM : romIDMEM 0x00003008#32 = false := by decide
  simp only [Micro.request, hrom, hresult, hIDMEM]
  rfl

/-- The last cycle of a LOAD writes to rd what the read left, and a fetch begins. -/
theorem Micro.exists_writeBack (hrom : m.cu.rom = 0x800000C0#32) (hfsm : m.mi.fsm = .op1A) :
    ∃ t, Micro.ticks 1 m = some t ∧ t.atFetch ∧ t.hart = (m.writePort (rdOf m.ir) m.mi.readData).advance := by
  have htick := Micro.tick_of_eoi hrom (by decide) (by decide) (.inl (by decide)) (pready := true)
  have hWRD : romWRD 0x800000C0#32 = true := by decide
  have hselRD : romSelRD 0x800000C0#32 = true := by decide
  have hdata : m.rdata true = m.mi.readData := MemInterface.out_rdata_of_idle hfsm
  rw [Micro.access_of_no_request (by rw [hrom]; decide) hfsm, hWRD, hselRD, if_pos rfl, if_pos rfl, hdata] at htick
  refine ⟨_, (Micro.ticks_one m).trans htick, ⟨rfl, rfl, hfsm⟩, ?_⟩
  have hpc : (m.writePort (rdOf m.ir) m.mi.readData).pc = m.hart.pc := setReg_pc ..
  have hmem : (m.writePort (rdOf m.ir) m.mi.readData).mem = m.hart.mem := setReg_mem ..
  rw [State.advance, hpc, ← hmem]
  rfl

/-- LOAD after its fetch: operands, request, access, and the value to rd (R193). -/
theorem Micro.exists_load {a : Word} {size : BitVec 2} (hcu : m.cu = ⟨0x09#8, 0x00000000#32⟩) (hfsm : m.mi.fsm = .op1A)
    (ha : a = m.readPort (rs1Of m.ir) + immI (immIOf m.ir)) (hsize : size = (funct3Of m.ir).extractLsb' 0 2) :
    ∃ t, Micro.ticks (4 + extraCycles a (sizeBytes size)) m = some t ∧ t.atFetch ∧
      t.hart = (m.writePort (rdOf m.ir) (m.hart.mem.readValue a size ((funct3Of m.ir).getLsbD 2))).advance := by
  obtain ⟨u, hu, hucu, hufsm, huir, hurs1, -, huhart⟩ :=
    Micro.exists_tick_of_idle true (r' := 0x00001004#32) hcu (by decide) (by decide) (by decide) rfl hfsm
  obtain ⟨v, hv, hvcu, hvir, ⟨mem, hvhart⟩, hlast⟩ :=
    Micro.exists_access (r' := 0x00000001#32) hucu (by decide) (by decide) (by decide) rfl (by decide) hufsm
  have hrequest : u.request = ⟨true, false, a, size, (funct3Of m.ir).getLsbD 2, u.rs2⟩ := by
    rw [Micro.request_of_load (by rw [hucu]), hurs1, huir, ha, hsize]
  obtain ⟨x, hx, hxrom, hxmi, hxir, hxhart⟩ : ∃ x, v.tick true = some x ∧ x.cu.rom = 0x800000C0#32 ∧
      x.mi = (u.mi.requestDone m.hart.mem u.request u.request).1 ∧ x.ir = m.ir ∧ x.hart = m.hart := by
    have htick := Micro.tick_of_quiet hvcu (by decide) (.inr hlast.done) (r' := 0x800000C0#32) rfl
    rw [hlast.access, MemInterface.requestDone_mem_of_read (by rw [hrequest]), hvhart, huhart, hvir, huir] at htick
    exact ⟨_, htick, rfl, rfl, rfl, rfl⟩
  obtain ⟨t, ht, hfetch, hthart⟩ := Micro.exists_writeBack hxrom (by rw [hxmi]; exact MemInterface.requestDone_fsm)
  have hdata : x.mi.readData = m.hart.mem.readValue a size ((funct3Of m.ir).getLsbD 2) := by
    rw [hxmi, MemInterface.readData_requestDone (by rw [hrequest]), hrequest]
  have hwrite : x.writePort (rdOf x.ir) x.mi.readData = m.writePort (rdOf m.ir) (m.hart.mem.readValue a size ((funct3Of m.ir).getLsbD 2)) := by
    rw [Micro.writePort, hdata, hxir, hxhart]
    rfl
  have hextra : extraCycles u.request.addr (sizeBytes u.request.size) = extraCycles a (sizeBytes size) := by rw [hrequest]
  have hcycles : 4 + extraCycles a (sizeBytes size) = 1 + (1 + extraCycles u.request.addr (sizeBytes u.request.size) + (1 + 1)) := by omega
  refine ⟨t, ?_, hfetch, by rw [hthart, hwrite]⟩
  rw [hcycles]
  exact Micro.ticks_trans ((Micro.ticks_one m).trans hu) (Micro.ticks_trans hv (Micro.ticks_trans ((Micro.ticks_one v).trans hx) ht))

/-- STORE after its fetch: operands, request, and access (R194). -/
theorem Micro.exists_store {a : Word} {size : BitVec 2} (hcu : m.cu = ⟨0x0D#8, 0x00000000#32⟩) (hfsm : m.mi.fsm = .op1A)
    (ha : a = m.readPort (rs1Of m.ir) + immS (immSOf m.ir)) (hsize : size = (funct3Of m.ir).extractLsb' 0 2) :
    ∃ t, Micro.ticks (3 + extraCycles a (sizeBytes size)) m = some t ∧ t.atFetch ∧
      t.hart = (m.hart.written a (sizeBytes size) (m.readPort (rs2Of m.ir))).advance := by
  obtain ⟨u, hu, hucu, hufsm, huir, hurs1, hurs2, huhart⟩ :=
    Micro.exists_tick_of_idle true (r' := 0x00003008#32) hcu (by decide) (by decide) (by decide) rfl hfsm
  obtain ⟨v, hv, hvcu, hvir, ⟨mem, hvhart⟩, hlast⟩ :=
    Micro.exists_access (r' := 0x80000001#32) hucu (by decide) (by decide) (by decide) rfl (by decide) hufsm
  have hrequest : u.request = ⟨false, true, a, size, (funct3Of m.ir).getLsbD 2, m.readPort (rs2Of m.ir)⟩ := by
    rw [Micro.request_of_store (by rw [hucu]), hurs1, hurs2, huir, ha, hsize]
  have htick := Micro.tick_of_eoi (congrArg ControlUnit.rom hvcu) (by decide) (by decide) (.inr hlast.done)
  have hWRD : romWRD 0x80000001#32 = false := by decide
  rw [hlast.access, MemInterface.requestDone_mem_of_write (by rw [hrequest]), hvhart, huhart, hrequest, hWRD] at htick
  have hextra : extraCycles u.request.addr (sizeBytes u.request.size) = extraCycles a (sizeBytes size) := by rw [hrequest]
  have hcycles : 3 + extraCycles a (sizeBytes size) = 1 + (1 + extraCycles u.request.addr (sizeBytes u.request.size) + 1) := by omega
  rw [hcycles]
  exact ⟨_, Micro.ticks_trans ((Micro.ticks_one m).trans hu) (Micro.ticks_trans hv ((Micro.ticks_one v).trans htick)),
    ⟨rfl, rfl, MemInterface.requestDone_fsm⟩, rfl⟩

end

/-! ### The reset input -/

/-- A reset leaves the invariant if memory, x0's slot and RESET_PC are sound: it is the state after a power-on reset. -/
theorem rst_inv {s : State} (hmem : s.mem.wf = true) (hx0 : s.x[0] = 0#32) (hcfg : s.cfg.WF) : s.rst.Inv := by
  obtain ⟨-, -, heven, haligned, hwf, -⟩ := resetWith_inv s.cfg s.x s.mem hcfg hmem
  exact ⟨hmem, hx0, heven, haligned, hwf, rfl⟩

/-- Held in reset, nothing is requested (R266). -/
theorem Micro.request_of_rst (m : Micro) : m.rst.request.rd = false ∧ m.rst.request.wr = false := by
  rw [Micro.request_rd, Micro.request_wr, Micro.rst_cu]
  decide

/-- Settles O50: a reset is the state after a power-on reset with what registers and memory hold, and its release begins a fetch. -/
theorem runningResetKeepsRegistersAndMemory : Obligations.RunningResetKeepsRegistersAndMemory := by
  refine ⟨fun s => ⟨rfl, rfl, fun _ => rfl, fun _ => rfl, rfl, rst_inv⟩, fun m => ?_⟩
  obtain ⟨hrd, hwr⟩ := Micro.request_of_rst m
  refine ⟨rfl, rfl, rfl, rfl, hrd, hwr, fun pready landed => ⟨rfl, rfl, ?_⟩⟩
  obtain ⟨t, ht, hfetch, hhart, hir⟩ := Micro.exists_tick_of_reset (m := m.rst) pready rfl rfl
  obtain ⟨htrd, htwr, htaddr, -⟩ := Micro.request_of_atFetch hfetch
  exact ⟨t, ht, hfetch, hhart, hir, htrd, htwr, by rw [htaddr, hhart]; rfl⟩

end Sys2Proof.Machine
end

section
/-! Decoded loads, stores and FENCE as the control unit sees them (R79, R82, R188), in either decode mode. -/

namespace Sys2Proof

section
variable {n : RegCount} {mode : DecodeMode} {w : Word} {i : Instr}

/-- A word that decodes in either mode decodes under the control unit's rules (O6). -/
theorem decodeCu_of_decode (h : decode n mode w = .instr i) : decodeCu w = .instr i := by
  have hcu : decode n .cuPartial w = .instr i := by
    cases mode with
    | strict => exact cuPartialExtendsStrict n w i h
    | cuPartial => exact h
  exact (checkRegs_eq_instr.mp hcu).1

/-- The control unit's table of a major opcode answers instructions of that major opcode only. -/
theorem major_of_decodeCuUnder {m : Major} (h : decodeCuUnder m w = .instr i) : i.major = m := by
  cases m
  case lui | auipc | jal | jalr => cases h; rfl
  case branch =>
    have hi := decodedOr_eq_instr.mp h
    unfold decodeBranch at hi
    split at hi <;> cases hi <;> rfl
  case load =>
    rw [decodeCuUnder] at h
    split at h
    · cases h; rfl
    · have hi := decodedOr_eq_instr.mp h
      unfold decodeLoad at hi
      split at hi <;> cases hi <;> rfl
  case opImm =>
    have hi := decodedOr_eq_instr.mp h
    split at hi
    · unfold decodeShiftCu at hi
      split_ifs at hi <;> cases hi <;> rfl
    · unfold decodeOpImmPlain at hi
      split at hi <;> cases hi <;> rfl
  case op =>
    have hi := decodedOr_eq_instr.mp h
    unfold decodeOpCu at hi
    repeat' split at hi
    all_goals cases hi; rfl
  case miscMem =>
    have hi := decodedOr_eq_instr.mp h
    unfold decodeMiscMem at hi
    split at hi <;> cases hi
    rfl
  case store | system =>
    simp only [decodeCuUnder] at h
    split_ifs at h <;> cases h <;> rfl
  case custom0 | custom1 | custom2 | custom3 => cases h

/-- A word that decodes has the major opcode of its instruction, whose table decodes it. -/
theorem decodeCuUnder_of_decode (h : decode n mode w = .instr i) : opcode62Of w = i.major.code ∧ decodeCuUnder i.major w = .instr i := by
  obtain ⟨m, hop, hi⟩ := decodeCu_eq_instr.mp (decodeCu_of_decode h)
  rw [major_of_decodeCuUnder hi]
  exact ⟨hop, hi⟩

end

end Sys2Proof

namespace Sys2Proof.Machine

section
variable {n : RegCount} {mode : DecodeMode} {w : Word} {i : Instr}

/-- The registers a decoded instruction names are those the ports select for its fields (R3, R90). -/
theorem portOf_of_decode {r : RegNum} (h : decode n mode w = .instr i) (hr : r ∈ i.regs) : portOf n r = r := by
  cases n with
  | rv32i => rfl
  | rv32e =>
    obtain ⟨-, hexist⟩ := checkRegs_eq_instr.mp h
    exact portOf_of_lt _ _ (regsExist_rv32e.mp hexist r hr)

/-- The access of a load or store: its base register, its displacement and its number of bytes (R110, R155). -/
def accessOf : Instr → Option (RegNum × Word × Nat)
  | .lb _ rs1 imm | .lbu _ rs1 imm => some (rs1, immI imm, 1)
  | .lh _ rs1 imm | .lhu _ rs1 imm => some (rs1, immI imm, 2)
  | .lw _ rs1 imm => some (rs1, immI imm, 4)
  | .sb _ rs1 imm => some (rs1, immS imm, 1)
  | .sh _ rs1 imm => some (rs1, immS imm, 2)
  | .sw _ rs1 imm => some (rs1, immS imm, 4)
  | _ => none

/-- The size code of a LOAD or STORE word (R201). -/
def sizeCode (w : Word) : BitVec 2 := (funct3Of w).extractLsb' 0 2

/-- A word that is a load: the instruction reads its fields, and its width and extension are those of its size code and unsigned bit. -/
structure LoadWord (w : Word) (i : Instr) : Prop where
  exec_eq : ∀ s, exec i s =
    s.load (rdOf w) (rs1Of w) (immIOf w) (sizeBytes (sizeCode w)) (extendRead (sizeCode w) ((funct3Of w).getLsbD 2))
  regs_eq : i.regs = [rdOf w, rs1Of w]
  access_eq : accessOf i = some (rs1Of w, immI (immIOf w), sizeBytes (sizeCode w))

/-- A word that is a store. -/
structure StoreWord (w : Word) (i : Instr) : Prop where
  exec_eq : ∀ s, exec i s = s.store (rs2Of w) (rs1Of w) (immSOf w) (sizeBytes (sizeCode w))
  regs_eq : i.regs = [rs1Of w, rs2Of w]
  access_eq : accessOf i = some (rs1Of w, immS (immSOf w), sizeBytes (sizeCode w))

/-- Every value of funct3. -/
theorem funct3_cases (w : Word) :
    (funct3Of w = 0b000#3 ∨ funct3Of w = 0b001#3 ∨ funct3Of w = 0b100#3 ∨ funct3Of w = 0b101#3) ∨
      funct3Of w = 0b010#3 ∨ funct3Of w = 0b011#3 ∨ funct3Of w = 0b110#3 ∨ funct3Of w = 0b111#3 := by
  generalize funct3Of w = f
  revert f
  decide

/-- The size code 10 or 11 is a word access for the control unit and the memory interface alike (R82, R201). -/
theorem loadWord_of_decode (h : decode n mode w = .instr i) (hmajor : i.major = .load) : LoadWord w i := by
  obtain ⟨-, hi⟩ := decodeCuUnder_of_decode h
  have h13 := (BitVec.getLsbD_eq_getElem (by decide)).trans (bit13_eq w)
  rw [hmajor, decodeCuUnder, decodeLoad, h13] at hi
  rcases funct3_cases w with (hf3 | hf3 | hf3 | hf3) | hf3 | hf3 | hf3 | hf3
  all_goals
    rw [hf3] at hi
    cases hi
    constructor
    · intro s; rw [sizeCode, hf3]; rfl
    · rfl
    · rw [sizeCode, hf3]; rfl

theorem storeWord_of_decode (h : decode n mode w = .instr i) (hmajor : i.major = .store) : StoreWord w i := by
  obtain ⟨-, hi⟩ := decodeCuUnder_of_decode h
  have h13 := (BitVec.getLsbD_eq_getElem (by decide)).trans (bit13_eq w)
  have h12 := (BitVec.getLsbD_eq_getElem (by decide)).trans (bit12_eq w)
  rw [hmajor, decodeCuUnder, h13, h12] at hi
  rcases funct3_cases w with (hf3 | hf3 | hf3 | hf3) | hf3 | hf3 | hf3 | hf3
  all_goals
    rw [hf3] at hi
    cases hi
    constructor
    · intro s; rw [sizeCode, hf3]; rfl
    · rfl
    · rw [sizeCode, hf3]; rfl

/-- FENCE has instruction number 0x04 (R188). -/
theorem inumOf_of_fence {fm pred succ : BitVec 4} {rs1 rd : RegNum} (h : decode n mode w = .instr (.fence fm pred succ rs1 rd)) :
    inumOf w = some 0x04#8 := by
  obtain ⟨hop, hi⟩ := decodeCuUnder_of_decode h
  have htable : decodeMiscMem w = _ := decodedOr_eq_instr.mp hi
  unfold decodeMiscMem at htable
  split at htable
  · next hf3 =>
    rw [inumOf, hop, hf3]
    rfl
  · cases htable

end

/-! ### The runs -/

section
variable {m : Micro} {w : Word} {i : Instr} {late : Nat}

/-- A run of the statement starts at a fetch, or in a reset that is held, which its release takes to a fetch. -/
theorem Micro.exists_start (hstart : m.atFetch ∧ late = 0 ∨ m.cu = ControlUnit.reset ∧ m.mi.fsm = .op1A ∧ late = 1) :
    ∃ t, Micro.ticks late m = some t ∧ t.atFetch ∧ t.hart = m.hart := by
  rcases hstart with ⟨hfetch, rfl⟩ | ⟨hcu, hfsm, rfl⟩
  · exact ⟨m, rfl, hfetch, rfl⟩
  · obtain ⟨t, ht, hfetch, hhart, -⟩ := Micro.exists_tick_of_reset true hcu hfsm
    exact ⟨t, (Micro.ticks_one m).trans ht, hfetch, hhart⟩

/-- What O60 assumes of the start of a run, the instruction being decoded. -/
structure Micro.Runnable (m : Micro) (w : Word) (i : Instr) (late : Nat) : Prop where
  start : m.atFetch ∧ late = 0 ∨ m.cu = ControlUnit.reset ∧ m.mi.fsm = .op1A ∧ late = 1
  hung : m.hart.hung = false
  aligned : m.hart.pc.extractLsb' 0 2 = 0#2
  memory : ∀ a : Word, m.hart.cfg.memMap.kindAt a.toNat = some .memory
  fetch : m.hart.fetch = .ok w
  decode : decode m.hart.cfg.regCount m.hart.cfg.decodeMode w = .instr i

/-- After `k` cycles the hart is at a fetch again, and has done one step. -/
def Micro.RunsStep (m : Micro) (k : Nat) : Prop := ∃ t, Micro.ticks k m = some t ∧ t.atFetch ∧ step m.hart = .next t.hart

/-- The start and the fetch: IR holds the word, and the ROM delivers the position of its number. -/
theorem Micro.Runnable.exists_fetched {n : BitVec 8} {r : RomWord} (h : m.Runnable w i late) (hinum : inumOf w = some n)
    (hrom : rom n = some r) :
    ∃ t, Micro.ticks (late + 2) m = some t ∧ t.cu = ⟨n + 1#8, r⟩ ∧ t.mi.fsm = .op1A ∧ t.ir = w ∧ t.hart = m.hart := by
  obtain ⟨u, hu, hfetch, huhart⟩ := Micro.exists_start h.start
  obtain ⟨hword, -⟩ := memRead_eq_ok h.fetch
  obtain ⟨t, ht, hcu, hfsm, hir, hhart⟩ :=
    Micro.exists_fetch hfetch (by rw [huhart]; exact h.aligned) (by rw [huhart]; exact hword.symm) hinum hrom
  exact ⟨t, Micro.ticks_trans hu ht, hcu, hfsm, hir, hhart.trans huhart⟩

/-- One step is the instruction (O44). -/
theorem Micro.Runnable.step_eq (h : m.Runnable w i late) : step m.hart = exec i m.hart :=
  stepRunsDecodedInstruction m.hart w i h.hung h.fetch h.decode

theorem Micro.Runnable.readPort_eq {t : Micro} {r : RegNum} (h : m.Runnable w i late) (hhart : t.hart = m.hart) (hr : r ∈ i.regs) :
    t.readPort r = m.hart.reg r := by
  rw [Micro.readPort, hhart, portOf_of_decode h.decode hr]

theorem Micro.Runnable.writePort_eq {t : Micro} {r : RegNum} (v : Word) (h : m.Runnable w i late) (hhart : t.hart = m.hart) (hr : r ∈ i.regs) :
    t.writePort r v = m.hart.setReg r v := by
  rw [Micro.writePort, hhart, portOf_of_decode h.decode hr]

theorem Micro.Runnable.runs_fence {fm pred succ : BitVec 4} {rs1 rd : RegNum} (h : m.Runnable w (.fence fm pred succ rs1 rd) late) :
    m.RunsStep (3 + late) := by
  obtain ⟨u, hu, hcu, hfsm, -, huhart⟩ := h.exists_fetched (inumOf_of_fence h.decode) (r := 0x80000000#32) rfl
  obtain ⟨t, ht, hfetch, hhart⟩ := Micro.exists_fence hcu hfsm
  have hcycles : 3 + late = late + 2 + 1 := by omega
  refine ⟨t, hcycles ▸ Micro.ticks_trans hu ht, hfetch, ?_⟩
  rw [h.step_eq, hhart, huhart]
  rfl

/-- A load takes 6 cycles, and 2 more for a second operation. -/
theorem Micro.Runnable.runs_load {rs1 : RegNum} {disp : Word} {n : Nat} (h : m.Runnable w i late) (hmajor : i.major = .load)
    (haccess : accessOf i = some (rs1, disp, n)) : m.RunsStep (6 + extraCycles (m.hart.effAddr rs1 disp) n + late) := by
  obtain ⟨hexec, hregs, hfields⟩ := loadWord_of_decode h.decode hmajor
  obtain ⟨hop, -⟩ := decodeCuUnder_of_decode h.decode
  rw [hfields] at haccess
  cases haccess
  obtain ⟨u, hu, hcu, hfsm, hir, huhart⟩ := h.exists_fetched (inumOf_load (hop.trans (congrArg Major.code hmajor))) (r := 0x00000000#32) rfl
  have hrs1 : u.readPort (rs1Of w) = m.hart.reg (rs1Of w) := h.readPort_eq huhart (by simp [hregs])
  obtain ⟨t, ht, hfetch, hhart⟩ := Micro.exists_load (a := m.hart.effAddr (rs1Of w) (immI (immIOf w))) (size := sizeCode w) hcu hfsm
    (by rw [hir, hrs1, State.effAddr]) (by rw [hir, sizeCode])
  have hcycles (k : Nat) : 6 + k + late = late + 2 + (4 + k) := by omega
  refine ⟨t, hcycles _ ▸ Micro.ticks_trans hu ht, hfetch, ?_⟩
  rw [h.step_eq, hexec, load_of_memory _ _ fun b _ => h.memory b, writeBack_eq_next, hhart, hir, huhart,
    h.writePort_eq _ huhart (by simp [hregs])]
  rfl

/-- A store takes 5 cycles, and 2 more for a second operation. -/
theorem Micro.Runnable.runs_store {rs1 : RegNum} {disp : Word} {n : Nat} (h : m.Runnable w i late) (hmajor : i.major = .store)
    (haccess : accessOf i = some (rs1, disp, n)) : m.RunsStep (5 + extraCycles (m.hart.effAddr rs1 disp) n + late) := by
  obtain ⟨hexec, hregs, hfields⟩ := storeWord_of_decode h.decode hmajor
  obtain ⟨hop, -⟩ := decodeCuUnder_of_decode h.decode
  rw [hfields] at haccess
  cases haccess
  obtain ⟨u, hu, hcu, hfsm, hir, huhart⟩ := h.exists_fetched (inumOf_store (hop.trans (congrArg Major.code hmajor))) (r := 0x00000000#32) rfl
  have hrs1 : u.readPort (rs1Of w) = m.hart.reg (rs1Of w) := h.readPort_eq huhart (by simp [hregs])
  have hrs2 : u.readPort (rs2Of w) = m.hart.reg (rs2Of w) := h.readPort_eq huhart (by simp [hregs])
  obtain ⟨t, ht, hfetch, hhart⟩ := Micro.exists_store (a := m.hart.effAddr (rs1Of w) (immS (immSOf w))) (size := sizeCode w) hcu hfsm
    (by rw [hir, hrs1, State.effAddr]) (by rw [hir, sizeCode])
  have hcycles (k : Nat) : 5 + k + late = late + 2 + (3 + k) := by omega
  refine ⟨t, hcycles _ ▸ Micro.ticks_trans hu ht, hfetch, ?_⟩
  rw [h.step_eq, hexec, store_of_memory _ fun b _ => h.memory b, hhart, hir, hrs2, huhart]

/-- A byte takes one operation. -/
theorem extraCycles_byte (a : Word) : extraCycles a 1 = 0 := by
  have hcases : ∀ al : BitVec 2, ¬ min 1 (4 - al.toNat) < 1 := by decide
  exact if_neg (hcases (alignmentOf a))

theorem Micro.Runnable.runs_byteLoad {rs1 : RegNum} {disp : Word} (h : m.Runnable w i late) (hmajor : i.major = .load)
    (haccess : accessOf i = some (rs1, disp, 1)) : m.RunsStep (6 + late) := by
  have hruns := h.runs_load hmajor haccess
  rwa [extraCycles_byte, Nat.add_zero] at hruns

theorem Micro.Runnable.runs_byteStore {rs1 : RegNum} {disp : Word} (h : m.Runnable w i late) (hmajor : i.major = .store)
    (haccess : accessOf i = some (rs1, disp, 1)) : m.RunsStep (5 + late) := by
  have hruns := h.runs_store hmajor haccess
  rwa [extraCycles_byte, Nat.add_zero] at hruns

end

/-- Settles O60: the first clause is `Micro.tick_eq`; the runs are those of `runs_fence`, `runs_load` and `runs_store`. -/
theorem microRunsFenceLoadStore : Obligations.MicroRunsFenceLoadStore := by
  refine ⟨fun m t pready h => ?operands, fun m w i late hstart hhung halign hmemory hfetch hdecode => ?runs⟩
  case operands =>
    obtain ⟨hrs1, hrs2, -, -⟩ := Micro.tick_eq h
    exact ⟨hrs1, hrs2⟩
  case runs =>
    have h : m.Runnable w i late := ⟨hstart, hhung, halign, hmemory, hfetch, hdecode⟩
    refine ⟨?fence, ?lb, ?lh, ?lw, ?sb, ?sh, ?sw⟩
    case fence =>
      rintro fm pred succ rs1 rd rfl
      exact h.runs_fence
    case lb =>
      rintro rd rs1 imm (rfl | rfl)
      all_goals exact h.runs_byteLoad rfl rfl
    case lh =>
      rintro rd rs1 imm (rfl | rfl)
      all_goals exact h.runs_load rfl rfl
    case lw =>
      rintro rd rs1 imm rfl
      exact h.runs_load rfl rfl
    case sb =>
      rintro rs2 rs1 imm rfl
      exact h.runs_byteStore rfl rfl
    case sh | sw =>
      rintro rs2 rs1 imm rfl
      exact h.runs_store rfl rfl

end Sys2Proof.Machine
end
